-- ==== Sys2Proof/Config.lean ====
section
/-! DEFINITION. The parameters of the core (00_scope.md R5). -/

namespace Sys2Proof

/-- The width of a core's words. 00_scope.md R5 leaves `W` open: a multiple of 8, at least 32. `W = 32 + 8 * extraBytes`, so
every width R5 admits is here, once, and no other. A machine carries its width (`State.width`): `W` is an argument of the
model (92_eei_decisions.md D3), and a claim about every state is a claim about every `W`. -/
structure Width where
  extraBytes : Nat
  deriving DecidableEq, Repr

/-- The width of a slot in bytes, `W/8` (20_memory.md R57). -/
def Width.bytes (w : Width) : Nat := 4 + w.extraBytes

/-- `W`, the width in bits of every data register, point coordinate and slot (00_scope.md R5). -/
def Width.bits (w : Width) : Nat := 8 * w.bytes

/-- The number of words of `W` bits, `2^W`. -/
def Width.span (w : Width) : Nat := 2 ^ w.bits

/-- `W = 32`, the width of the test vectors (00_scope.md R5). -/
def Width.w32 : Width := ⟨0⟩

/-- `BASE`, the byte address of slot 0 on a byte-addressed platform bus: an open parameter of 00_scope.md R5 and
20_memory.md R57. It has no body, so a claim holds for every value (log 2; safe). -/
opaque Config.base : Nat

/-- `ROUNDS_RESET`, the reset value of the ROUNDS register (00_scope.md R5, 10_state.md R32). -/
def Config.roundsReset : BitVec 8 := 20#8

/-- The revision byte of the ID register (10_state.md R33). -/
def Config.revision : Nat := 0x01

/-- The name field of the ID register, the ASCII letters "CF" (10_state.md R33). -/
def Config.name : Nat := 0x4346

end Sys2Proof
end

