-- ==== Sys2Proof/Word.lean ====
section
/-! DEFINITION. The word type and the values of words (00_scope.md R7, R8). -/

namespace Sys2Proof

/-- The value is one of a word of `W` bits: it lies in [0, 2^W). A word is held as its unsigned value `uint(w)`, a Nat
(00_scope.md R8), and bit i of the word is `testBit i` of the value (R7). The width is the machine's (`State.width`), so the
range is no part of the type: this says it, and the invariant of Safety.lean says that every word a machine holds fits. -/
abbrev Width.Fits (w : Width) (v : Nat) : Prop := v < w.span

/-- `word(v)`: the W-bit word whose unsigned value is `v mod 2^W` (00_scope.md R8). -/
def word (w : Width) (v : Int) : Nat := (v % (w.span : Int)).toNat

/-- `sint(w)`: the two's-complement value of a word (00_scope.md R8). -/
def sint (w : Width) (v : Nat) : Int := if 2 ^ (w.bits - 1) ≤ v then (v : Int) - w.span else v

end Sys2Proof
end

