-- ==== Sys2Proof/Syntax.lean ====
section
/-! DEFINITION. The commands of the core: one constructor per row of the opcode table (30_encoding.md R74, R76). -/

namespace Sys2Proof

/-- A register field of a command word: a 4-bit unsigned number (30_encoding.md R71). It names a data register, or a
point register where only 0 to 3 are legal. -/
abbrev Field := BitVec 4

/-- The commands. Field names are those of 30_encoding.md R70; their roles are those of R76. `l` is the legacy bit L. -/
inductive Instr where
  | nop
  | addmod (fd fa fb fm : Field)
  | submod (fd fa fb fm : Field)
  | mulmod (fd fa fb fm : Field)
  | powmod (fd fa fb fm : Field)
  | inve (fd fa fm : Field)
  | invb (fd fa fm : Field)
  | invf (fd fa fm : Field)
  | mrround (fd fa fm : Field)
  | mrprime (fd fm : Field)
  | gcd (fd fa fb : Field)
  | xgcd (fd fa fb : Field)
  | totient (fd fa : Field)
  | padd (fd fa fb fm fc : Field) (l : Bool)
  | pdbl (fd fa fm fc : Field) (l : Bool)
  | pmul (fd fa fb fm fc : Field) (l : Bool)
  deriving DecidableEq, Repr

/-- The mnemonics of 30_encoding.md R74. -/
inductive Mnemonic where
  | nop | addmod | submod | mulmod | powmod | inve | invb | invf | mrround | mrprime | gcd | xgcd | totient
  | padd | pdbl | pmul
  deriving DecidableEq, Repr

/-- The command formats of 30_encoding.md R75. -/
inductive Form where
  | n | rrrm | rrm | rm | rrr | rr | ppp | pp | ppk
  deriving DecidableEq, Repr

/-- The mnemonic of a command. -/
def Instr.mnemonic : Instr → Mnemonic
  | .nop => .nop
  | .addmod _ _ _ _ => .addmod
  | .submod _ _ _ _ => .submod
  | .mulmod _ _ _ _ => .mulmod
  | .powmod _ _ _ _ => .powmod
  | .inve _ _ _ => .inve
  | .invb _ _ _ => .invb
  | .invf _ _ _ => .invf
  | .mrround _ _ _ => .mrround
  | .mrprime _ _ => .mrprime
  | .gcd _ _ _ => .gcd
  | .xgcd _ _ _ => .xgcd
  | .totient _ _ => .totient
  | .padd _ _ _ _ _ _ => .padd
  | .pdbl _ _ _ _ _ => .pdbl
  | .pmul _ _ _ _ _ _ => .pmul

/-- The fields of a command word (30_encoding.md R70), OP apart. -/
structure Fields where
  fd : Field
  fa : Field
  fb : Field
  fm : Field
  fc : Field
  l : Bool
  deriving DecidableEq, Repr

/-- The fields a command's word carries; a field its form does not use is 0 (30_encoding.md R75, R88). -/
def Instr.fields : Instr → Fields
  | .nop => ⟨0, 0, 0, 0, 0, false⟩
  | .addmod fd fa fb fm => ⟨fd, fa, fb, fm, 0, false⟩
  | .submod fd fa fb fm => ⟨fd, fa, fb, fm, 0, false⟩
  | .mulmod fd fa fb fm => ⟨fd, fa, fb, fm, 0, false⟩
  | .powmod fd fa fb fm => ⟨fd, fa, fb, fm, 0, false⟩
  | .inve fd fa fm => ⟨fd, fa, 0, fm, 0, false⟩
  | .invb fd fa fm => ⟨fd, fa, 0, fm, 0, false⟩
  | .invf fd fa fm => ⟨fd, fa, 0, fm, 0, false⟩
  | .mrround fd fa fm => ⟨fd, fa, 0, fm, 0, false⟩
  | .mrprime fd fm => ⟨fd, 0, 0, fm, 0, false⟩
  | .gcd fd fa fb => ⟨fd, fa, fb, 0, 0, false⟩
  | .xgcd fd fa fb => ⟨fd, fa, fb, 0, 0, false⟩
  | .totient fd fa => ⟨fd, fa, 0, 0, 0, false⟩
  | .padd fd fa fb fm fc l => ⟨fd, fa, fb, fm, fc, l⟩
  | .pdbl fd fa fm fc l => ⟨fd, fa, 0, fm, fc, l⟩
  | .pmul fd fa fb fm fc l => ⟨fd, fa, fb, fm, fc, l⟩

end Sys2Proof
end

