-- ==== Sys2Proof/WellFormed.lean ====
section
/-! DEFINITION. Well-formed commands: every point-register field names P0 to P3 (30_encoding.md R71). -/

namespace Sys2Proof

/-- A point-register field is legal when bits 3:2 of the field are 0b00 (30_encoding.md R71). -/
abbrev Field.IsPoint (f : Field) : Prop := f < 4#4

/-- The well-formedness of a command. Data-register fields are always legal (30_encoding.md R71), so only the point
fields of the elliptic-curve commands are checked; FB of PMUL names a data register (45_elliptic_curve.md R159). -/
def Instr.wellFormed : Instr → Bool
  | .nop => true
  | .addmod _ _ _ _ => true
  | .submod _ _ _ _ => true
  | .mulmod _ _ _ _ => true
  | .powmod _ _ _ _ => true
  | .inve _ _ _ => true
  | .invb _ _ _ => true
  | .invf _ _ _ => true
  | .mrround _ _ _ => true
  | .mrprime _ _ => true
  | .gcd _ _ _ => true
  | .xgcd _ _ _ => true
  | .totient _ _ => true
  | .padd fd fa fb _ _ _ => decide (fd < 4#4) && decide (fa < 4#4) && decide (fb < 4#4)
  | .pdbl fd fa _ _ _ => decide (fd < 4#4) && decide (fa < 4#4)
  | .pmul fd fa _ _ _ _ => decide (fd < 4#4) && decide (fa < 4#4)

/-- A well-formed command, as a decidable proposition. -/
abbrev Instr.WellFormed (i : Instr) : Prop := i.wellFormed = true

end Sys2Proof
end

