-- ==== Sys2Proof/Decode.lean ====
section
/-! DEFINITION. The command word: its fields, the opcode table, the decoder and the encoder (30_encoding.md R70 to R87). -/

namespace Sys2Proof

/-! ## The opcode table -/

/-- The mask of a form (30_encoding.md R75): the opcode bits, the RSV bits, the fields that must be 0 and bits 3:2 of
the point fields. -/
def Form.mask : Form → BitVec 32
  | .n => 0xFFFFFFFF#32
  | .rrrm => 0xFC0003FF#32
  | .rrm => 0xFC03C3FF#32
  | .rm => 0xFC3FC3FF#32
  | .rrr => 0xFC003FFF#32
  | .rr => 0xFC03FFFF#32
  | .ppp => 0xFF33001F#32
  | .pp => 0xFF33C01F#32
  | .ppk => 0xFF30001F#32

/-- The opcode of a mnemonic (30_encoding.md R74). -/
def Mnemonic.op : Mnemonic → BitVec 6
  | .nop => 0x00#6
  | .addmod => 0x01#6
  | .submod => 0x02#6
  | .mulmod => 0x04#6
  | .powmod => 0x05#6
  | .inve => 0x08#6
  | .invb => 0x09#6
  | .invf => 0x0A#6
  | .mrround => 0x0C#6
  | .mrprime => 0x0D#6
  | .gcd => 0x10#6
  | .xgcd => 0x11#6
  | .totient => 0x12#6
  | .padd => 0x18#6
  | .pdbl => 0x19#6
  | .pmul => 0x1A#6

/-- The form of a mnemonic (30_encoding.md R74). -/
def Mnemonic.form : Mnemonic → Form
  | .nop => .n
  | .addmod => .rrrm
  | .submod => .rrrm
  | .mulmod => .rrrm
  | .powmod => .rrrm
  | .inve => .rrm
  | .invb => .rrm
  | .invf => .rrm
  | .mrround => .rrm
  | .mrprime => .rm
  | .gcd => .rrr
  | .xgcd => .rrr
  | .totient => .rr
  | .padd => .ppp
  | .pdbl => .pp
  | .pmul => .ppk

/-- Every mnemonic, in the order of 30_encoding.md R74. -/
def Mnemonic.all : List Mnemonic :=
  [.nop, .addmod, .submod, .mulmod, .powmod, .inve, .invb, .invf, .mrround, .mrprime, .gcd, .xgcd, .totient,
   .padd, .pdbl, .pmul]

/-- The row of an opcode; none for a reserved opcode (30_encoding.md R74, R85). -/
def opRow (op : BitVec 6) : Option Mnemonic := Mnemonic.all.find? (fun mn => mn.op == op)

/-! ## Fields of a word -/

/-- OP, bits 31:26 of a command word (30_encoding.md R70). -/
def opOf (w : BitVec 32) : BitVec 6 := w.extractLsb' 26 6

/-- RSV, bits 4:0 of a command word (30_encoding.md R70). -/
def rsvOf (w : BitVec 32) : BitVec 5 := w.extractLsb' 0 5

/-- The register fields and L of a command word (30_encoding.md R70). -/
def fieldsOf (w : BitVec 32) : Fields where
  fd := w.extractLsb' 22 4
  fa := w.extractLsb' 18 4
  fb := w.extractLsb' 14 4
  fm := w.extractLsb' 10 4
  fc := w.extractLsb' 6 4
  l := w.getLsbD 5

/-- The match of an opcode's row, `OP << 26` (30_encoding.md R75). -/
def matchOf (op : BitVec 6) : BitVec 32 := op.setWidth 32 <<< 26

/-! ## The decoder -/

/-- Why a command word is illegal, a clause of 30_encoding.md R84 each. The core reports one code for all of them. -/
inductive Illegal where
  /-- W > 32 and a bit above bit 31 is 1 -/
  | highBits
  /-- OP is not in the opcode table -/
  | reservedOpcode
  /-- the RSV bits are not all 0 -/
  | reservedBits
  /-- a field that must be 0 is not 0, or a point-register field is 4 or more -/
  | badField
  deriving DecidableEq, Repr

/-- What the decoder answers: a command, or a rejection by name. -/
inductive Decoded where
  | cmd (i : Instr)
  | illegal (why : Illegal)
  deriving DecidableEq, Repr

/-- The command of a mnemonic and the fields of its word (30_encoding.md R76, R87). -/
def build (mn : Mnemonic) (f : Fields) : Instr :=
  match mn with
  | .nop => .nop
  | .addmod => .addmod f.fd f.fa f.fb f.fm
  | .submod => .submod f.fd f.fa f.fb f.fm
  | .mulmod => .mulmod f.fd f.fa f.fb f.fm
  | .powmod => .powmod f.fd f.fa f.fb f.fm
  | .inve => .inve f.fd f.fa f.fm
  | .invb => .invb f.fd f.fa f.fm
  | .invf => .invf f.fd f.fa f.fm
  | .mrround => .mrround f.fd f.fa f.fm
  | .mrprime => .mrprime f.fd f.fm
  | .gcd => .gcd f.fd f.fa f.fb
  | .xgcd => .xgcd f.fd f.fa f.fb
  | .totient => .totient f.fd f.fa
  | .padd => .padd f.fd f.fa f.fb f.fm f.fc f.l
  | .pdbl => .pdbl f.fd f.fa f.fm f.fc f.l
  | .pmul => .pmul f.fd f.fa f.fb f.fm f.fc f.l

/-- The decoder on a 32-bit command word (30_encoding.md R87). -/
def decode32 (w : BitVec 32) : Decoded :=
  match opRow (opOf w) with
  | none => .illegal .reservedOpcode
  | some mn =>
    if w &&& mn.form.mask = matchOf mn.op then .cmd (build mn (fieldsOf w))
    else if rsvOf w ≠ 0#5 then .illegal .reservedBits
    else .illegal .badField

/-- `Decode(v)` of the W-bit value written to CMD (30_encoding.md R87): the command word is bits 31:0, and the bits above,
which a word of W > 32 bits has, must be 0 (R72). -/
def decode (v : Nat) : Decoded :=
  if v >>> 32 ≠ 0 then .illegal .highBits
  else decode32 (BitVec.ofNat 32 v)

/-- The command a value decodes to, if it is legal. -/
def Decoded.instr? : Decoded → Option Instr
  | .cmd i => some i
  | .illegal _ => none

/-! ## The encoder -/

/-- The 32-bit command word of an opcode and fields, `OOOOOO DDDD AAAA BBBB MMMM CCCC L RRRRR` with RSV = 0
(30_encoding.md R70). -/
def pack (op : BitVec 6) (f : Fields) : BitVec 32 :=
  op ++ f.fd ++ f.fa ++ f.fb ++ f.fm ++ f.fc ++ BitVec.ofBool f.l ++ 0#5

/-- The encoding of a command (30_encoding.md R70, R74, R88). -/
def encode (i : Instr) : BitVec 32 := pack i.mnemonic.op i.fields

/-- The value the host writes to CMD to issue a command: the command word in bits 31:0, the bits above 0, so a word of every
W (30_encoding.md R72, R90). -/
def encodeWord (i : Instr) : Nat := (encode i).toNat

/-! ## The host's view of the decoder -/

/-- The command the decoder reads from a word of `nbits` table bits. A command is one 32-bit word, whose bits the table
numbers as 00_scope.md R7 does; bits above `nbits` are 0. -/
def decodeTableWord (nbits w : Nat) : Option Instr :=
  (decode (w % 2 ^ nbits)).instr?

end Sys2Proof
end

