-- ==== Sys2Proof/Machine/Script.lean ====
section
/-! DEFINITION. Slots, host scripts and the turns of the agents, as plain data (20_memory.md R50, 30_encoding.md R90,
00_scope.md R4). What they do stands in Machine/Bus.lean, Machine/HostAgent.lean and Machine/Turns.lean. -/

namespace Sys2Proof.Machine

/-- A slot number, 0x00 to 0x1F (20_memory.md R50). -/
abbrev Slot := BitVec 5

/-- The label of a branch target of a host script (30_encoding.md R90). -/
abbrev Label := Nat

/-- The expressions of a host script: integer constants, host variables, `+ - * AND OR >>` and bit selection
`h[i]`, `h[hi:lo]` (30_encoding.md R90, R91).
DESIGN CHOICE (log 10): R90 does not say whether the index of a bit selection may be an expression or a host variable; the model
takes constant bit numbers, and selects from any expression. A script shifts and masks where the number is computed. -/
inductive Expr where
  | lit (z : Int)
  | var (h : Nat)
  | add (a b : Expr)
  | sub (a b : Expr)
  | mul (a b : Expr)
  | and (a b : Expr)
  | or (a b : Expr)
  | shr (a b : Expr)
  | bits (e : Expr) (hi lo : Nat)
  deriving DecidableEq, Repr

/-- The statements of a host script (30_encoding.md R90), and the two platform bus accesses by which a host on a
byte-addressed bus reaches the slots (00_scope.md R11, 20_memory.md R57). -/
inductive Stmt where
  /-- `WR slot, e` -/
  | wr (slot : Slot) (e : Expr)
  /-- `RD hN, slot` -/
  | rd (h : Nat) (slot : Slot)
  /-- `ISSUE command`. DESIGN CHOICE (log 10): 30_encoding.md R90 gives ISSUE a command, while 95_test_vectors.md writes
  `ISSUE 0x04C48001`, a raw word that is no command's; ISSUE takes a command of `Instr` here, and a raw word is written by
  `WR CMD`, which is the same slot write (R90, 10_state.md R40). -/
  | issue (i : Instr)
  /-- `SET hN, e` -/
  | set (h : Nat) (e : Expr)
  /-- `BEQ a, b, label` -/
  | beq (a b : Expr) (l : Label)
  /-- `BNE a, b, label` -/
  | bne (a b : Expr) (l : Label)
  /-- `HALT` -/
  | halt
  /-- `hN <- MemRead(addr, n)` -/
  | memRead (h : Nat) (addr : Expr) (n : Nat)
  /-- `MemWrite(addr, n, e)` -/
  | memWrite (addr : Expr) (n : Nat) (e : Expr)
  deriving DecidableEq, Repr

/-- A line of a host script: a statement and the label before it, if it has one (30_encoding.md R90).
DESIGN CHOICE (log 10): R90 does not say whether several labels may stand before one statement, or a label after the last
statement; the model has at most one label a statement and none without one. -/
structure Line where
  label : Option Label
  stmt : Stmt
  deriving DecidableEq, Repr

/-- Whose step is next, with what comes from outside the machine (00_scope.md R4, 70_reset_and_hazards.md R223). -/
inductive Turn where
  /-- the host executes the next statement of its script -/
  | host
  /-- the core takes its step on the command in execution -/
  | core
  /-- the RNG agent answers the request of that number with a W-bit word of its choice (10_state.md R36): the word of the
  number `answer`, so that every word of the machine's width is some answer's (log 7) -/
  | rng (request : Nat) (answer : Nat)
  /-- the platform asserts power-on reset (70_reset_and_hazards.md R210) -/
  | powerOn
  deriving DecidableEq, Repr

end Sys2Proof.Machine
end

