-- ==== Sys2Proof/Machine/State.lean ====
section
/-! DEFINITION. The state of the machine (10_state.md R20), its reset value (R38) and the reasons a step can stop. -/

namespace Sys2Proof.Machine

/-- A register field and whether a write has given it a value since power-on (10_state.md R23). -/
structure Held (α : Type) where
  value : α
  written : Bool
  deriving DecidableEq, Repr

/-- A point register: the coordinates and the infinity tag (10_state.md R22). -/
structure PointReg where
  x : Held Nat
  y : Held Nat
  inf : Held Bool
  deriving DecidableEq, Repr

/-- A point value: `O`, the identity, or an affine pair of unsigned integers (00_scope.md R10). -/
inductive Pt where
  | infinity
  | affine (x y : Nat)
  deriving DecidableEq, Repr

/-- The operand words in LATCH, by the roles of 30_encoding.md R76: `a`, `b`, `m`, `c` are the words of D[FA], D[FB], D[FM]
and D[FC], and `p`, `q` are pt(FA) and pt(FB). A role the command does not read holds 0 or `O` and is read by no meaning
(log 6). -/
structure Operands where
  a : Nat
  b : Nat
  m : Nat
  c : Nat
  p : Pt
  q : Pt
  deriving DecidableEq, Repr

/-- LATCH, the record of the command in execution (10_state.md R35), and how far an MRPRIME has got: the rounds passed
(43_primality.md R132) and the RNG's answer the core has not used yet (10_state.md R36). -/
structure Latch where
  cmd : Instr
  ops : Operands
  rounds : BitVec 8
  passed : Nat
  draw : Option Nat
  deriving DecidableEq, Repr

/-- The RNG exchange (10_state.md R36): how many requests the core has made (a request's number is the count before it),
the request that awaits its answer, and the requests a reset withdrew, whose answers are discarded
(70_reset_and_hazards.md R213). -/
structure Rng where
  asked : Nat
  pending : Option Nat
  withdrawn : List Nat
  deriving DecidableEq, Repr

/-- The host agent (30_encoding.md R90): its script, the position of the next statement, its variables (sorted by number,
none that is 0) and whether it has executed HALT. -/
structure HostAgent where
  script : List Line
  pos : Nat
  vars : List (Nat × Int)
  halted : Bool
  deriving DecidableEq, Repr

/-- What is observed of a run at its end (70_reset_and_hazards.md R222): the contents of the 32 slots, slot 0x00 first, nothing
for a slot of which a field is unwritten, and the record of model faults. -/
structure Observation where
  slots : List (Option Nat)
  modelFault : Bool
  deriving DecidableEq, Repr

/-- The state: the core's registers and hidden state (10_state.md R20), the record of model faults (60_exceptions.md R200),
and the agents outside the core (00_scope.md R4) with the order in which they move (10_state.md R42). -/
structure State where
  /-- `W`, the core's width (00_scope.md R5): a parameter of the machine, which no step changes (log 1) -/
  width : Width
  /-- D0 to D15 (10_state.md R21) -/
  d : Vector (Held Nat) 16
  /-- P0 to P3 (10_state.md R22) -/
  p : Vector PointReg 4
  /-- CMD (10_state.md R27) -/
  cmd : Nat
  /-- STATUS.DONE (10_state.md R28) -/
  done : Bool
  /-- STATUS.ERR (10_state.md R28) -/
  err : Bool
  /-- STATUS.HAZ (10_state.md R28) -/
  haz : Bool
  /-- STATUS.ECODE (10_state.md R28, R29) -/
  ecode : BitVec 4
  /-- CTRL.IE (10_state.md R30) -/
  ie : Bool
  /-- ROUNDS, bits 7:0 (10_state.md R32) -/
  rounds : BitVec 8
  /-- LATCH (10_state.md R35); BUSY is 1 exactly when it is not empty (log 6) -/
  latch : Option Latch
  /-- the RNG exchange (10_state.md R36) -/
  rng : Rng
  /-- a model fault has been recorded (60_exceptions.md R200) -/
  modelFault : Bool
  /-- the host agent (00_scope.md R4) -/
  host : HostAgent
  /-- the observation made at the end of the run, once the run has ended (70_reset_and_hazards.md R222; log 17) -/
  ended : Option Observation
  /-- the turns to come, next first (10_state.md R42; log 5) -/
  schedule : List Turn
  deriving DecidableEq, Repr

/-- An unwritten field. The spec gives no value; the model's is 0.
DESIGN CHOICE (log 3; unsafe: no register holds it on the hardware by any rule). -/
def Held.unwritten {α : Type} (v : α) : Held α := ⟨v, false⟩

/-- A point register whose fields are unwritten. DESIGN CHOICE (log 3). -/
def PointReg.unwritten : PointReg := ⟨Held.unwritten 0, Held.unwritten 0, Held.unwritten false⟩

/-- The state of a core of any width after power-on reset (10_state.md R38, 70_reset_and_hazards.md R211), no script loaded and
no turn planned. -/
def State.resetOf (w : Width) : State where
  width := w
  d := Vector.replicate 16 (Held.unwritten 0)
  p := Vector.replicate 4 PointReg.unwritten
  cmd := 0
  done := false
  err := false
  haz := false
  ecode := 0
  ie := false
  rounds := Config.roundsReset
  latch := none
  rng := ⟨0, none, []⟩
  modelFault := false
  host := ⟨[], 0, [], false⟩
  ended := none
  schedule := []

/-- The state after power-on reset of the core of the test vectors, W = 32 (00_scope.md R5).
DESIGN CHOICE (log 1): R5 leaves W open; `State.resetOf` has every other width. -/
def State.reset : State := State.resetOf Width.w32

/-- Why a step stops with a fault. -/
inductive Fault where
  /-- Raised by every meaning when LATCH is empty: there is no command in execution whose operands it could read
  (10_state.md R35, R41). `step` never raises it, since the core's turn runs a meaning only on a latched command. Safe. -/
  | noCommand
  deriving DecidableEq, Repr

/-- Why a step is refused. -/
inductive Refusal where
  /-- Raised by an arm of `exec` whose instruction has no meaning yet. Safe. -/
  | notModelled (mnemonic : String)
  /-- Raised by a platform bus access that touches the block and is not one whole slot at its own address: "the spec does
  not define its effect" (20_memory.md R57). Safe. -/
  | partialBusAccess
  /-- Raised by a platform bus access outside the block: the spec says nothing of the rest of the bus (20_memory.md R61,
  70_reset_and_hazards.md R222). Safe. -/
  | busOutsideBlock
  /-- Raised by an RNG answer to a request that is neither pending nor withdrawn: "not modelled"
  (70_reset_and_hazards.md R223). Safe. -/
  | answerWithoutRequest
  /-- Raised by a taken branch of a host script to a label the script does not have: no script of 30_encoding.md R90. Safe. -/
  | unknownLabel
  deriving DecidableEq, Repr

/-- What a step answers. -/
abbrev Result := Host.Outcome State Fault Refusal

end Sys2Proof.Machine
end

