-- ==== Sys2Proof/Machine/Flags.lean ====
section
/-! DEFINITION. Error codes and the control and status registers as the host reads them (10_state.md R27 to R34,
60_exceptions.md R181, R189). The core has no arithmetic flags (10_state.md R26). -/

namespace Sys2Proof.Machine

/-- The error kinds a command can raise (60_exceptions.md R181). -/
inductive ErrorCode where
  | notInvertible
  | invalidModulus
  /-- reserved for the source's kind; no command raises it (60_exceptions.md R182) -/
  | invalidCurve
  | invalidScalar
  | precondition
  | illegalCommand
  | overflow
  deriving DecidableEq, Repr

/-- The value of STATUS.ECODE for an error (60_exceptions.md R181). -/
def ErrorCode.code : ErrorCode → BitVec 4
  | .notInvertible => 1#4
  | .invalidModulus => 2#4
  | .invalidCurve => 3#4
  | .invalidScalar => 4#4
  | .precondition => 5#4
  | .illegalCommand => 6#4
  | .overflow => 7#4

/-- The value of STATUS.ECODE for success (60_exceptions.md R181). -/
def okCode : BitVec 4 := 0#4

/-- STATUS.BUSY: 1 from the acceptance of a legal command to its completion, that is, while LATCH is not empty
(10_state.md R28, R35). -/
def State.busy (s : State) : Bool := s.latch.isSome

/-- The interrupt output, `CTRL.IE AND STATUS.DONE` (60_exceptions.md R189). -/
def State.irq (s : State) : Bool := s.ie && s.done

/-- The STATUS register: BUSY 0, DONE 1, ERR 2, HAZ 3, ECODE 7:4, IRQ 8, the rest 0 (10_state.md R28). -/
def State.statusWord (s : State) : Nat :=
  (BitVec.ofBool s.irq ++ s.ecode ++ BitVec.ofBool s.haz ++ BitVec.ofBool s.err ++ BitVec.ofBool s.done
    ++ BitVec.ofBool s.busy).toNat

/-- What a read of CTRL returns: `zext_W(IE)` (10_state.md R31). -/
def State.ctrlWord (s : State) : Nat := s.ie.toNat

/-- What a read of ROUNDS returns: the count in bits 7:0, the rest 0 (10_state.md R32). -/
def State.roundsWord (s : State) : Nat := s.rounds.toNat

/-- The constant ID register: "CF" in 31:16, the revision in 15:8, `W/8` in 7:0, 0 above (10_state.md R33).
DESIGN CHOICE (log 1): a `W/8` of 256 or more does not fit its field, of which R33 does not speak; its low byte stands there. -/
def idWord (w : Width) : Nat :=
  (BitVec.ofNat 16 Config.name ++ BitVec.ofNat 8 Config.revision ++ BitVec.ofNat 8 w.bytes).toNat

end Sys2Proof.Machine
end

