-- ==== Sys2Proof/Machine/Operands.lean ====
section
/-! DEFINITION. Which registers a command reads, and the words LATCH receives from them (10_state.md R35,
30_encoding.md R73, R75, R76). -/

namespace Sys2Proof.Machine

/-! ## Register indexes -/

/-- The data register a field names (30_encoding.md R71). -/
def dIdx (f : Field) : Fin 16 := ⟨f.toNat, f.isLt⟩

/-- The point register a field names: bits 1:0 of the field. In a well-formed command bits 3:2 are 0b00
(30_encoding.md R71), so this is the field's own number (log 14). -/
def pIdx (f : Field) : Fin 4 := ⟨f.toNat % 4, Nat.mod_lt _ (by decide)⟩

/-! ## Reading registers -/

/-- `D[f]` (00_scope.md R10). -/
def State.dataWord (s : State) (f : Field) : Nat := s.d[dIdx f].value

/-- The data register the field names has been written (10_state.md R23). -/
def State.dataWritten (s : State) (f : Field) : Bool := s.d[dIdx f].written

/-- `pt` of a point register: `O` when its PINF bit is 1, else the coordinates' words (00_scope.md R10). -/
def PointReg.pt (r : PointReg) : Pt := if r.inf.value then .infinity else .affine r.x.value r.y.value

/-- A read of `pt` reads PINF, and PX and PY only when PINF is 0; each field read has been written
(30_encoding.md R75, 10_state.md R23). -/
def PointReg.ptWritten (r : PointReg) : Bool :=
  r.inf.written && (r.inf.value || (r.x.written && r.y.written))

/-- `pt(f)` (00_scope.md R10). -/
def State.point (s : State) (f : Field) : Pt := s.p[pIdx f].pt

/-- Every field a read of `pt(f)` reads has been written. -/
def State.pointWritten (s : State) (f : Field) : Bool := s.p[pIdx f].ptWritten

/-! ## Operand roles -/

/-- The registers a command reads, by role: data registers for FA, FB, FM, FC and point registers for FA, FB. -/
structure Roles where
  a : Option Field
  b : Option Field
  m : Option Field
  c : Option Field
  p : Option Field
  q : Option Field
  deriving DecidableEq, Repr

/-- The operands each command reads (30_encoding.md R75, R76). -/
def roles : Instr → Roles
  | .nop => ⟨none, none, none, none, none, none⟩
  | .addmod _ fa fb fm => ⟨some fa, some fb, some fm, none, none, none⟩
  | .submod _ fa fb fm => ⟨some fa, some fb, some fm, none, none, none⟩
  | .mulmod _ fa fb fm => ⟨some fa, some fb, some fm, none, none, none⟩
  | .powmod _ fa fb fm => ⟨some fa, some fb, some fm, none, none, none⟩
  | .inve _ fa fm => ⟨some fa, none, some fm, none, none, none⟩
  | .invb _ fa fm => ⟨some fa, none, some fm, none, none, none⟩
  | .invf _ fa fm => ⟨some fa, none, some fm, none, none, none⟩
  | .mrround _ fa fm => ⟨some fa, none, some fm, none, none, none⟩
  | .mrprime _ fm => ⟨none, none, some fm, none, none, none⟩
  | .gcd _ fa fb => ⟨some fa, some fb, none, none, none, none⟩
  | .xgcd _ fa fb => ⟨some fa, some fb, none, none, none, none⟩
  | .totient _ fa => ⟨some fa, none, none, none, none, none⟩
  | .padd _ fa fb fm fc _ => ⟨none, none, some fm, some fc, some fa, some fb⟩
  | .pdbl _ fa fm fc _ => ⟨none, none, some fm, some fc, some fa, none⟩
  | .pmul _ fa fb fm fc _ => ⟨none, some fb, some fm, some fc, some fa, none⟩

/-- The word of a data role; 0 for a role that is not read (log 6). -/
def State.dataRole (s : State) : Option Field → Nat
  | none => 0
  | some f => s.dataWord f

/-- The point of a point role; `O` for a role that is not read (log 6). -/
def State.pointRole (s : State) : Option Field → Pt
  | none => .infinity
  | some f => s.point f

/-- The operand words of a command, read now (10_state.md R35, R40). -/
def State.readOperands (s : State) (i : Instr) : Operands :=
  let r := roles i
  { a := s.dataRole r.a
    b := s.dataRole r.b
    m := s.dataRole r.m
    c := s.dataRole r.c
    p := s.pointRole r.p
    q := s.pointRole r.q }

/-- A data role reads a written register, or is not read. -/
def State.dataRoleWritten (s : State) : Option Field → Bool
  | none => true
  | some f => s.dataWritten f

/-- A point role reads written fields only, or is not read. -/
def State.pointRoleWritten (s : State) : Option Field → Bool
  | none => true
  | some f => s.pointWritten f

/-- Every register field the command reads has been written (10_state.md R23, R40). -/
def State.operandsWritten (s : State) (i : Instr) : Bool :=
  let r := roles i
  s.dataRoleWritten r.a && s.dataRoleWritten r.b && s.dataRoleWritten r.m && s.dataRoleWritten r.c
    && s.pointRoleWritten r.p && s.pointRoleWritten r.q

/-! ## The values of latched operands -/

/-- `a = uint(D[FA])`, from LATCH. -/
def Latch.a (l : Latch) : Nat := l.ops.a

/-- `b = uint(D[FB])` (the scalar `k` of PMUL), from LATCH. -/
def Latch.b (l : Latch) : Nat := l.ops.b

/-- The modulus `uint(D[FM])`, from LATCH. -/
def Latch.m (l : Latch) : Nat := l.ops.m

/-- The curve coefficient `A = uint(D[FC])`, from LATCH. -/
def Latch.c (l : Latch) : Nat := l.ops.c

/-- `P = pt(FA)`, from LATCH. -/
def Latch.p (l : Latch) : Pt := l.ops.p

/-- `Q = pt(FB)`, from LATCH. -/
def Latch.q (l : Latch) : Pt := l.ops.q

end Sys2Proof.Machine
end

