-- ==== Sys2Proof/Machine/Ops.lean ====
section
/-! DEFINITION. The named operations on the state: writing results, completion, acceptance, the RNG exchange, resets and
the host's slot accesses. -/

namespace Sys2Proof.Machine

/-! ## Writing registers -/

/-- A field that a write gave a value (10_state.md R23). -/
def Held.of {α : Type} (v : α) : Held α := ⟨v, true⟩

/-- `D[f] <- v` (00_scope.md R10). -/
def State.setData (f : Field) (v : Nat) (s : State) : State := { s with d := s.d.set (dIdx f) (Held.of v) }

/-- The field `k` places after `f`, modulo 16 (44_number_theory.md R144). -/
def fieldAfter (f : Field) (k : Nat) : Field := f + BitVec.ofNat 4 k

/-- The point register that holds a point result: `O` sets PINF and zeroes the coordinates, an affine result clears PINF
(00_scope.md R10, 45_elliptic_curve.md R160). -/
def PointReg.ofPt (w : Width) : Pt → PointReg
  | .infinity => ⟨Held.of 0, Held.of 0, Held.of true⟩
  | .affine x y => ⟨Held.of (word w x), Held.of (word w y), Held.of false⟩

/-- `pt(f) <- R` (00_scope.md R10). -/
def State.setPoint (f : Field) (r : Pt) (s : State) : State :=
  { s with p := s.p.set (pIdx f) (PointReg.ofPt s.width r) }

/-! ## Completion -/

/-- `finish(e)` (60_exceptions.md R186): BUSY 0 and LATCH empty (10_state.md R41), DONE 1, ECODE e, ERR set when e is not 0. -/
def State.finish (e : BitVec 4) (s : State) : State :=
  { s with latch := none, done := true, ecode := e, err := s.err || (e != 0#4) }

/-- The completion of a command (10_state.md R41): an error writes no result and finishes with its code; otherwise every
result is written at once and the command finishes with code 0 (60_exceptions.md R185). -/
def State.complete {α : Type} (r : Except ErrorCode α) (commit : α → State → State) (s : State) : State :=
  match r with
  | .error e => s.finish e.code
  | .ok v => (commit v s).finish okCode

/-- The completion of a command whose one result is a data register. -/
def State.completeData (fd : Field) (r : Except ErrorCode Nat) (s : State) : State :=
  s.complete r (fun v => State.setData fd (word s.width v))

/-- The completion of a command whose result is a point register. -/
def State.completePoint (fd : Field) (r : Except ErrorCode Pt) (s : State) : State :=
  s.complete r (State.setPoint fd)

/-- Run a meaning on the latched command. With LATCH empty there is no command in execution (10_state.md R35). -/
def onLatch (s : State) (k : Latch → Result) : Result :=
  match s.latch with
  | none => .fault .noCommand
  | some l => k l

/-! ## The RNG exchange -/

/-- `Draw()`: the core makes a request to the RNG agent (10_state.md R36). -/
def Rng.request (r : Rng) : Rng := { r with asked := r.asked + 1, pending := some r.asked }

/-- A reset withdraws the pending request (70_reset_and_hazards.md R212, R213). -/
def Rng.withdraw (r : Rng) : Rng :=
  match r.pending with
  | none => r
  | some id => { r with pending := none, withdrawn := r.withdrawn ++ [id] }

/-- The RNG agent answers the request numbered `id` with the word of the number `n`: the pending request's answer reaches the
command in execution (10_state.md R36), a withdrawn request's answer is discarded (70_reset_and_hazards.md R213), and an answer
without a request is not modelled (R223). -/
def State.answer (id : Nat) (n : Nat) (s : State) : Result :=
  if s.rng.pending = some id then
    .next { s with
      rng := { s.rng with pending := none }
      latch := s.latch.map (fun l => { l with draw := some (word s.width n) }) }
  else if id ∈ s.rng.withdrawn then
    .next { s with rng := { s.rng with withdrawn := s.rng.withdrawn.erase id } }
  else .refused .answerWithoutRequest

/-! ## Model faults -/

/-- Record a model fault unless the fields read have been written (10_state.md R23, 60_exceptions.md R200). The record is
never cleared. -/
def State.noteRead (written : Bool) (s : State) : State := { s with modelFault := s.modelFault || !written }

/-! ## Acceptance -/

/-- What LATCH receives at acceptance (10_state.md R35). -/
def State.latchOf (i : Instr) (s : State) : Latch := ⟨i, s.readOperands i, s.rounds, 0, none⟩

/-- Acceptance of the word `v` written to CMD while BUSY is 0 (10_state.md R40). -/
def State.accept (v : Nat) (s : State) : State :=
  let s' := { s with cmd := v, done := false }
  match decode v with
  | .illegal _ => s'.finish ErrorCode.illegalCommand.code
  | .cmd i => { s'.noteRead (s.operandsWritten i) with latch := some (s.latchOf i) }

/-! ## Resets -/

/-- `SoftReset()` (70_reset_and_hazards.md R212). -/
def State.softReset (s : State) : State :=
  { s with
    rng := s.rng.withdraw
    latch := none
    cmd := 0
    done := false
    err := false
    haz := false
    ecode := 0
    ie := false
    rounds := Config.roundsReset }

/-- Power-on reset of the core (70_reset_and_hazards.md R211): every register and LATCH as in the first column of
10_state.md R38. The width is the core's own, and the host, the turns to come, the record of model faults and the observation
at the end of the run are no state of the core: they stay (log 11). -/
def State.powerOn (s : State) : State :=
  { s.softReset with
    d := (State.resetOf s.width).d
    p := (State.resetOf s.width).p }

/-! ## Slots -/

/-- What stands at a slot (20_memory.md R51). -/
inductive SlotKind where
  | data (i : Fin 16)
  | px (i : Fin 4)
  | py (i : Fin 4)
  | pinf
  | cmd
  | status
  | ctrl
  | rounds
  | id
  | reserved
  deriving DecidableEq, Repr

/-- The slot map (20_memory.md R51). -/
def slotKind (s : Slot) : SlotKind :=
  let n := s.toNat
  if n < 0x10 then .data (Fin.ofNat 16 n)
  else if n < 0x18 then
    let i := Fin.ofNat 4 ((n - 0x10) / 2)
    if n % 2 = 0 then .px i else .py i
  else if n = 0x18 then .pinf
  else if n = 0x19 then .cmd
  else if n = 0x1A then .status
  else if n = 0x1B then .ctrl
  else if n = 0x1C then .rounds
  else if n = 0x1D then .id
  else .reserved

/-- The CMD slot. -/
def cmdSlot : Slot := 0x19#5

/-- The PINF slot: PINF[3] to PINF[0] in bits 3 to 0, the rest 0 (10_state.md R24). -/
def State.pinfWord (s : State) : Nat :=
  (BitVec.ofBool s.p[3].inf.value ++ BitVec.ofBool s.p[2].inf.value ++ BitVec.ofBool s.p[1].inf.value
    ++ BitVec.ofBool s.p[0].inf.value).toNat

/-- The content of a slot (20_memory.md R52). -/
def State.slotWord (k : Slot) (s : State) : Nat :=
  match slotKind k with
  | .data i => s.d[i].value
  | .px i => s.p[i].x.value
  | .py i => s.p[i].y.value
  | .pinf => s.pinfWord
  | .cmd => s.cmd
  | .status => s.statusWord
  | .ctrl => s.ctrlWord
  | .rounds => s.roundsWord
  | .id => idWord s.width
  | .reserved => 0

/-- Every field a read of the slot reads has been written (10_state.md R23, 20_memory.md R52). -/
def State.slotWritten (k : Slot) (s : State) : Bool :=
  match slotKind k with
  | .data i => s.d[i].written
  | .px i => s.p[i].x.written
  | .py i => s.p[i].y.written
  | .pinf => s.p[0].inf.written && s.p[1].inf.written && s.p[2].inf.written && s.p[3].inf.written
  | .cmd => true
  | .status => true
  | .ctrl => true
  | .rounds => true
  | .id => true
  | .reserved => true

/-- What a `SlotRead` does to the state: nothing but the record of a model fault (20_memory.md R52, R60). -/
def State.afterRead (k : Slot) (s : State) : State := s.noteRead (s.slotWritten k)

/-- What is observed of a slot: its content, or nothing where a field it reads is unwritten (70_reset_and_hazards.md R222). -/
def State.observe (s : State) (k : Slot) : Option Nat := if s.slotWritten k then some (s.slotWord k) else none

/-- The observation: every slot, and the record of model faults (70_reset_and_hazards.md R222). -/
def State.observation (s : State) : Observation :=
  ⟨(List.range 32).map (fun k => s.observe (BitVec.ofNat 5 k)), s.modelFault⟩

/-- The end of the run, where it is one (70_reset_and_hazards.md R222; log 17): the host has executed HALT and BUSY is 0. The
observation is made there, once. `HALT` and a command's completion are the two steps that can be the end. -/
def State.noteEnd (s : State) : State :=
  if s.host.halted && !s.busy && s.ended.isNone then { s with ended := some s.observation } else s

/-- A host write to CTRL (10_state.md R31). -/
def State.writeCtrl (v : Nat) (s : State) : State :=
  if v.testBit 3 then s.softReset
  else
    { s with
      ie := v.testBit 0
      done := s.done && !v.testBit 1
      err := s.err && !v.testBit 2
      haz := s.haz && !v.testBit 2 }

/-- A host write to ROUNDS: bits 7:0, ignored when they are 0 (10_state.md R32). -/
def State.writeRounds (v : Nat) (s : State) : State :=
  let r := BitVec.ofNat 8 v
  if r = 0#8 then s else { s with rounds := r }

/-- A host write to PINF: bits 3:0, all four bits at once (10_state.md R24, 20_memory.md R53). -/
def State.writePinf (v : Nat) (s : State) : State :=
  { s with
    p := #v[{ s.p[0] with inf := Held.of (v.testBit 0) }, { s.p[1] with inf := Held.of (v.testBit 1) },
            { s.p[2] with inf := Held.of (v.testBit 2) }, { s.p[3] with inf := Held.of (v.testBit 3) }] }

/-- `SlotWrite(k, v)` of a W-bit word v. A write to CTRL is always performed (20_memory.md R55); any other write is ignored and
sets HAZ while BUSY is 1 (R55); otherwise the slot is written (R53). -/
def State.slotWrite (k : Slot) (v : Nat) (s : State) : State :=
  match slotKind k with
  | .ctrl => s.writeCtrl v
  | kind =>
    if s.busy then { s with haz := true }
    else
      match kind with
      | .data i => { s with d := s.d.set i (Held.of v) }
      | .px i => { s with p := s.p.set i { s.p[i] with x := Held.of v } }
      | .py i => { s with p := s.p.set i { s.p[i] with y := Held.of v } }
      | .pinf => s.writePinf v
      | .cmd => s.accept v
      | .status => s
      | .ctrl => s
      | .rounds => s.writeRounds v
      | .id => s
      | .reserved => s

end Sys2Proof.Machine
end

