-- ==== Sys2Proof/Machine/Control.lean ====
section
/-! DEFINITION. The control command: NOP (46_control.md). -/

namespace Sys2Proof.Machine

/-- NOP (46_control.md R170): no register is written; the command completes with code 0. -/
def execNop (s : State) : Result :=
  onLatch s fun _ => .next (s.complete (.ok ()) (fun _ t => t))

end Sys2Proof.Machine
end

