-- ==== Sys2Proof/Machine/ModularArithmetic.lean ====
section
/-! DEFINITION. The modular adder/subtractor: ADDMOD, SUBMOD (40_safe_modular_arithmetic.md). -/

namespace Sys2Proof.Machine

/-- `z mod m` for an integer z and m > 0: the residue in [0, m), floor modulo (00_scope.md R9). -/
def modN (z : Int) (m : Nat) : Nat := (z % (m : Int)).toNat

/-- `AddModF(a, b, m)` (40_safe_modular_arithmetic.md R100). -/
def addModF (a b m : Nat) : Nat := (a + b) % m

/-- `SubModF(a, b, m)` (40_safe_modular_arithmetic.md R100). -/
def subModF (a b m : Nat) : Nat := modN ((a : Int) - (b : Int)) m

/-- The check `if m = 0: raise INVALID_MODULUS` that every command with a modulus but MRPRIME makes first. -/
def withModulus {α : Type} (m : Nat) (r : Except ErrorCode α) : Except ErrorCode α :=
  if m = 0 then .error .invalidModulus else r

/-- What ADDMOD computes (40_safe_modular_arithmetic.md R101). -/
def addmodResult (a b m : Nat) : Except ErrorCode Nat := withModulus m (.ok (addModF a b m))

/-- What SUBMOD computes (40_safe_modular_arithmetic.md R102). -/
def submodResult (a b m : Nat) : Except ErrorCode Nat := withModulus m (.ok (subModF a b m))

/-- ADDMOD (40_safe_modular_arithmetic.md R101). -/
def execAddmod (fd : Field) (s : State) : Result :=
  onLatch s fun l => .next (s.completeData fd (addmodResult l.a l.b l.m))

/-- SUBMOD (40_safe_modular_arithmetic.md R102). -/
def execSubmod (fd : Field) (s : State) : Result :=
  onLatch s fun l => .next (s.completeData fd (submodResult l.a l.b l.m))

end Sys2Proof.Machine
end

