-- ==== Sys2Proof/Machine/ModularExponentiation.lean ====
section
/-! DEFINITION. The binary exponentiation engine: MULMOD, POWMOD (41_modular_exponentiation.md). -/

namespace Sys2Proof.Machine

/-- The number of bits of e up to its highest set bit: the passes a loop over the bits of e makes (log 15). -/
def bitLength (e : Nat) : Nat := if e = 0 then 0 else e.log2 + 1

/-- The loop of `BinaryCombine` (41_modular_exponentiation.md R110): fold on a set bit, square the base, shift the exponent.
The first argument bounds the passes. -/
def combineLoop (comb : Nat → Nat → Nat → Nat) (m : Nat) : Nat → Nat → Nat → Nat → Nat
  | 0, acc, _, _ => acc
  | fuel + 1, acc, base, e =>
    if e = 0 then acc
    else combineLoop comb m fuel (if e % 2 = 1 then comb acc base m else acc) (comb base base m) (e / 2)

/-- `BinaryCombine(base, e, m, comb, ident)` (41_modular_exponentiation.md R110); the final `mod m` is 90_conflicts.md C1. -/
def binaryCombine (base e m : Nat) (comb : Nat → Nat → Nat → Nat) (ident : Nat) : Nat :=
  combineLoop comb m (bitLength e) ident base e % m

/-- `MulModF(a, b, m)`: multiplication by repeated doubling (41_modular_exponentiation.md R111). -/
def mulModF (a b m : Nat) : Nat := binaryCombine a b m addModF 0

/-- `PowModF(a, b, m)`: exponentiation by repeated squaring (41_modular_exponentiation.md R111). -/
def powModF (a b m : Nat) : Nat := binaryCombine a b m mulModF 1

/-- What MULMOD computes (41_modular_exponentiation.md R112). -/
def mulmodResult (a b m : Nat) : Except ErrorCode Nat := withModulus m (.ok (mulModF a b m))

/-- What POWMOD computes (41_modular_exponentiation.md R113). -/
def powmodResult (a b m : Nat) : Except ErrorCode Nat := withModulus m (.ok (powModF a b m))

/-- MULMOD (41_modular_exponentiation.md R112). -/
def execMulmod (fd : Field) (s : State) : Result :=
  onLatch s fun l => .next (s.completeData fd (mulmodResult l.a l.b l.m))

/-- POWMOD (41_modular_exponentiation.md R113). -/
def execPowmod (fd : Field) (s : State) : Result :=
  onLatch s fun l => .next (s.completeData fd (powmodResult l.a l.b l.m))

end Sys2Proof.Machine
end

