-- ==== Sys2Proof/Machine/NumberTheory.lean ====
section
/-! DEFINITION. The number-theory unit: GCD, XGCD, TOTIENT (44_number_theory.md). -/

namespace Sys2Proof.Machine

/-- Euclid's loop (44_number_theory.md R140). The first argument bounds the passes: b falls on each one. -/
def gcdLoop : Nat → Nat → Nat → Nat
  | 0, a, _ => a
  | fuel + 1, a, b => if b = 0 then a else gcdLoop fuel b (a % b)

/-- `GcdF(a, b)` (44_number_theory.md R140). -/
def gcdF (a b : Nat) : Nat := gcdLoop b a b

/-- What an extended gcd answers: `(g, x, y)`. -/
structure Bezout where
  g : Nat
  x : Int
  y : Int
  deriving DecidableEq, Repr

/-- The recursion of the extended gcd (44_number_theory.md R141). The first argument bounds its depth: b falls on each call. -/
def xgcdLoop : Nat → Nat → Nat → Bezout
  | 0, a, _ => ⟨a, 1, 0⟩
  | fuel + 1, a, b =>
    if b = 0 then ⟨a, 1, 0⟩
    else
      let r := xgcdLoop fuel b (a % b)
      ⟨r.g, r.y, r.x - (a / b : Nat) * r.y⟩

/-- `XGcdF(a, b)` (44_number_theory.md R141). -/
def xgcdF (a b : Nat) : Bezout := xgcdLoop b a b

/-- `while m mod p = 0: phi <- phi * p; m <- m div p` (44_number_theory.md R142). -/
def stripLoop (p : Nat) : Nat → Nat → Nat → Nat × Nat
  | 0, phi, m => (phi, m)
  | fuel + 1, phi, m => if m % p = 0 then stripLoop p fuel (phi * p) (m / p) else (phi, m)

/-- One candidate p of the trial division (44_number_theory.md R142). -/
def totientPass (p phi m : Nat) : Nat × Nat :=
  if m % p = 0 then stripLoop p (bitLength m) (phi * (p - 1)) (m / p) else (phi, m)

/-- The trial-division loop over p (44_number_theory.md R142). The first argument bounds the passes. -/
def totientLoop (n : Nat) : Nat → Nat → Nat → Nat → Nat × Nat
  | 0, phi, m, _ => (phi, m)
  | fuel + 1, phi, m, p =>
    if p * p ≤ n then
      let r := totientPass p phi m
      totientLoop n fuel r.1 r.2 (p + 1)
    else (phi, m)

/-- `TotientF(n)` (44_number_theory.md R142). -/
def totientF (n : Nat) : Nat :=
  let r := totientLoop n n 1 n 2
  if 1 < r.2 then r.1 * (r.2 - 1) else r.1

/-- What GCD computes (44_number_theory.md R143). -/
def gcdResult (a b : Nat) : Except ErrorCode Nat := .ok (gcdF a b)

/-- `x` fits in W-bit two's complement (44_number_theory.md R144). -/
abbrev FitsSigned (w : Width) (x : Int) : Prop := -(2 : Int) ^ (w.bits - 1) ≤ x ∧ x < (2 : Int) ^ (w.bits - 1)

/-- What XGCD computes (44_number_theory.md R144). -/
def xgcdResult (w : Width) (a b : Nat) : Except ErrorCode Bezout :=
  let r := xgcdF a b
  if FitsSigned w r.x ∧ FitsSigned w r.y then .ok r else .error .overflow

/-- XGCD's three results: g at FD, x at FD + 1, y at FD + 2, modulo 16 (44_number_theory.md R144). -/
def commitBezout (fd : Field) (r : Bezout) (s : State) : State :=
  ((s.setData fd (word s.width r.g)).setData (fieldAfter fd 1) (word s.width r.x)).setData (fieldAfter fd 2)
    (word s.width r.y)

/-- What TOTIENT computes (44_number_theory.md R145). -/
def totientResult (n : Nat) : Except ErrorCode Nat := if n = 0 then .error .precondition else .ok (totientF n)

/-- GCD (44_number_theory.md R143). -/
def execGcd (fd : Field) (s : State) : Result :=
  onLatch s fun l => .next (s.completeData fd (gcdResult l.a l.b))

/-- XGCD (44_number_theory.md R144). -/
def execXgcd (fd : Field) (s : State) : Result :=
  onLatch s fun l => .next (s.complete (xgcdResult s.width l.a l.b) (commitBezout fd))

/-- TOTIENT (44_number_theory.md R145). -/
def execTotient (fd : Field) (s : State) : Result :=
  onLatch s fun l => .next (s.completeData fd (totientResult l.a))

end Sys2Proof.Machine
end

