-- ==== Sys2Proof/Machine/ModularInverse.lean ====
section
/-! DEFINITION. The modular inverses: INVE, INVB, INVF (42_modular_inverse.md). -/

namespace Sys2Proof.Machine

/-- `InvEF(a, n)`: extended Euclid on (n, a), y normalised to [0, n) (42_modular_inverse.md R120). -/
def invEF (a n : Nat) : Except ErrorCode Nat :=
  let r := xgcdF n a
  if r.g ≠ 1 then .error .notInvertible else .ok (modN r.y n)

/-- `Half(x, n)` (42_modular_inverse.md R121). -/
def half (x : Int) (n : Nat) : Int := if x % 2 = 0 then x / 2 else (x + n) / 2

/-- `while u is even: u <- u / 2; x <- Half(x, n)` (42_modular_inverse.md R121). The first argument bounds the passes. -/
def halveLoop (n : Nat) : Nat → Nat → Int → Nat × Int
  | 0, u, x => (u, x)
  | fuel + 1, u, x => if u % 2 = 0 then halveLoop n fuel (u / 2) (half x n) else (u, x)

/-- The halving of u, for u > 0. -/
def halve (n u : Nat) (x : Int) : Nat × Int := halveLoop n (bitLength u) u x

/-- The outer loop of `BinInvF` (42_modular_inverse.md R121). The first argument bounds the passes: u + v falls on each one. -/
def binInvLoop (n : Nat) : Nat → Nat → Nat → Int → Int → Except ErrorCode Nat
  | 0, _, _, _, _ => .error .notInvertible
  | fuel + 1, u, v, x1, x2 =>
    if u = 1 then .ok (modN x1 n)
    else if v = 1 then .ok (modN x2 n)
    else if u = 0 ∨ v = 0 then .error .notInvertible
    else
      let hu := halve n u x1
      let hv := halve n v x2
      if hv.1 ≤ hu.1 then binInvLoop n fuel (hu.1 - hv.1) hv.1 (hu.2 - hv.2) hv.2
      else binInvLoop n fuel hu.1 (hv.1 - hu.1) hu.2 (hv.2 - hu.2)

/-- `BinInvF(a, n)` (42_modular_inverse.md R121). -/
def binInvF (a n : Nat) : Except ErrorCode Nat := binInvLoop n (a + n + 1) a n 1 0

/-- What INVE computes (42_modular_inverse.md R120). -/
def inveResult (a n : Nat) : Except ErrorCode Nat := withModulus n (invEF a n)

/-- What INVB computes (42_modular_inverse.md R122). -/
def invbResult (a n : Nat) : Except ErrorCode Nat :=
  withModulus n (if n < 3 ∨ n % 2 = 0 ∨ a < 1 ∨ n - 1 < a then .error .precondition else binInvF a n)

/-- What INVF computes (42_modular_inverse.md R123). -/
def invfResult (a n : Nat) : Except ErrorCode Nat :=
  withModulus n
    (if n = 1 then .error .precondition
     else if a % n = 0 then .error .notInvertible
     else .ok (powModF a (n - 2) n))

/-- INVE (42_modular_inverse.md R120). -/
def execInve (fd : Field) (s : State) : Result :=
  onLatch s fun l => .next (s.completeData fd (inveResult l.a l.m))

/-- INVB (42_modular_inverse.md R122). -/
def execInvb (fd : Field) (s : State) : Result :=
  onLatch s fun l => .next (s.completeData fd (invbResult l.a l.m))

/-- INVF (42_modular_inverse.md R123). -/
def execInvf (fd : Field) (s : State) : Result :=
  onLatch s fun l => .next (s.completeData fd (invfResult l.a l.m))

end Sys2Proof.Machine
end

