-- ==== Sys2Proof/Machine/EllipticCurve.lean ====
section
/-! DEFINITION. The elliptic-curve unit: PADD, PDBL, PMUL (45_elliptic_curve.md). -/

namespace Sys2Proof.Machine

/-- `Norm`: the coordinates reduced mod m (45_elliptic_curve.md R153). -/
def normPt (m : Nat) : Pt → Pt
  | .infinity => .infinity
  | .affine x y => .affine (x % m) (y % m)

/-- The point a line of slope s through (px, py) and a point of x-coordinate qx gives (45_elliptic_curve.md R153):
`rx <- (s*s - px - qx) mod m; ry <- (s*(px - rx) - py) mod m`. -/
def linePoint (s px py qx m : Nat) : Pt :=
  let rx := modN ((s : Int) * s - px - qx) m
  let ry := modN ((s : Int) * ((px : Int) - rx) - py) m
  .affine rx ry

/-- `num * InvEF(den, m) mod m`, the slope (45_elliptic_curve.md R152, R153). -/
def slope (num den m : Nat) : Except ErrorCode Nat :=
  match invEF den m with
  | .error e => .error e
  | .ok i => .ok (num * i % m)

/-- The result from a slope (45_elliptic_curve.md R153). -/
def pointOfSlope (sl : Except ErrorCode Nat) (px py qx m : Nat) : Except ErrorCode Pt :=
  match sl with
  | .error e => .error e
  | .ok s => .ok (linePoint s px py qx m)

/-- The chord and tangent cases on affine points, and `degenerate` for a vertical tangent and for Q = -P
(45_elliptic_curve.md R153, R154). -/
def affineAdd (degenerate : Pt) (px py qx qy A m : Nat) : Except ErrorCode Pt :=
  let dx := subModF qx px m
  let dy := subModF qy py m
  if dx ≠ 0 then pointOfSlope (slope dy dx m) px py qx m
  else if dy = 0 then
    let den := 2 * py % m
    if den = 0 then .ok degenerate
    else pointOfSlope (slope (3 * px * px + A) den m) px py qx m
  else .ok degenerate

/-- `PointAddF(P, Q, A, m)`: the group law with identity (45_elliptic_curve.md R153). -/
def pointAddF (P Q : Pt) (A m : Nat) : Except ErrorCode Pt :=
  match P, Q with
  | .infinity, q => .ok (normPt m q)
  | p, .infinity => .ok (normPt m p)
  | .affine px py, .affine qx qy => affineAdd .infinity px py qx qy A m

/-- `PointAddLF(P, Q, A, m)`: the source's collapsed branches (45_elliptic_curve.md R154). -/
def pointAddLF (P Q : Pt) (A m : Nat) : Except ErrorCode Pt :=
  match P, Q with
  | .infinity, _ => .error .precondition
  | _, .infinity => .error .precondition
  | .affine px py, .affine qx qy => affineAdd (normPt m (.affine qx qy)) px py qx qy A m

/-- The double-and-add loop over the bits of e (45_elliptic_curve.md R157, R158): fold on a set bit, then double the running
point, also on the last pass. The first argument bounds the passes. -/
def pointMulLoop (add : Pt → Pt → Except ErrorCode Pt) :
    Nat → Pt → Pt → Nat → Except ErrorCode Pt
  | 0, acc, _, _ => .ok acc
  | fuel + 1, acc, run, e =>
    if e = 0 then .ok acc
    else
      match (if e % 2 = 1 then add acc run else .ok acc) with
      | .error c => .error c
      | .ok acc' =>
        match add run run with
        | .error c => .error c
        | .ok run' => pointMulLoop add fuel acc' run' (e / 2)

/-- `return Norm(acc)` of a point or its error. -/
def normResult (m : Nat) : Except ErrorCode Pt → Except ErrorCode Pt
  | .error c => .error c
  | .ok r => .ok (normPt m r)

/-- `PointMulF(P, k, A, m)` (45_elliptic_curve.md R157). -/
def pointMulF (P : Pt) (k A m : Nat) : Except ErrorCode Pt :=
  normResult m (pointMulLoop (fun p q => pointAddF p q A m) (bitLength k) .infinity P k)

/-- `PointMulLF(P, k, A, m)` (45_elliptic_curve.md R158). -/
def pointMulLF (P : Pt) (k A m : Nat) : Except ErrorCode Pt :=
  match P with
  | .infinity => .error .precondition
  | .affine _ _ =>
    if k = 0 then .error .invalidScalar
    else normResult m (pointMulLoop (fun p q => pointAddLF p q A m) (bitLength (k - 1)) P P (k - 1))

/-- What PADD computes (45_elliptic_curve.md R155); `l` is the mode (R150). -/
def paddResult (l : Bool) (P Q : Pt) (A m : Nat) : Except ErrorCode Pt :=
  withModulus m (if l then pointAddLF P Q A m else pointAddF P Q A m)

/-- What PDBL computes (45_elliptic_curve.md R156). -/
def pdblResult (l : Bool) (P : Pt) (A m : Nat) : Except ErrorCode Pt :=
  withModulus m (if l then pointAddLF P P A m else pointAddF P P A m)

/-- What PMUL computes (45_elliptic_curve.md R159). -/
def pmulResult (l : Bool) (P : Pt) (k A m : Nat) : Except ErrorCode Pt :=
  withModulus m (if l then pointMulLF P k A m else pointMulF P k A m)

/-- PADD (45_elliptic_curve.md R155). -/
def execPadd (fd : Field) (l : Bool) (s : State) : Result :=
  onLatch s fun h => .next (s.completePoint fd (paddResult l h.p h.q h.c h.m))

/-- PDBL (45_elliptic_curve.md R156). -/
def execPdbl (fd : Field) (l : Bool) (s : State) : Result :=
  onLatch s fun h => .next (s.completePoint fd (pdblResult l h.p h.c h.m))

/-- PMUL (45_elliptic_curve.md R159). -/
def execPmul (fd : Field) (l : Bool) (s : State) : Result :=
  onLatch s fun h => .next (s.completePoint fd (pmulResult l h.p h.b h.c h.m))

end Sys2Proof.Machine
end

