-- ==== Sys2Proof/Machine/Primality.lean ====
section
/-! DEFINITION. The Miller-Rabin tester: MRROUND, MRPRIME (43_primality.md). -/

namespace Sys2Proof.Machine

/-- `while d is even: d <- d / 2; s <- s + 1` (43_primality.md R130). The first argument bounds the passes. -/
def splitTwos : Nat → Nat → Nat → Nat × Nat
  | 0, d, s => (d, s)
  | fuel + 1, d, s => if d % 2 = 0 then splitTwos fuel (d / 2) (s + 1) else (d, s)

/-- `repeat k times: x <- MulModF(x, x, n); if x = n - 1: return 1`, then 0 (43_primality.md R130). -/
def mrSquares (n : Nat) : Nat → Nat → Nat
  | 0, _ => 0
  | k + 1, x =>
    let x' := mulModF x x n
    if x' = n - 1 then 1 else mrSquares n k x'

/-- `MrRoundF(a, n)`: 1 when the round passes, 0 when a proves n composite (43_primality.md R130). -/
def mrRoundF (a n : Nat) : Nat :=
  let ds := splitTwos (bitLength (n - 1)) (n - 1) 0
  let x := powModF a ds.1 n
  if x = 1 ∨ x = n - 1 then 1 else mrSquares n (ds.2 - 1) x

/-- What MRROUND computes (43_primality.md R131). -/
def mrroundResult (a n : Nat) : Except ErrorCode Nat :=
  withModulus n (if n < 3 ∨ n % 2 = 0 then .error .precondition else .ok (mrRoundF a n))

/-- The witness the core makes of the RNG's word r (43_primality.md R133). -/
def witness (r n : Nat) : Nat := 1 + r % (n - 2)

/-- What the core does next on an MRPRIME. -/
inductive MrStep where
  /-- the test is over with this result -/
  | result (v : Nat)
  /-- so many rounds have passed and another witness is wanted -/
  | draw (passed : Nat)
  deriving DecidableEq, Repr

/-- The loop head `for i in 1 .. R` after `passed` rounds (43_primality.md R132). -/
def mrNext (rounds passed : Nat) : MrStep := if rounds ≤ passed then .result 1 else .draw passed

/-- The body of MRPRIME up to its next draw (43_primality.md R132): the cases settled at once, or a round on the answer the
RNG gave, or the first draw. -/
def mrprimeStep (n rounds passed : Nat) (answer : Option Nat) : MrStep :=
  if n = 2 then .result 1
  else if n < 2 ∨ n % 2 = 0 then .result 0
  else
    match answer with
    | none => mrNext rounds passed
    | some r => if mrRoundF (witness r n) n = 0 then .result 0 else mrNext rounds (passed + 1)

/-- MRROUND (43_primality.md R131). -/
def execMrround (fd : Field) (s : State) : Result :=
  onLatch s fun l => .next (s.completeData fd (mrroundResult l.a l.m))

/-- The core asks the RNG for another witness after `passed` rounds. -/
def State.requestDraw (passed : Nat) (l : Latch) (s : State) : State :=
  { s with latch := some { l with passed := passed, draw := none }, rng := s.rng.request }

/-- MRPRIME (43_primality.md R132). The core runs the test up to its result, which it writes, or up to the next draw, which it
requests; until a pending request is answered it does nothing (10_state.md R36; log 7). -/
def execMrprime (fd : Field) (s : State) : Result :=
  onLatch s fun l =>
    match mrprimeStep l.m l.rounds.toNat l.passed l.draw with
    | .result v => .next (s.completeData fd (.ok v))
    | .draw passed => if s.rng.pending.isSome then .next s else .next (s.requestDraw passed l)

end Sys2Proof.Machine
end

