-- ==== Sys2Proof/Machine/Dispatch.lean ====
section
/-! DEFINITION. The meaning of every command: the core's step on the command in execution, on the operands in LATCH
(10_state.md R41). The operand fields of a command are read at acceptance (Machine/Operands.lean, Machine/Ops.lean). -/

namespace Sys2Proof.Machine

def exec (i : Instr) (s : State) : Host.Outcome State Fault Refusal :=
  match i with
  | .nop => Sys2Proof.Machine.execNop s
  | .addmod fd _ _ _ => Sys2Proof.Machine.execAddmod fd s
  | .submod fd _ _ _ => Sys2Proof.Machine.execSubmod fd s
  | .mulmod fd _ _ _ => Sys2Proof.Machine.execMulmod fd s
  | .powmod fd _ _ _ => Sys2Proof.Machine.execPowmod fd s
  | .inve fd _ _ => Sys2Proof.Machine.execInve fd s
  | .invb fd _ _ => Sys2Proof.Machine.execInvb fd s
  | .invf fd _ _ => Sys2Proof.Machine.execInvf fd s
  | .mrround fd _ _ => Sys2Proof.Machine.execMrround fd s
  | .mrprime fd _ => Sys2Proof.Machine.execMrprime fd s
  | .gcd fd _ _ => Sys2Proof.Machine.execGcd fd s
  | .xgcd fd _ _ => Sys2Proof.Machine.execXgcd fd s
  | .totient fd _ => Sys2Proof.Machine.execTotient fd s
  | .padd fd _ _ _ _ l => Sys2Proof.Machine.execPadd fd l s
  | .pdbl fd _ _ _ l => Sys2Proof.Machine.execPdbl fd l s
  | .pmul fd _ _ _ _ l => Sys2Proof.Machine.execPmul fd l s

end Sys2Proof.Machine
end

