-- ==== Sys2Proof/Machine/Bus.lean ====
section
/-! DEFINITION. Slot accesses on a byte-addressed platform bus (20_memory.md R57 to R59). -/

namespace Sys2Proof.Machine

/-- What an access of n bytes at a byte address reaches. -/
inductive BusTarget where
  /-- one whole slot at its own address -/
  | slot (k : Slot)
  /-- the block, but not as one whole slot -/
  | partialAccess
  /-- no byte of the block -/
  | outside
  deriving DecidableEq, Repr

/-- The byte address of a slot, `BASE + s * (W/8)` (20_memory.md R57). -/
def slotAddr (w : Width) (k : Slot) : Int := Config.base + k.toNat * w.bytes

/-- The bytes of the block, `32 * (W/8)` (20_memory.md R57). -/
def blockBytes (w : Width) : Nat := 32 * w.bytes

/-- The mapping of platform accesses onto slots, by the offset of the address from BASE (20_memory.md R57). -/
def offsetTarget (w : Width) (off : Int) (n : Nat) : BusTarget :=
  if n = w.bytes ∧ 0 ≤ off ∧ off < blockBytes w ∧ off % w.bytes = 0 then
    .slot (BitVec.ofNat 5 (off.toNat / w.bytes))
  else if 0 < n ∧ off < blockBytes w ∧ 0 < off + n then .partialAccess
  else .outside

/-- The mapping of platform accesses onto slots (20_memory.md R57). -/
def busTarget (w : Width) (addr : Int) (n : Nat) : BusTarget := offsetTarget w (addr - Config.base) n

/-- The bytes of a slot, lowest address first: byte j carries bits 8j+7:8j, little-endian (20_memory.md R58). -/
def wordBytes (w : Width) (v : Nat) : List (BitVec 8) :=
  (List.range w.bytes).map (fun j => BitVec.ofNat 8 (v >>> (8 * j)))

/-- The number that bytes, lowest address first, stand for, little-endian (20_memory.md R58). -/
def ofBytes : List (BitVec 8) → Nat
  | [] => 0
  | b :: r => b.toNat + 256 * ofBytes r

end Sys2Proof.Machine
end

