-- ==== Sys2Proof/Machine/HostAgent.lean ====
section
/-! DEFINITION. The host agent: the statements of a host script (30_encoding.md R90, R91). -/

namespace Sys2Proof.Machine

/-! ## Host variables -/

/-- The value of host variable `h`; a variable nothing has set is 0 (log 10). -/
def getVar : List (Nat × Int) → Nat → Int
  | [], _ => 0
  | (k, v) :: r, h => if k = h then v else getVar r h

/-- Put `h = z` before `r`, leaving 0 unlisted. -/
def consVar (h : Nat) (z : Int) (r : List (Nat × Int)) : List (Nat × Int) := if z = 0 then r else (h, z) :: r

/-- `hN <- z`, keeping the variables sorted by number. -/
def setVar : List (Nat × Int) → Nat → Int → List (Nat × Int)
  | [], h, z => consVar h z []
  | (k, v) :: r, h, z =>
    if k = h then consVar h z r
    else if h < k then consVar h z ((k, v) :: r)
    else (k, v) :: setVar r h z

/-! ## Expressions -/

/-- `z[hi:lo]` of an integer: its two's-complement bits hi down to lo as an unsigned number (00_scope.md R7). -/
def bitsOf (z : Int) (hi lo : Nat) : Int := z >>> lo % 2 ^ (hi + 1 - lo)

/-- The value of an expression of a host script (30_encoding.md R90). On negative integers AND, OR and >> work on the
two's-complement bits (log 10). -/
def Expr.eval (vars : List (Nat × Int)) : Expr → Int
  | .lit z => z
  | .var h => getVar vars h
  | .add a b => a.eval vars + b.eval vars
  | .sub a b => a.eval vars - b.eval vars
  | .mul a b => a.eval vars * b.eval vars
  | .and a b => Int.land (a.eval vars) (b.eval vars)
  | .or a b => Int.lor (a.eval vars) (b.eval vars)
  | .shr a b => a.eval vars >>> (b.eval vars).toNat
  | .bits e hi lo => bitsOf (e.eval vars) hi lo

/-! ## Moving in the script -/

/-- The position of a label in a script: of the first line that carries it.
DESIGN CHOICE (log 10): 30_encoding.md R90 does not say which statement a label names that stands twice. -/
def labelPos (script : List Line) (l : Label) : Option Nat := script.findIdx? (fun ln => ln.label == some l)

/-- The host goes on to the next statement. -/
def State.advance (s : State) : State := { s with host := { s.host with pos := s.host.pos + 1 } }

/-- The host branches to a label (30_encoding.md R90). -/
def State.branch (l : Label) (s : State) : Result :=
  match labelPos s.host.script l with
  | none => .refused .unknownLabel
  | some n => .next { s with host := { s.host with pos := n } }

/-- `hN <- z`. -/
def State.setHostVar (h : Nat) (z : Int) (s : State) : State :=
  { s with host := { s.host with vars := setVar s.host.vars h z } }

/-- `hN <- SlotRead(k)` (20_memory.md R52), with the record of a model fault for an unwritten field. -/
def State.hostRead (h : Nat) (k : Slot) (s : State) : State :=
  (s.afterRead k).setHostVar h (s.slotWord k)

/-! ## Statements -/

/-- `hN <- MemRead(addr, n)` (00_scope.md R11, 20_memory.md R57, R58). -/
def State.memRead (h : Nat) (addr : Int) (n : Nat) (s : State) : Result :=
  match busTarget s.width addr n with
  | .slot k => .next (((s.afterRead k).setHostVar h (ofBytes (wordBytes s.width (s.slotWord k)))).advance)
  | .partialAccess => .refused .partialBusAccess
  | .outside => .refused .busOutsideBlock

/-- `MemWrite(addr, n, v)` (00_scope.md R11, 20_memory.md R57, R58).
DESIGN CHOICE (log 9): neither rule says what is stored of a v that is negative or does not fit in n bytes; the model stores
word(v), that is v mod 2^W. -/
def State.memWrite (addr : Int) (n : Nat) (v : Int) (s : State) : Result :=
  match busTarget s.width addr n with
  | .slot k => .next ((s.slotWrite k (ofBytes (wordBytes s.width (word s.width v)))).advance)
  | .partialAccess => .refused .partialBusAccess
  | .outside => .refused .busOutsideBlock

/-- One statement of a host script, one atomic step (30_encoding.md R90, 20_memory.md R63). -/
def runStmt (st : Stmt) (s : State) : Result :=
  let ev := Expr.eval s.host.vars
  match st with
  | .wr k e => .next ((s.slotWrite k (word s.width (ev e))).advance)
  | .rd h k => .next ((s.hostRead h k).advance)
  | .issue i => .next ((s.slotWrite cmdSlot (encodeWord i)).advance)
  | .set h e => .next ((s.setHostVar h (ev e)).advance)
  | .beq a b l => if ev a = ev b then s.branch l else .next s.advance
  | .bne a b l => if ev a = ev b then .next s.advance else s.branch l
  | .halt => .next (State.noteEnd { s with host := { s.host with halted := true } })
  | .memRead h a n => s.memRead h (ev a) n
  | .memWrite a n e => s.memWrite (ev a) n (ev e)

/-- The host's step: the next statement of its script. A host that has executed HALT, or has no statement left, does
nothing (log 10). -/
def hostTurn (s : State) : Result :=
  if s.host.halted then .next s
  else
    match s.host.script[s.host.pos]? with
    | none => .next s
    | some ln => runStmt ln.stmt s

end Sys2Proof.Machine
end

