-- ==== Sys2Proof/Machine/Turns.lean ====
section
/-! DEFINITION. The turns of the agents (00_scope.md R4, 10_state.md R41, R42). -/

namespace Sys2Proof.Machine

/-- What follows a step that has a next state; a fault or a refusal stays. -/
def onNext (r : Result) (f : State → State) : Result :=
  match r with
  | .next s => .next (f s)
  | .fault e => .fault e
  | .refused e => .refused e

/-- The core's step: the command in execution, if there is one; with LATCH empty the core is idle and keeps all state
(10_state.md R41, 60_exceptions.md R199). A completion after the host's HALT ends the run (70_reset_and_hazards.md R222). -/
def coreTurn (s : State) : Result :=
  match s.latch with
  | none => .next s
  | some l => onNext (exec l.cmd s) State.noteEnd

/-- Whose turn it is when the schedule is empty: the core's while BUSY is 1, else the host's (log 5). -/
def defaultTurn (s : State) : Turn := if s.busy then .core else .host

/-- The next turn. -/
def nextTurn (s : State) : Turn :=
  match s.schedule with
  | [] => defaultTurn s
  | t :: _ => t

/-- The state once the next turn is taken from the schedule. -/
def State.popTurn (s : State) : State := { s with schedule := s.schedule.tail }

/-- One atomic step of one agent (20_memory.md R63). -/
def takeTurn (t : Turn) (s : State) : Result :=
  match t with
  | .host => hostTurn s
  | .core => coreTurn s
  | .rng id w => s.answer id w
  | .powerOn => .next s.powerOn

/-- The state in which the core's next step runs the command of the word `v`: accepted as if written to CMD while BUSY is 0
(10_state.md R40), any command in execution abandoned and its RNG request withdrawn, and the core next to move (log 13). -/
def State.loadCommand (v : Nat) (s : State) : State :=
  let s' := State.accept v { s with latch := none, rng := s.rng.withdraw }
  { s' with
    schedule :=
      match s.schedule with
      | [] => []
      | t :: r => .core :: t :: r }

end Sys2Proof.Machine
end

