-- ==== Sys2Proof/Machine/Step.lean ====
section
/-! DEFINITION. One step of the machine: the next turn (20_memory.md R63). -/

namespace Sys2Proof.Machine

/-- One step: the agent whose turn is next takes its step. -/
def step (s : State) : Host.Outcome State Fault Refusal := takeTurn (nextTurn s) s.popTurn

/-- `s` with the command of a word of `nbits` table bits where the core takes its next command from: LATCH, by acceptance
(10_state.md R40; log 13). -/
def State.withFetchWord (s : State) (nbits w : Nat) : State :=
  s.loadCommand (w % 2 ^ nbits)

end Sys2Proof.Machine
end

