-- ==== Sys2Proof/Machine/Assembler.lean ====
section
/-! DEFINITION. Assembler syntax and the pseudo-instructions of host scripts (30_encoding.md R88, R89, R91). -/

namespace Sys2Proof.Machine

/-! ## Commands -/

/-- A register as an operand is written: `D0` to `D15` or `P0` to `P3` (30_encoding.md R88). -/
inductive AsmReg where
  | d (n : Fin 16)
  | p (n : Fin 4)
  deriving DecidableEq, Repr

/-- The field that holds a register's number (30_encoding.md R88). -/
def AsmReg.field : AsmReg → Field
  | .d n => BitVec.ofNat 4 n.val
  | .p n => BitVec.ofNat 4 n.val

/-- The command of a mnemonic, the suffix `.L` and the operands in written order; none where the syntax of 30_encoding.md R88
does not allow them. The suffix is accepted on PADD, PDBL and PMUL only (R89). -/
def assemble (mn : Mnemonic) (legacy : Bool) (ops : List AsmReg) : Option Instr :=
  let f := AsmReg.field
  let k (n : Fin 16) : Field := f (.d n)
  let q (n : Fin 4) : Field := f (.p n)
  match mn, legacy, ops with
  | .nop, false, [] => some .nop
  | .addmod, false, [.d d, .d a, .d b, .d m] => some (.addmod (k d) (k a) (k b) (k m))
  | .submod, false, [.d d, .d a, .d b, .d m] => some (.submod (k d) (k a) (k b) (k m))
  | .mulmod, false, [.d d, .d a, .d b, .d m] => some (.mulmod (k d) (k a) (k b) (k m))
  | .powmod, false, [.d d, .d a, .d b, .d m] => some (.powmod (k d) (k a) (k b) (k m))
  | .inve, false, [.d d, .d a, .d m] => some (.inve (k d) (k a) (k m))
  | .invb, false, [.d d, .d a, .d m] => some (.invb (k d) (k a) (k m))
  | .invf, false, [.d d, .d a, .d m] => some (.invf (k d) (k a) (k m))
  | .mrround, false, [.d d, .d a, .d m] => some (.mrround (k d) (k a) (k m))
  | .mrprime, false, [.d d, .d m] => some (.mrprime (k d) (k m))
  | .gcd, false, [.d d, .d a, .d b] => some (.gcd (k d) (k a) (k b))
  | .xgcd, false, [.d d, .d a, .d b] => some (.xgcd (k d) (k a) (k b))
  | .totient, false, [.d d, .d a] => some (.totient (k d) (k a))
  | .padd, l, [.p d, .p a, .p b, .d c, .d m] => some (.padd (q d) (q a) (q b) (k m) (k c) l)
  | .pdbl, l, [.p d, .p a, .d c, .d m] => some (.pdbl (q d) (q a) (k m) (k c) l)
  | .pmul, l, [.p d, .p a, .d b, .d c, .d m] => some (.pmul (q d) (q a) (k b) (k m) (k c) l)
  | _, _, _ => none

/-! ## Slot names -/

/-- The slot of data register `i` (20_memory.md R51). -/
def dataSlot (i : Fin 16) : Slot := BitVec.ofNat 5 i.val

/-- The x slot of point register `i`, 0x10 + 2i (20_memory.md R51). -/
def pxSlot (i : Fin 4) : Slot := BitVec.ofNat 5 (0x10 + 2 * i.val)

/-- The y slot of point register `i`, 0x11 + 2i (20_memory.md R51). -/
def pySlot (i : Fin 4) : Slot := BitVec.ofNat 5 (0x11 + 2 * i.val)

/-- The STATUS slot (20_memory.md R51). -/
def statusSlot : Slot := 0x1A#5

/-! ## Pseudo-instructions -/

/-- A statement with no label. -/
def plain (st : Stmt) : Line := ⟨none, st⟩

/-- `WAIT`, with a fresh host variable `ht` and a fresh label `lw` (30_encoding.md R91). -/
def waitLines (ht : Nat) (lw : Label) : List Line :=
  [⟨some lw, .rd ht statusSlot⟩, plain (.bne (.bits (.var ht) 0 0) (.lit 0) lw)]

/-- `RUN command` (30_encoding.md R91). -/
def runLines (i : Instr) (ht : Nat) (lw : Label) : List Line := plain (.issue i) :: waitLines ht lw

/-- `WRPT Pi, x, y` (30_encoding.md R91). -/
def writePointLines (i : Fin 4) (x y : Expr) : List Line := [plain (.wr (pxSlot i) x), plain (.wr (pySlot i) y)]

/-- `CHECKOK`, with a fresh host variable `ht` and the script's error label (30_encoding.md R91). -/
def checkOkLines (ht : Nat) (err : Label) : List Line :=
  [plain (.rd ht statusSlot), plain (.bne (.bits (.var ht) 7 4) (.lit 0) err)]

end Sys2Proof.Machine
end

