-- ==== Sys2Proof/Safety.lean ====
section
/-! DEFINITION. What the statements speak of: the end of a run, the observation, and the invariant of reachable states. -/

namespace Sys2Proof.Machine

/-- The next state of an outcome, if it is one. -/
def nextState? : Result → Option State
  | .next s => some s
  | .fault _ => none
  | .refused _ => none

/-- The outcome is a next state that passes a test. -/
def nextHas (r : Result) (p : State → Bool) : Bool := (nextState? r).any p

/-- The outcome is a refusal for this reason. -/
def refusedFor (r : Result) (why : Refusal) : Bool :=
  match r with
  | .next _ => false
  | .fault _ => false
  | .refused w => w == why

/-- The run has ended: the host executed HALT while BUSY was 0, or a command completed after it did; what was observed there is
kept in `State.ended` (70_reset_and_hazards.md R222). -/
abbrev State.Ended (s : State) : Prop := s.ended.isSome = true

/-- A good end: an end at which no model fault was recorded (70_reset_and_hazards.md R222). -/
abbrev State.GoodEnd (s : State) : Prop := s.ended.any (fun o => !o.modelFault) = true

/-- The command is an MRPRIME. -/
def isMrprime (i : Instr) : Bool := i.mnemonic == .mrprime

/-- The command writes a point register; every other command writes data registers or nothing (30_encoding.md R75). -/
def isPointCommand (i : Instr) : Bool := i.mnemonic == .padd || i.mnemonic == .pdbl || i.mnemonic == .pmul

/-- The codes the core writes to ECODE (60_exceptions.md R181, R182): 3 and 8 to 15 are never written. -/
def legalCodes : List (BitVec 4) := [0, 1, 2, 4, 5, 6, 7]

/-- The fields a form marks "must be 0", RSV apart (30_encoding.md R75). -/
def MustBeZero (form : Form) (f : Fields) : Prop :=
  match form with
  | .n => f.fd = 0 ∧ f.fa = 0 ∧ f.fb = 0 ∧ f.fm = 0 ∧ f.fc = 0 ∧ f.l = false
  | .rrrm => f.fc = 0 ∧ f.l = false
  | .rrm => f.fb = 0 ∧ f.fc = 0 ∧ f.l = false
  | .rm => f.fa = 0 ∧ f.fb = 0 ∧ f.fc = 0 ∧ f.l = false
  | .rrr => f.fm = 0 ∧ f.fc = 0 ∧ f.l = false
  | .rr => f.fb = 0 ∧ f.fm = 0 ∧ f.fc = 0 ∧ f.l = false
  | .ppp => True
  | .pp => f.fb = 0
  | .ppk => True

/-- The point-register fields of a form name P0 to P3 (30_encoding.md R71, R75). -/
def PointFieldsLegal (form : Form) (f : Fields) : Prop :=
  match form with
  | .n => True
  | .rrrm => True
  | .rrm => True
  | .rm => True
  | .rrr => True
  | .rr => True
  | .ppp => f.fd < 4#4 ∧ f.fa < 4#4 ∧ f.fb < 4#4
  | .pp => f.fd < 4#4 ∧ f.fa < 4#4
  | .ppk => f.fd < 4#4 ∧ f.fa < 4#4

/-- The data registers a command writes on success (30_encoding.md R75). -/
def dataDests : Instr → List Field
  | .nop => []
  | .addmod fd _ _ _ => [fd]
  | .submod fd _ _ _ => [fd]
  | .mulmod fd _ _ _ => [fd]
  | .powmod fd _ _ _ => [fd]
  | .inve fd _ _ => [fd]
  | .invb fd _ _ => [fd]
  | .invf fd _ _ => [fd]
  | .mrround fd _ _ => [fd]
  | .mrprime fd _ => [fd]
  | .gcd fd _ _ => [fd]
  | .xgcd fd _ _ => [fd, fd + 1, fd + 2]
  | .totient fd _ => [fd]
  | .padd _ _ _ _ _ _ => []
  | .pdbl _ _ _ _ _ => []
  | .pmul _ _ _ _ _ _ => []

/-- The point registers a command writes on success (30_encoding.md R75). -/
def pointDests : Instr → List Field
  | .nop => []
  | .addmod _ _ _ _ => []
  | .submod _ _ _ _ => []
  | .mulmod _ _ _ _ => []
  | .powmod _ _ _ _ => []
  | .inve _ _ _ => []
  | .invb _ _ _ => []
  | .invf _ _ _ => []
  | .mrround _ _ _ => []
  | .mrprime _ _ => []
  | .gcd _ _ _ => []
  | .xgcd _ _ _ => []
  | .totient _ _ => []
  | .padd fd _ _ _ _ _ => [fd]
  | .pdbl fd _ _ _ _ => [fd]
  | .pmul fd _ _ _ _ _ => [fd]

/-- Run a command to its end while the RNG gives the answers in order: the core's step, then an answer where the core has
asked for one, and so on (43_primality.md R132, 10_state.md R36). -/
def serve (i : Instr) : List Nat → State → Result
  | [], s => exec i s
  | w :: ws, s =>
    match exec i s with
    | .fault f => .fault f
    | .refused r => .refused r
    | .next t =>
      match t.rng.pending with
      | none => .next t
      | some id =>
        match t.answer id w with
        | .fault f => .fault f
        | .refused r => .refused r
        | .next u => serve i ws u

/-- Host variables as they are kept: sorted by number, no zero listed. -/
def VarsOk (vars : List (Nat × Int)) : Prop :=
  vars.Pairwise (fun x y => x.1 < y.1) ∧ ∀ x ∈ vars, x.2 ≠ 0

/-- The coordinates are in [0, m) (45_elliptic_curve.md R160); for m = 2^W, they are words (10_state.md R22). -/
def Pt.Reduced (m : Nat) : Pt → Prop
  | .infinity => True
  | .affine x y => x < m ∧ y < m

/-- The operand words in LATCH are words of W bits (10_state.md R35). -/
structure Operands.Fit (w : Width) (o : Operands) : Prop where
  a : w.Fits o.a
  b : w.Fits o.b
  m : w.Fits o.m
  c : w.Fits o.c
  p : o.p.Reduced w.span
  q : o.q.Reduced w.span

/-- Every word the machine holds is a word of W bits (10_state.md R21, R22, R27, R35, R36). -/
structure State.WordsFit (s : State) : Prop where
  data : ∀ i : Fin 16, s.width.Fits s.d[i].value
  x : ∀ i : Fin 4, s.width.Fits s.p[i].x.value
  y : ∀ i : Fin 4, s.width.Fits s.p[i].y.value
  cmd : s.width.Fits s.cmd
  latch : ∀ l, s.latch = some l → l.ops.Fit s.width ∧ ∀ r, l.draw = some r → s.width.Fits r

/-- What holds of the command in execution. -/
structure LatchOk (s : State) (l : Latch) : Prop where
  /-- it is the command in CMD, which no write can change before completion (10_state.md R27, R40) -/
  decoded : decode s.cmd = .cmd l.cmd
  /-- its point fields are legal (30_encoding.md R71) -/
  wellFormed : l.cmd.WellFormed
  /-- DONE was cleared at acceptance (10_state.md R40) -/
  notDone : s.done = false
  /-- ROUNDS cannot have changed since acceptance (70_reset_and_hazards.md R218) -/
  rounds : l.rounds = s.rounds
  /-- the rounds passed are fewer than those wanted (43_primality.md R132) -/
  passed : l.passed < l.rounds.toNat

/-- What holds of a pending RNG request: only an MRPRIME on an odd n of 3 or more makes one (10_state.md R36,
43_primality.md R132), it was made, it is not a withdrawn one, and its answer is not there yet. -/
structure PendingOk (s : State) (id : Nat) : Prop where
  made : id < s.rng.asked
  live : id ∉ s.rng.withdrawn
  owner : ∃ l, s.latch = some l ∧ isMrprime l.cmd = true ∧ l.draw = none ∧ 3 ≤ l.m ∧ l.m % 2 = 1

/-- The invariant of the states the machine can reach. -/
structure State.Inv (s : State) : Prop where
  /-- ROUNDS is 1 to 255 (10_state.md R32) -/
  rounds : s.rounds ≠ 0
  /-- ECODE holds a code the core writes (60_exceptions.md R181) -/
  ecode : s.ecode ∈ legalCodes
  latch : ∀ l, s.latch = some l → LatchOk s l
  pending : ∀ id, s.rng.pending = some id → PendingOk s id
  withdrawn : ∀ id ∈ s.rng.withdrawn, id < s.rng.asked
  withdrawnOnce : s.rng.withdrawn.Nodup
  vars : VarsOk s.host.vars
  words : s.WordsFit
  /-- a run ends only after the host's HALT (70_reset_and_hazards.md R222) -/
  ended : s.ended.isSome = true → s.host.halted = true

/-- The extended gcd by its recursion (44_number_theory.md R141): `XGcdF(a, b) = (g, x, y)`. -/
inductive ExtendedGcd : Nat → Nat → Nat → Int → Int → Prop
  /-- `if b = 0: return (a, 1, 0)` -/
  | base (a : Nat) : ExtendedGcd a 0 a 1 0
  /-- `return (g, y', x' - (a div b) * y')` after `(g, x', y') <- XGcdF(b, a mod b)` -/
  | recurse (a b g : Nat) (x y : Int) (hb : b ≠ 0) (h : ExtendedGcd b (a % b) g x y) :
      ExtendedGcd a b g y (x - (a / b : Nat) * y)

/-- The loop of double-and-add over the bits of e, least significant first (45_elliptic_curve.md R157, R158): from the
accumulator and the running point it comes to this point or error. `add` is the mode's point addition. -/
inductive DoubleAndAdd (add : Pt → Pt → Except ErrorCode Pt) : Pt → Pt → Nat → Except ErrorCode Pt → Prop
  /-- no bit is left -/
  | done (acc run : Pt) : DoubleAndAdd add acc run 0 (.ok acc)
  /-- a set bit, and folding the running point into the accumulator fails: the first failure ends the command -/
  | foldFails (acc run : Pt) (e : Nat) (c : ErrorCode) (hbit : e % 2 = 1) (hfold : add acc run = .error c) :
      DoubleAndAdd add acc run e (.error c)
  /-- the doubling of the running point fails, on the last pass too -/
  | doubleFails (acc run : Pt) (e : Nat) (c : ErrorCode) (he : e ≠ 0)
      (hfold : e % 2 = 1 → ∃ acc', add acc run = .ok acc') (hdouble : add run run = .error c) :
      DoubleAndAdd add acc run e (.error c)
  /-- a clear bit: the running point is doubled -/
  | clearBit (acc run run' : Pt) (e : Nat) (r : Except ErrorCode Pt) (he : e ≠ 0) (hbit : e % 2 = 0)
      (hdouble : add run run = .ok run') (h : DoubleAndAdd add acc run' (e / 2) r) : DoubleAndAdd add acc run e r
  /-- a set bit: the running point is folded into the accumulator, then doubled -/
  | setBit (acc acc' run run' : Pt) (e : Nat) (r : Except ErrorCode Pt) (hbit : e % 2 = 1)
      (hfold : add acc run = .ok acc') (hdouble : add run run = .ok run') (h : DoubleAndAdd add acc' run' (e / 2) r) :
      DoubleAndAdd add acc run e r

/-- The curve y² = x³ + Ax + B (45_elliptic_curve.md). -/
abbrev shortCurve {R : Type} [CommRing R] (A B : R) : WeierstrassCurve.Affine R := ⟨0, 0, 0, A, B⟩

/-- A point value stands for a point of a curve over the integers modulo m: `O` for the identity, a pair for the point with
these coordinates modulo m (00_scope.md R10). -/
def StandsFor {m : Nat} [Fact m.Prime] {A B : ZMod m} (r : Pt) (q : (shortCurve A B).Point) : Prop :=
  match r with
  | .infinity => q = 0
  | .affine x y => ∃ h : (shortCurve A B).Nonsingular (x : ZMod m) (y : ZMod m), q = .some _ _ h

end Sys2Proof.Machine
end

