-- ==== Sys2Proof/Certificates/Slice0/Obligations.lean ====
section
/-! DEFINITION. The statements for the provers. Each names the rules it states or rests on; a statement's conclusion about a
command is the core's step on the command in LATCH (10_state.md R41), for every state. -/

open Sys2Proof Sys2Proof.Machine

/-! ## Reset and the whole machine -/

/-- 10_state.md R38, 70_reset_and_hazards.md R211: the state after power-on reset, of a core of any width. Data and point
registers are unwritten; what an unwritten field holds is not stated. -/
def Obligations.ResetState : Prop :=
  ∀ w : Width,
    (∀ i : Fin 16, (State.resetOf w).d[i].written = false) ∧
    (∀ i : Fin 4, (State.resetOf w).p[i].x.written = false ∧ (State.resetOf w).p[i].y.written = false ∧
      (State.resetOf w).p[i].inf.written = false) ∧
    (State.resetOf w).cmd = 0 ∧ (State.resetOf w).busy = false ∧ (State.resetOf w).done = false ∧
    (State.resetOf w).err = false ∧ (State.resetOf w).haz = false ∧ (State.resetOf w).ecode = 0 ∧
    (State.resetOf w).irq = false ∧ (State.resetOf w).ie = false ∧ (State.resetOf w).rounds = 20 ∧
    (State.resetOf w).latch = none ∧ (State.resetOf w).rng.pending = none ∧
    (w.bytes < 256 → (State.resetOf w).slotWord 0x1D = 0x43460100 + w.bytes)

/-- The invariant of Safety.lean holds at reset, of a core of any width. Its clause on host variables and the numbers of
requests rest on logs 10 and 7, and that unwritten fields hold words on log 3, the model's choices. -/
def Obligations.ResetMeetsInvariant : Prop := State.reset.Inv ∧ ∀ w : Width, (State.resetOf w).Inv

/-- Every step of every agent keeps the invariant: ROUNDS is never 0, ECODE holds a code the core writes, the command in
execution is the one in CMD, an RNG request belongs to an unfinished MRPRIME, every word held is a word of W bits
(10_state.md R21, R27, R32, R35, R36, 60_exceptions.md R181). No step changes the width (00_scope.md R5; log 1), and none
changes the observation made at the end of the run (70_reset_and_hazards.md R222). -/
def Obligations.StepKeepsInvariant : Prop :=
  ∀ s t : State, s.Inv → step s = .next t →
    t.Inv ∧ t.width = s.width ∧ (∀ o, s.ended = some o → t.ended = some o)

/-- 60_exceptions.md R200: "the model records a fault that no later step clears". -/
def Obligations.ModelFaultNeverCleared : Prop :=
  ∀ s t : State, s.modelFault = true → step s = .next t → t.modelFault = true

/-- A step is the turn of the agent whose turn is next (10_state.md R42; log 5), the turn being taken from the schedule.
10_state.md R41: when the next turn is the core's, the step is the meaning of the command in LATCH, and nothing else but that,
and the end of the run being noted where the completion is one (70_reset_and_hazards.md R222): with a host that has not executed
HALT it is exactly the meaning; with LATCH empty the core keeps all state (60_exceptions.md R199). And so it is in the state
`withFetchWord` makes of any legal word (logs 5, 12 and 13, the model's choices). -/
def Obligations.StepRunsLatchedCommand : Prop :=
  (∀ s : State, step s = takeTurn (nextTurn s) s.popTurn ∧
    (s.schedule = [] → nextTurn s = (if s.busy then .core else .host) ∧ s.popTurn = s) ∧
    (∀ t r, s.schedule = t :: r → nextTurn s = t ∧ s.popTurn = { s with schedule := r })) ∧
  (∀ s : State, s.latch = none → nextTurn s = .core → step s = .next s.popTurn) ∧
  (∀ (s : State) (l : Latch), s.latch = some l → nextTurn s = .core →
    step s = onNext (exec l.cmd s.popTurn) State.noteEnd) ∧
  (∀ (s : State) (l : Latch), s.latch = some l → nextTurn s = .core → s.host.halted = false →
    step s = exec l.cmd s.popTurn) ∧
  (∀ (s : State) (w : Nat) (i : Instr), decodeTableWord 32 w = some i →
    ∃ l, (s.withFetchWord 32 w).latch = some l ∧ l.cmd = i ∧
      step (s.withFetchWord 32 w) =
        onNext (exec i { s.withFetchWord 32 w with schedule := s.schedule }) State.noteEnd)

/-- 70_reset_and_hazards.md R221, 60_exceptions.md R181: every command in execution takes a step that is a next state; a
completed one has set DONE and reported a code that the core writes. -/
def Obligations.EveryCommandGoesOn : Prop :=
  ∀ (i : Instr) (s : State) (l : Latch), s.latch = some l →
    ∃ t, exec i s = .next t ∧ (t.latch = none → t.done = true ∧ t.ecode ∈ legalCodes)

/-! ## Encoding -/

/-- 30_encoding.md R92, and the words of 95_test_vectors.md 2.1. -/
def Obligations.EncodingExamples : Prop :=
  encodeWord (.addmod 3 1 2 0) = 0x04C48000 ∧
  decode 0x04C48000 = .cmd (.addmod 3 1 2 0) ∧
  (∃ why, decode 0x04C48001 = .illegal why) ∧
  decode 0x00000000 = .cmd .nop ∧
  decode 0x20C40800 = .cmd (.inve 3 1 2) ∧
  decode 0x34C00000 = .cmd (.mrprime 3 0) ∧
  decode 0x44000000 = .cmd (.xgcd 0 0 0) ∧
  decode 0x49800000 = .cmd (.totient 6 0) ∧
  decode 0x60804060 = .cmd (.padd 2 0 1 0 1 true) ∧
  decode 0x64400040 = .cmd (.pdbl 1 0 0 1 false) ∧
  decode 0x68C3C040 = .cmd (.pmul 3 0 15 0 1 false)

/-- Decoding an encoded well-formed command gives it back, every operand field at every value the encoding admits
(30_encoding.md R70, R75, R87), and its word fits a slot of every width (R72). -/
def Obligations.DecodeEncode : Prop :=
  ∀ (i : Instr) (w : Width), i.WellFormed → decode (encodeWord i) = .cmd i ∧ w.Fits (encodeWord i)

/-- A legal word is the encoding of the command it decodes to, and that command is well-formed: each command has one word
(30_encoding.md R70, R75, R87). -/
def Obligations.EncodeDecode : Prop :=
  ∀ (v : Nat) (i : Instr), decode v = .cmd i → encodeWord i = v ∧ i.WellFormed

/-- 30_encoding.md R84: when a value written to CMD is illegal, of a core of any width (a value of 2^32 or more has a bit above
bit 31, which only a word of W > 32 bits has), and what acceptance then does. -/
def Obligations.IllegalWords : Prop :=
  (∀ v : Nat,
    (∃ why, decode v = .illegal why) ↔
      (2 ^ 32 ≤ v ∨ opRow (opOf (BitVec.ofNat 32 v)) = none ∨ rsvOf (BitVec.ofNat 32 v) ≠ 0 ∨
        ∃ mn, opRow (opOf (BitVec.ofNat 32 v)) = some mn ∧
          (¬ MustBeZero mn.form (fieldsOf (BitVec.ofNat 32 v)) ∨
            ¬ PointFieldsLegal mn.form (fieldsOf (BitVec.ofNat 32 v))))) ∧
  (∀ (s : State) (v : Nat) (why : Illegal), s.busy = false → decode v = .illegal why →
    s.slotWrite cmdSlot v = { s with cmd := v, done := true, ecode := 6, err := true })

/-- 30_encoding.md R85: the reserved opcodes are illegal, and only the word 0 is a no-op. -/
def Obligations.ReservedOpcodes : Prop :=
  (∀ w : BitVec 32,
    (opOf w ∈ [0x03#6, 0x06#6, 0x07#6, 0x0B#6, 0x0E#6, 0x0F#6] ∨ (0x13#6 ≤ opOf w ∧ opOf w ≤ 0x17#6) ∨ 0x1B#6 ≤ opOf w) ↔
      decode32 w = .illegal .reservedOpcode) ∧
  (∀ w : BitVec 32, decode32 w = .cmd .nop ↔ w = 0)

/-- 30_encoding.md R75: a word decodes as a command exactly when it meets the mask of a row, and then of one row only. -/
def Obligations.RowsDisjoint : Prop :=
  (∀ w : BitVec 32, (∃ i, decode32 w = .cmd i) ↔ ∃ mn : Mnemonic, w &&& mn.form.mask = matchOf mn.op) ∧
  (∀ (w : BitVec 32) (a b : Mnemonic), w &&& a.form.mask = matchOf a.op → w &&& b.form.mask = matchOf b.op → a = b)

/-! ## Acceptance and completion -/

/-- 10_state.md R40, R35, R23: acceptance of a legal command while BUSY is 0, with the record of a model fault when an operand
field it reads is unwritten. The machine then goes on with the value the field holds (log 4, the model's choice). -/
def Obligations.AcceptLegal : Prop :=
  ∀ (s : State) (v : Nat) (i : Instr), s.busy = false → decode v = .cmd i →
    s.slotWrite cmdSlot v =
      { s with
        cmd := v
        done := false
        modelFault := s.modelFault || !s.operandsWritten i
        latch := some { cmd := i, ops := s.readOperands i, rounds := s.rounds, passed := 0, draw := none } }

/-- 30_encoding.md R75, R76, 10_state.md R23: the operand words each command latches, and the fields whose being unwritten
is a model fault. And 30_encoding.md R71: a field names the data register of its own number, and a legal point field the point
register of its own number. -/
def Obligations.OperandsByForm : Prop :=
  (∀ f : Field, (dIdx f).val = f.toNat ∧ (f < 4 → (pIdx f).val = f.toNat)) ∧
  ∀ (s : State) (fd fa fb fm fc : Field) (g : Bool),
    (∀ i ∈ [Instr.addmod fd fa fb fm, .submod fd fa fb fm, .mulmod fd fa fb fm, .powmod fd fa fb fm],
      (s.readOperands i).a = s.d[dIdx fa].value ∧ (s.readOperands i).b = s.d[dIdx fb].value ∧
      (s.readOperands i).m = s.d[dIdx fm].value ∧
      s.operandsWritten i = (s.d[dIdx fa].written && s.d[dIdx fb].written && s.d[dIdx fm].written)) ∧
    (∀ i ∈ [Instr.inve fd fa fm, .invb fd fa fm, .invf fd fa fm, .mrround fd fa fm],
      (s.readOperands i).a = s.d[dIdx fa].value ∧ (s.readOperands i).m = s.d[dIdx fm].value ∧
      s.operandsWritten i = (s.d[dIdx fa].written && s.d[dIdx fm].written)) ∧
    ((s.readOperands (.mrprime fd fm)).m = s.d[dIdx fm].value ∧
      s.operandsWritten (.mrprime fd fm) = s.d[dIdx fm].written) ∧
    (∀ i ∈ [Instr.gcd fd fa fb, .xgcd fd fa fb],
      (s.readOperands i).a = s.d[dIdx fa].value ∧ (s.readOperands i).b = s.d[dIdx fb].value ∧
      s.operandsWritten i = (s.d[dIdx fa].written && s.d[dIdx fb].written)) ∧
    ((s.readOperands (.totient fd fa)).a = s.d[dIdx fa].value ∧
      s.operandsWritten (.totient fd fa) = s.d[dIdx fa].written) ∧
    ((s.readOperands (.padd fd fa fb fm fc g)).p = s.p[pIdx fa].pt ∧
      (s.readOperands (.padd fd fa fb fm fc g)).q = s.p[pIdx fb].pt ∧
      (s.readOperands (.padd fd fa fb fm fc g)).m = s.d[dIdx fm].value ∧
      (s.readOperands (.padd fd fa fb fm fc g)).c = s.d[dIdx fc].value ∧
      s.operandsWritten (.padd fd fa fb fm fc g) =
        (s.d[dIdx fm].written && s.d[dIdx fc].written && s.p[pIdx fa].ptWritten && s.p[pIdx fb].ptWritten)) ∧
    ((s.readOperands (.pdbl fd fa fm fc g)).p = s.p[pIdx fa].pt ∧
      (s.readOperands (.pdbl fd fa fm fc g)).m = s.d[dIdx fm].value ∧
      (s.readOperands (.pdbl fd fa fm fc g)).c = s.d[dIdx fc].value ∧
      s.operandsWritten (.pdbl fd fa fm fc g) =
        (s.d[dIdx fm].written && s.d[dIdx fc].written && s.p[pIdx fa].ptWritten)) ∧
    ((s.readOperands (.pmul fd fa fb fm fc g)).p = s.p[pIdx fa].pt ∧
      (s.readOperands (.pmul fd fa fb fm fc g)).b = s.d[dIdx fb].value ∧
      (s.readOperands (.pmul fd fa fb fm fc g)).m = s.d[dIdx fm].value ∧
      (s.readOperands (.pmul fd fa fb fm fc g)).c = s.d[dIdx fc].value ∧
      s.operandsWritten (.pmul fd fa fb fm fc g) =
        (s.d[dIdx fb].written && s.d[dIdx fm].written && s.d[dIdx fc].written && s.p[pIdx fa].ptWritten)) ∧
    (s.operandsWritten .nop = true) ∧
    (∀ r : PointReg, r.pt = (if r.inf.value then .infinity else .affine r.x.value r.y.value) ∧
      r.ptWritten = (r.inf.written && (r.inf.value || (r.x.written && r.y.written))))

/-- 10_state.md R43: a destination register may also be an operand register; the result is computed from the operands as they
were at acceptance. Here for ADDMOD with every choice of registers. With an operand register unwritten, that the machine goes
on, with the value the register holds, is the model's choice (log 4; 60_exceptions.md R200 records a model fault). -/
def Obligations.IssueThenCompleteAddmod : Prop :=
  ∀ (s : State) (fd fa fb fm : Field), s.busy = false → s.d[dIdx fm].value ≠ 0 →
    ∃ t, exec (.addmod fd fa fb fm) (s.slotWrite cmdSlot (encodeWord (.addmod fd fa fb fm))) = .next t ∧
      t.d = s.d.set (dIdx fd)
        ⟨word s.width ((s.d[dIdx fa].value + s.d[dIdx fb].value) % s.d[dIdx fm].value : Nat), true⟩ ∧
      t.busy = false ∧ t.done = true ∧ t.ecode = 0

/-- 60_exceptions.md R186: `finish(e)`; a legal command's completion step and an illegal word's acceptance end with it. And
00_scope.md R10: writing a data register and writing a point result, and that each changes nothing else. -/
def Obligations.FinishAndResultWrites : Prop :=
  (∀ (s : State) (e : BitVec 4),
    (s.finish e).busy = false ∧ (s.finish e).done = true ∧ (s.finish e).ecode = e ∧
    ((s.finish e).err = true ↔ s.err = true ∨ e ≠ 0) ∧ (s.finish e).haz = s.haz ∧
    (s.finish e).d = s.d ∧ (s.finish e).p = s.p ∧ (s.finish e).cmd = s.cmd ∧ (s.finish e).ie = s.ie ∧
    (s.finish e).rounds = s.rounds ∧ (s.finish e).rng = s.rng ∧ (s.finish e).modelFault = s.modelFault ∧
    (s.finish e).width = s.width ∧ (s.finish e).host = s.host ∧ (s.finish e).ended = s.ended ∧
    (s.finish e).schedule = s.schedule) ∧
  (∀ (i : Instr) (s t : State), exec i s = .next t → t.latch = none →
    ∃ (u : State) (e : BitVec 4), t = u.finish e ∧ u.haz = s.haz) ∧
  (∀ (s : State) (v : Nat) (why : Illegal), s.busy = false → decode v = .illegal why →
    s.slotWrite 0x19 v = { s with cmd := v, done := false }.finish 6) ∧
  (∀ (s : State) (f g : Field) (v : Nat),
    (s.setData f v).d[dIdx f] = ⟨v, true⟩ ∧ (g ≠ f → (s.setData f v).d[dIdx g] = s.d[dIdx g]) ∧
    s.setData f v = { s with d := (s.setData f v).d }) ∧
  (∀ (s : State) (f : Field) (i : Fin 4) (x y : Nat),
    (s.setPoint f .infinity).p[pIdx f] = ⟨⟨0, true⟩, ⟨0, true⟩, ⟨true, true⟩⟩ ∧
    (s.setPoint f (.affine x y)).p[pIdx f] = ⟨⟨word s.width x, true⟩, ⟨word s.width y, true⟩, ⟨false, true⟩⟩ ∧
    (∀ r, i ≠ pIdx f → (s.setPoint f r).p[i] = s.p[i]) ∧
    (∀ r, s.setPoint f r = { s with p := (s.setPoint f r).p }))

/-- 60_exceptions.md R185: a command that completes with a non-zero code writes none of its result registers. -/
def Obligations.ErrorsArePrecise : Prop :=
  ∀ (i : Instr) (s t : State), exec i s = .next t → t.latch = none → t.ecode ≠ 0 → t.d = s.d ∧ t.p = s.p

/-- 60_exceptions.md R187, R188: a command's step never clears ERR and never changes HAZ, nor does acceptance. -/
def Obligations.StickyStatus : Prop :=
  (∀ (i : Instr) (s t : State), exec i s = .next t → (s.err = true → t.err = true) ∧ t.haz = s.haz) ∧
  (∀ (s : State) (v : Nat), (s.err = true → (s.accept v).err = true) ∧ (s.accept v).haz = s.haz)

/-- The frame of every command that writes data registers or nothing (NOP, ADDMOD, SUBMOD, MULMOD, POWMOD, INVE, INVB, INVF,
MRROUND, MRPRIME, GCD, XGCD, TOTIENT): no data register but its destinations (`dataDests`: none for NOP, FD to FD + 2 for XGCD,
FD for the others), no point register, no control register, and no RNG exchange but MRPRIME's (30_encoding.md R75). A step that
leaves the command in execution (an MRPRIME that waits for the RNG, or asks it again) writes no data register and none of DONE,
ERR and ECODE (10_state.md R41, 20_memory.md R56), and keeps the command, its operand words and ROUNDS as latched
(10_state.md R35, R36). -/
def Obligations.DataCommandFrame : Prop :=
  ∀ (i : Instr) (s t : State), isPointCommand i = false → exec i s = .next t →
    (∀ f, f ∉ dataDests i → t.d[dIdx f] = s.d[dIdx f]) ∧ t.p = s.p ∧ t.cmd = s.cmd ∧ t.haz = s.haz ∧ t.ie = s.ie ∧
    t.rounds = s.rounds ∧ t.width = s.width ∧ t.modelFault = s.modelFault ∧ t.host = s.host ∧ t.ended = s.ended ∧
    t.schedule = s.schedule ∧ (isMrprime i = false → t.rng = s.rng) ∧
    (∀ l', t.latch = some l' →
      t.d = s.d ∧ t.done = s.done ∧ t.err = s.err ∧ t.ecode = s.ecode ∧
      ∃ l, s.latch = some l ∧ l'.cmd = l.cmd ∧ l'.ops = l.ops ∧ l'.rounds = l.rounds)

/-- The frame of the elliptic-curve commands (PADD, PDBL, PMUL): no point register but FD's, no data register, no control
register, no RNG exchange (30_encoding.md R75, 10_state.md R24). -/
def Obligations.PointCommandFrame : Prop :=
  ∀ (i : Instr) (s t : State), isPointCommand i = true → exec i s = .next t →
    (∀ j : Fin 4, j ∉ (pointDests i).map pIdx → t.p[j] = s.p[j]) ∧ t.d = s.d ∧ t.cmd = s.cmd ∧ t.haz = s.haz ∧
    t.ie = s.ie ∧ t.rounds = s.rounds ∧ t.rng = s.rng ∧ t.width = s.width ∧ t.modelFault = s.modelFault ∧
    t.host = s.host ∧ t.ended = s.ended ∧ t.schedule = s.schedule

/-! ## Control registers and slots -/

/-- 10_state.md R28: the places of the STATUS fields. -/
def Obligations.StatusLayout : Prop :=
  ∀ s : State,
    s.slotWord 0x1A = s.statusWord ∧
    s.statusWord.testBit 0 = s.busy ∧ s.statusWord.testBit 1 = s.done ∧ s.statusWord.testBit 2 = s.err ∧
    s.statusWord.testBit 3 = s.haz ∧ (∀ i < 4, s.statusWord.testBit (4 + i) = s.ecode.getLsbD i) ∧
    s.statusWord.testBit 8 = s.irq ∧ (∀ i, 9 ≤ i → s.statusWord.testBit i = false)

/-- 60_exceptions.md R189: the interrupt output. -/
def Obligations.InterruptLevel : Prop :=
  (∀ s : State, s.irq = (s.ie && s.done) ∧ s.statusWord.testBit 8 = s.irq) ∧
  (∀ (s : State) (e : BitVec 4), s.ie = true → (s.finish e).irq = true) ∧
  (∀ (s : State) (v : Nat), s.done = true → v.testBit 0 = true → v.testBit 1 = false → v.testBit 3 = false →
    (s.slotWrite 0x1B v).irq = true)

/-- 10_state.md R31: a write to CTRL, whether or not BUSY is 1, and a read of it. -/
def Obligations.CtrlWrite : Prop :=
  ∀ (s : State) (v : Nat),
    (v.testBit 3 = true → s.slotWrite 0x1B v = s.softReset) ∧
    (v.testBit 3 = false → s.slotWrite 0x1B v =
      { s with
        ie := v.testBit 0
        done := if v.testBit 1 then false else s.done
        err := if v.testBit 2 then false else s.err
        haz := if v.testBit 2 then false else s.haz }) ∧
    s.slotWord 0x1B = (if s.ie then 1 else 0)

/-- 70_reset_and_hazards.md R212: soft reset, in every field; a pending RNG request is withdrawn and its number remembered, so
that its answer can be told from a later one's (R213). The numbers of requests, and with them the clauses on `rng.asked` and
`rng.withdrawn`, are the model's (log 7, DEDUCED). -/
def Obligations.SoftResetRule : Prop :=
  ∀ s : State,
    s.softReset =
      { s with
        latch := none, cmd := 0, done := false, err := false, haz := false, ecode := 0, ie := false, rounds := 20
        rng := s.softReset.rng } ∧
    s.softReset.busy = false ∧ s.softReset.rng.pending = none ∧ s.softReset.rng.asked = s.rng.asked ∧
    (∀ id, id ∈ s.softReset.rng.withdrawn ↔ id ∈ s.rng.withdrawn ∨ s.rng.pending = some id)

/-- 70_reset_and_hazards.md R211, 10_state.md R38: power-on reset as a step of the platform gives the core its reset state.
The values 0 of the unwritten fields are the model's choice (log 3: R38 says unspecified), and so it is that what is not the
core's stays (log 11) and that the withdrawn request is remembered by its number (logs 7 and 8). -/
def Obligations.PowerOnRule : Prop :=
  ∀ s : State,
    takeTurn .powerOn s = .next
      { State.resetOf s.width with
        rng := s.softReset.rng
        modelFault := s.modelFault
        host := s.host
        ended := s.ended
        schedule := s.schedule }

/-- 10_state.md R32: ROUNDS is write-any-read-legal, 20 at reset, and latched at acceptance. -/
def Obligations.RoundsWrite : Prop :=
  ∀ (s : State) (v : Nat),
    (s.busy = false → v % 256 = 0 → s.slotWrite 0x1C v = s) ∧
    (s.busy = false → v % 256 ≠ 0 → s.slotWrite 0x1C v = { s with rounds := BitVec.ofNat 8 v }) ∧
    (s.busy = true → s.slotWrite 0x1C v = { s with haz := true }) ∧
    s.slotWord 0x1C = s.rounds.toNat ∧
    (∀ w, (State.resetOf w).rounds = 20) ∧
    (∀ i, s.busy = false → decode v = .cmd i →
      ∃ l, (s.slotWrite 0x19 v).latch = some l ∧ l.rounds = s.rounds)

/-- 10_state.md R33, R34: the ID register, of a core whose `W/8` fits its field (log 1 says what the model does beyond), and the
reserved slots. -/
def Obligations.IdAndReservedSlots : Prop :=
  ∀ (s : State) (v : Nat),
    (s.width.bytes < 256 → s.slotWord 0x1D = 0x43460100 + s.width.bytes) ∧ s.slotWord 0x1E = 0 ∧ s.slotWord 0x1F = 0 ∧
    (s.busy = false → s.slotWrite 0x1D v = s ∧ s.slotWrite 0x1E v = s ∧ s.slotWrite 0x1F v = s) ∧
    (s.busy = true → s.slotWrite 0x1E v = { s with haz := true } ∧ s.slotWrite 0x1F v = { s with haz := true })

/-- 20_memory.md R55: a write while BUSY is 1. -/
def Obligations.BusyWrite : Prop :=
  ∀ (s : State) (k : Slot) (v : Nat), s.busy = true →
    (k ≠ 0x1B → s.slotWrite k v = { s with haz := true }) ∧ (k = 0x1B → s.slotWrite k v = s.writeCtrl v)

/-- 20_memory.md R53, R51: while BUSY is 0 a write to a data or coordinate slot is read back and marks the field written, a
write to PINF stores bits 3:0 and marks all four bits written, and a write to STATUS does nothing. And in every state what each
slot reads: the data and point registers (R51), CMD the last word stored (10_state.md R27), PINF with PINF[i] in bit i and 0
above (10_state.md R24). -/
def Obligations.WriteThenRead : Prop :=
  (∀ (s : State) (v : Nat), s.busy = false →
    (∀ k : Slot, k < 0x18 → (s.slotWrite k v).slotWord k = v ∧ (s.slotWrite k v).slotWritten k = true) ∧
    (s.slotWrite 0x18 v).slotWord 0x18 = v % 16 ∧ (s.slotWrite 0x18 v).slotWritten 0x18 = true ∧
    s.slotWrite 0x1A v = s ∧ (s.slotWrite 0x19 v).slotWord 0x19 = v) ∧
  (∀ s : State,
    (∀ i : Fin 16, s.slotWord (dataSlot i) = s.d[i].value ∧ s.slotWritten (dataSlot i) = s.d[i].written) ∧
    (∀ i : Fin 4, s.slotWord (pxSlot i) = s.p[i].x.value ∧ s.slotWritten (pxSlot i) = s.p[i].x.written ∧
      s.slotWord (pySlot i) = s.p[i].y.value ∧ s.slotWritten (pySlot i) = s.p[i].y.written) ∧
    s.slotWord 0x19 = s.cmd ∧
    (∀ i : Fin 4, (s.slotWord 0x18).testBit i = s.p[i].inf.value) ∧ (∀ i, 4 ≤ i → (s.slotWord 0x18).testBit i = false) ∧
    (s.slotWritten 0x18 = true ↔ ∀ i : Fin 4, s.p[i].inf.written = true))

/-- 20_memory.md R60, R53: a write to a slot other than CMD and CTRL, while BUSY is 0, changes only that slot: no other slot, and
nothing that is no slot (LATCH, the RNG exchange, the record of model faults (60_exceptions.md R200), the host, the noted end of
the run, the schedule, the width). -/
def Obligations.SlotWriteFrame : Prop :=
  ∀ (s : State) (k j : Slot) (v : Nat), s.busy = false → k ≠ 0x19 → k ≠ 0x1B → j ≠ k →
    (s.slotWrite k v).slotWord j = s.slotWord j ∧ (s.slotWrite k v).slotWritten j = s.slotWritten j ∧
    (s.slotWrite k v).latch = s.latch ∧ (s.slotWrite k v).rng = s.rng ∧
    (s.slotWrite k v).modelFault = s.modelFault ∧ (s.slotWrite k v).host = s.host ∧ (s.slotWrite k v).ended = s.ended ∧
    (s.slotWrite k v).schedule = s.schedule ∧ (s.slotWrite k v).width = s.width

/-- 20_memory.md R52, R60, 10_state.md R23: a read changes no slot; it gives the host the slot's content and records a model
fault when a field read is unwritten. That the machine then goes on is the model's choice (log 4), and so is how host variables
are kept (log 10): the variable read back is claimed where they are kept so, which the invariant says they are. -/
def Obligations.SlotReadEffect : Prop :=
  ∀ (s : State) (h : Nat) (k j : Slot),
    s.hostRead h k =
      { s with
        modelFault := s.modelFault || !s.slotWritten k
        host := { s.host with vars := setVar s.host.vars h (s.slotWord k) } } ∧
    (s.hostRead h k).slotWord j = s.slotWord j ∧
    (VarsOk s.host.vars → getVar (s.hostRead h k).host.vars h = s.slotWord k)

/-- 20_memory.md R57, R58: what a platform bus access reaches. The whole slot at its own address is read and written as the slot
is (read where the words held are words of W bits, which the invariant says they are); any other access that touches the block
is refused. Byte j of a slot carries its bits 8j+7:8j. That accesses are statements of the script, and what is stored of a value
that is no word, are the model's choices (log 9). -/
def Obligations.BusMapping : Prop :=
  (∀ (s : State) (k : Slot) (h : Nat), s.WordsFit →
    s.memRead h (Config.base + k.toNat * s.width.bytes) s.width.bytes = .next (s.hostRead h k).advance) ∧
  (∀ (s : State) (k : Slot) (v : Int),
    s.memWrite (Config.base + k.toNat * s.width.bytes) s.width.bytes v =
      .next (s.slotWrite k (word s.width v)).advance) ∧
  (∀ (s : State) (addr : Int) (n h : Nat) (v : Int), 0 < n → addr < Config.base + 32 * s.width.bytes →
    Config.base < addr + n →
    (∀ k : Slot, ¬ (n = s.width.bytes ∧ addr = Config.base + k.toNat * s.width.bytes)) →
    s.memRead h addr n = .refused .partialBusAccess ∧ s.memWrite addr n v = .refused .partialBusAccess) ∧
  (∀ (w : Width) (v : Nat), w.Fits v → (wordBytes w v).length = w.bytes ∧ ofBytes (wordBytes w v) = v ∧
    ∀ j, j < w.bytes → ∃ b, (wordBytes w v)[j]? = some b ∧ ∀ i < 8, b.getLsbD i = v.testBit (8 * j + i))

/-! ## The host and the RNG -/

/-- 30_encoding.md R90: the host's step on each statement of its script (log 10 where R90 is silent). And
70_reset_and_hazards.md R222: a HALT while BUSY is 0, or a completion after it (StepRunsLatchedCommand), notes the end of the
run, once, with the contents of every slot, nothing for one with an unwritten field, and the record of model faults. A host that
has executed HALT, or has no statement left, does nothing. The two bus accesses are statements by the model's choice (log 9); what
they do is BusMapping. -/
def Obligations.HostStatements : Prop :=
  (∀ s : State, s.host.halted = true ∨ s.host.script[s.host.pos]? = none → takeTurn .host s = .next s) ∧
  (∀ (s : State) (lab : Option Label) (st : Stmt), s.host.halted = false → s.host.script[s.host.pos]? = some ⟨lab, st⟩ →
    (∀ k e, st = .wr k e → takeTurn .host s = .next (s.slotWrite k (word s.width (e.eval s.host.vars))).advance) ∧
    (∀ h k, st = .rd h k → takeTurn .host s = .next (s.hostRead h k).advance) ∧
    (∀ i, st = .issue i → takeTurn .host s = .next (s.slotWrite 0x19 (encodeWord i)).advance) ∧
    (∀ h e, st = .set h e → takeTurn .host s = .next (s.setHostVar h (e.eval s.host.vars)).advance) ∧
    (∀ a b l n, st = .beq a b l → labelPos s.host.script l = some n →
      takeTurn .host s = .next (if a.eval s.host.vars = b.eval s.host.vars
        then { s with host := { s.host with pos := n } } else s.advance)) ∧
    (∀ a b l n, st = .bne a b l → labelPos s.host.script l = some n →
      takeTurn .host s = .next (if a.eval s.host.vars = b.eval s.host.vars
        then s.advance else { s with host := { s.host with pos := n } })) ∧
    (∀ a b l, st = .beq a b l → labelPos s.host.script l = none →
      takeTurn .host s = if a.eval s.host.vars = b.eval s.host.vars then .refused .unknownLabel else .next s.advance) ∧
    (∀ a b l, st = .bne a b l → labelPos s.host.script l = none →
      takeTurn .host s = if a.eval s.host.vars = b.eval s.host.vars then .next s.advance else .refused .unknownLabel) ∧
    (∀ h a n, st = .memRead h a n → takeTurn .host s = s.memRead h (a.eval s.host.vars) n) ∧
    (∀ a n e, st = .memWrite a n e →
      takeTurn .host s = s.memWrite (a.eval s.host.vars) n (e.eval s.host.vars)) ∧
    (st = .halt → takeTurn .host s = .next (State.noteEnd { s with host := { s.host with halted := true } }))) ∧
  (∀ s : State,
    (s.host.halted = true → s.busy = false → s.ended = none → s.noteEnd = { s with ended := some s.observation }) ∧
    (s.host.halted = false ∨ s.busy = true ∨ s.ended ≠ none → s.noteEnd = s)) ∧
  (∀ s : State, s.observation.modelFault = s.modelFault ∧ s.observation.slots.length = 32 ∧
    ∀ k : Slot, s.observation.slots[k.toNat]? = some (if s.slotWritten k then some (s.slotWord k) else none))

/-- 10_state.md R36, 70_reset_and_hazards.md R213, R223: an answer reaches the command in execution exactly when its request
is pending; a withdrawn request's answer is discarded, changing nothing but that the request is used up; an answer to no request
is not modelled. The numbers of requests and that a withdrawn one is used up are the model's (logs 7 and 8). -/
def Obligations.RngAnswers : Prop :=
  ∀ (s : State) (id n : Nat) (l : Latch),
    (s.rng.pending = some id → s.latch = some l →
      takeTurn (.rng id n) s =
        .next { s with
          latch := some { l with draw := some (word s.width n) }
          rng := { s.rng with pending := none } }) ∧
    (s.rng.pending ≠ some id → id ∈ s.rng.withdrawn →
      takeTurn (.rng id n) s = .next { s with rng := { s.rng with withdrawn := s.rng.withdrawn.erase id } }) ∧
    (s.rng.pending ≠ some id → id ∉ s.rng.withdrawn → takeTurn (.rng id n) s = .refused .answerWithoutRequest)

/-! ## Commands: results -/

/-- 46_control.md R170: NOP writes no register and completes with code 0. -/
def Obligations.NopResult : Prop :=
  ∀ (s : State) (l : Latch), s.latch = some l →
    exec .nop s = .next { s with latch := none, done := true, ecode := 0 }

/-- 40_safe_modular_arithmetic.md R101: ADDMOD. -/
def Obligations.AddmodResult : Prop :=
  ∀ (s : State) (l : Latch) (fd fa fb fm : Field), s.latch = some l →
    (l.m = 0 → exec (.addmod fd fa fb fm) s = .next (s.finish 2)) ∧
    (l.m ≠ 0 → exec (.addmod fd fa fb fm) s = .next ((s.setData fd (word s.width ((l.a + l.b) % l.m : Nat))).finish 0))

/-- 40_safe_modular_arithmetic.md R102: SUBMOD, with the floor modulo of 00_scope.md R9. -/
def Obligations.SubmodResult : Prop :=
  ∀ (s : State) (l : Latch) (fd fa fb fm : Field), s.latch = some l →
    (l.m = 0 → exec (.submod fd fa fb fm) s = .next (s.finish 2)) ∧
    (l.m ≠ 0 → exec (.submod fd fa fb fm) s = .next ((s.setData fd (word s.width (((l.a : Int) - l.b) % l.m))).finish 0))

/-- 40_safe_modular_arithmetic.md R103, R104: on reduced operands the adder and the subtractor correct once, what ADDMOD and
SUBMOD then write, and `SubModF(0, b, m)` is the additive inverse of b. -/
def Obligations.ModularLaws : Prop :=
  (∀ (s : State) (l : Latch) (fd fa fb fm : Field), s.latch = some l → l.a < l.m → l.b < l.m →
    exec (.addmod fd fa fb fm) s = .next ((s.setData fd (word s.width ((l.a + l.b) % l.m : Nat))).finish 0) ∧
    exec (.submod fd fa fb fm) s =
      .next ((s.setData fd (word s.width ((((l.a : Int) - l.b) % l.m + l.m) % l.m))).finish 0)) ∧
  (∀ a b m : Nat, a < m → b < m →
    addModF a b m = (a + b) % m ∧ (subModF a b m : Int) = (((a : Int) - b) % m + m) % m ∧
    addModF a b m = (if a + b < m then a + b else a + b - m) ∧
    subModF a b m = (if b ≤ a then a - b else a + m - b)) ∧
  (∀ b m : Nat, 0 < m → addModF b (subModF 0 b m) m = 0)

/-- 41_modular_exponentiation.md R112, R111: MULMOD by repeated doubling gives the exact product's residue. -/
def Obligations.MulmodResult : Prop :=
  ∀ (s : State) (l : Latch) (fd fa fb fm : Field), s.latch = some l →
    (l.m = 0 → exec (.mulmod fd fa fb fm) s = .next (s.finish 2)) ∧
    (l.m ≠ 0 → exec (.mulmod fd fa fb fm) s = .next ((s.setData fd (word s.width (l.a * l.b % l.m : Nat))).finish 0))

/-- 41_modular_exponentiation.md R113, R111: POWMOD by repeated squaring gives the exact power's residue, with a^0 = 1. -/
def Obligations.PowmodResult : Prop :=
  ∀ (s : State) (l : Latch) (fd fa fb fm : Field), s.latch = some l →
    (l.m = 0 → exec (.powmod fd fa fb fm) s = .next (s.finish 2)) ∧
    (l.m ≠ 0 → exec (.powmod fd fa fb fm) s = .next ((s.setData fd (word s.width (l.a ^ l.b % l.m : Nat))).finish 0))

/-- 42_modular_inverse.md R120: INVE gives the inverse in [0, n), or NOT_INVERTIBLE, or INVALID_MODULUS. -/
def Obligations.InveResult : Prop :=
  ∀ (s : State) (l : Latch) (fd fa fm : Field), s.latch = some l →
    (l.m = 0 → exec (.inve fd fa fm) s = .next (s.finish 2)) ∧
    (l.m ≠ 0 → Nat.gcd l.m l.a ≠ 1 → exec (.inve fd fa fm) s = .next (s.finish 1)) ∧
    (l.m ≠ 0 → Nat.gcd l.m l.a = 1 →
      ∃ r, r < l.m ∧ l.a * r % l.m = 1 % l.m ∧ exec (.inve fd fa fm) s = .next ((s.setData fd (word s.width r)).finish 0))

/-- 42_modular_inverse.md R122, R121: INVB. -/
def Obligations.InvbResult : Prop :=
  ∀ (s : State) (l : Latch) (fd fa fm : Field), s.latch = some l →
    (l.m = 0 → exec (.invb fd fa fm) s = .next (s.finish 2)) ∧
    (l.m ≠ 0 → (l.m < 3 ∨ l.m % 2 = 0 ∨ l.a < 1 ∨ l.a > l.m - 1) → exec (.invb fd fa fm) s = .next (s.finish 5)) ∧
    (3 ≤ l.m → l.m % 2 = 1 → 1 ≤ l.a → l.a ≤ l.m - 1 → Nat.gcd l.a l.m ≠ 1 →
      exec (.invb fd fa fm) s = .next (s.finish 1)) ∧
    (3 ≤ l.m → l.m % 2 = 1 → 1 ≤ l.a → l.a ≤ l.m - 1 → Nat.gcd l.a l.m = 1 →
      ∃ r, r < l.m ∧ l.a * r % l.m = 1 ∧ exec (.invb fd fa fm) s = .next ((s.setData fd (word s.width r)).finish 0))

/-- 42_modular_inverse.md R123: INVF, which does not test primality. -/
def Obligations.InvfResult : Prop :=
  ∀ (s : State) (l : Latch) (fd fa fm : Field), s.latch = some l →
    (l.m = 0 → exec (.invf fd fa fm) s = .next (s.finish 2)) ∧
    (l.m = 1 → exec (.invf fd fa fm) s = .next (s.finish 5)) ∧
    (2 ≤ l.m → l.a % l.m = 0 → exec (.invf fd fa fm) s = .next (s.finish 1)) ∧
    (2 ≤ l.m → l.a % l.m ≠ 0 →
      exec (.invf fd fa fm) s = .next ((s.setData fd (word s.width (l.a ^ (l.m - 2) % l.m : Nat))).finish 0))

/-- 42_modular_inverse.md R124: for every prime n > 2 and a in [1, n-1] the three inverses complete without error and write
the same value, the inverse in [0, n). -/
def Obligations.InversesAgree : Prop :=
  ∀ (s : State) (l : Latch) (fd fa fm : Field), s.latch = some l → l.m.Prime → 2 < l.m → 1 ≤ l.a → l.a ≤ l.m - 1 →
    ∃ r, r < l.m ∧ l.a * r % l.m = 1 ∧
      exec (.inve fd fa fm) s = .next ((s.setData fd (word s.width r)).finish 0) ∧
      exec (.invb fd fa fm) s = .next ((s.setData fd (word s.width r)).finish 0) ∧
      exec (.invf fd fa fm) s = .next ((s.setData fd (word s.width r)).finish 0)

/-- 43_primality.md R131, R130: MRROUND writes 1 exactly when, for n - 1 = 2^k * d with d odd, a^d is 1 or some a^(2^j * d) with
j < k is n - 1 (mod n). -/
def Obligations.MrroundResult : Prop :=
  ∀ (s : State) (l : Latch) (fd fa fm : Field), s.latch = some l →
    (l.m = 0 → exec (.mrround fd fa fm) s = .next (s.finish 2)) ∧
    (l.m ≠ 0 → (l.m < 3 ∨ l.m % 2 = 0) → exec (.mrround fd fa fm) s = .next (s.finish 5)) ∧
    (∀ k d : Nat, 3 ≤ l.m → l.m - 1 = 2 ^ k * d → d % 2 = 1 → k ≠ 0 →
      (l.a ^ d % l.m = 1 ∨ (∃ j < k, l.a ^ (2 ^ j * d) % l.m = l.m - 1)) →
      exec (.mrround fd fa fm) s = .next ((s.setData fd 1).finish 0)) ∧
    (∀ k d : Nat, 3 ≤ l.m → l.m - 1 = 2 ^ k * d → d % 2 = 1 → k ≠ 0 →
      ¬ (l.a ^ d % l.m = 1 ∨ (∃ j < k, l.a ^ (2 ^ j * d) % l.m = l.m - 1)) →
      exec (.mrround fd fa fm) s = .next ((s.setData fd 0).finish 0))

/-- 43_primality.md R132: the values of n that MRPRIME settles with no RNG request. -/
def Obligations.MrprimeSettled : Prop :=
  ∀ (s : State) (l : Latch) (fd fm : Field), s.latch = some l →
    (l.m = 2 → exec (.mrprime fd fm) s = .next ((s.setData fd 1).finish 0)) ∧
    (l.m ≠ 2 → (l.m < 2 ∨ l.m % 2 = 0) → exec (.mrprime fd fm) s = .next ((s.setData fd 0).finish 0))

/-- 43_primality.md R132, 10_state.md R36: on an odd n of 3 or more the core asks for a witness, and until the RNG answers it
does nothing. -/
def Obligations.MrprimeAsks : Prop :=
  ∀ (s : State) (l : Latch) (fd fm : Field), s.latch = some l → 3 ≤ l.m → l.m % 2 = 1 → l.draw = none →
    l.passed < l.rounds.toNat →
    (s.rng.pending = none → exec (.mrprime fd fm) s =
      .next { s with rng := { s.rng with asked := s.rng.asked + 1, pending := some s.rng.asked } }) ∧
    (∀ id, s.rng.pending = some id → exec (.mrprime fd fm) s = .next s)

/-- 43_primality.md R132, R133: a whole MRPRIME on an odd n of 3 or more, for any answers r of the RNG, one per round: it runs
rounds on the witnesses 1 + (r mod (n - 2)) until one fails, writes 1 when none does and 0 otherwise, and makes one request per
round run. That the core's part is cut into steps at its draws, which `serve` runs in turn with the answers, is the model's
reading (log 7, DEDUCED). -/
def Obligations.MrprimeRun : Prop :=
  ∀ (s : State) (l : Latch) (fd fm : Field) (answers : List Nat),
    s.latch = some l → 3 ≤ l.m → l.m % 2 = 1 → l.draw = none → l.passed = 0 → s.rng.pending = none →
    answers.length = l.rounds.toNat →
    ∃ t, serve (.mrprime fd fm) answers s = .next t ∧ t.latch = none ∧ t.done = true ∧ t.ecode = 0 ∧
      t.d = s.d.set (dIdx fd)
        ⟨if (∀ r ∈ answers, mrRoundF (1 + word s.width r % (l.m - 2)) l.m = 1) then 1 else 0, true⟩ ∧
      t.rng.asked = s.rng.asked +
        min l.rounds.toNat
          ((answers.takeWhile (fun r => mrRoundF (1 + word s.width r % (l.m - 2)) l.m == 1)).length + 1)

/-- 43_primality.md R134, first case: for a prime n >= 3 the result is 1 whatever the RNG answers, and every round is
run. `serve` rests on the model's reading of MRPRIME's steps (log 7, DEDUCED). -/
def Obligations.MrprimeOnPrimes : Prop :=
  ∀ (s : State) (l : Latch) (fd fm : Field) (answers : List Nat),
    s.latch = some l → l.m.Prime → 3 ≤ l.m → l.draw = none → l.passed = 0 → s.rng.pending = none →
    answers.length = l.rounds.toNat →
    ∃ t, serve (.mrprime fd fm) answers s = .next t ∧ t.latch = none ∧ t.ecode = 0 ∧
      t.d = s.d.set (dIdx fd) ⟨1, true⟩ ∧ t.rng.asked = s.rng.asked + l.rounds.toNat

/-- 44_number_theory.md R143, R140: GCD gives the greatest common divisor. -/
def Obligations.GcdResult : Prop :=
  ∀ (s : State) (l : Latch) (fd fa fb : Field), s.latch = some l →
    exec (.gcd fd fa fb) s = .next ((s.setData fd (word s.width (Nat.gcd l.a l.b : Nat))).finish 0)

/-- 44_number_theory.md R144, R141: XGCD writes the g, x, y of the recursion of R141, for which a*x + b*y = g = gcd(a, b). For
words a and b (which the invariant says operands are) OVERFLOW is never reached, and x and y are read back with sint. -/
def Obligations.XgcdResult : Prop :=
  ∀ (s : State) (l : Latch) (fd fa fb : Field), s.latch = some l → l.a < s.width.span → l.b < s.width.span →
    ∃ x y : Int, ExtendedGcd l.a l.b (Nat.gcd l.a l.b) x y ∧ (l.a : Int) * x + l.b * y = Nat.gcd l.a l.b ∧
      -(2 : Int) ^ (s.width.bits - 1) < x ∧ x < 2 ^ (s.width.bits - 1) ∧
      -(2 : Int) ^ (s.width.bits - 1) < y ∧ y < 2 ^ (s.width.bits - 1) ∧
      sint s.width (word s.width x) = x ∧ sint s.width (word s.width y) = y ∧
      exec (.xgcd fd fa fb) s =
        .next ((((s.setData fd (word s.width (Nat.gcd l.a l.b : Nat))).setData (fd + 1) (word s.width x)).setData (fd + 2)
          (word s.width y)).finish 0)

/-- 44_number_theory.md R145, R142: TOTIENT gives Euler's totient for n >= 1. -/
def Obligations.TotientResult : Prop :=
  ∀ (s : State) (l : Latch) (fd fa : Field), s.latch = some l →
    (l.a = 0 → exec (.totient fd fa) s = .next (s.finish 5)) ∧
    (1 ≤ l.a → exec (.totient fd fa) s = .next ((s.setData fd (word s.width (Nat.totient l.a : Nat))).finish 0))

/-! ## Commands: elliptic curves -/

/-- 45_elliptic_curve.md R155: PADD's errors that come before any formula, and in default mode the sums with the identity. -/
def Obligations.PaddIdentity : Prop :=
  ∀ (s : State) (l : Latch) (fd fa fb fm fc : Field) (g : Bool), s.latch = some l →
    (l.m = 0 → exec (.padd fd fa fb fm fc g) s = .next (s.finish 2)) ∧
    (l.m ≠ 0 → g = true → (l.p = .infinity ∨ l.q = .infinity) → exec (.padd fd fa fb fm fc g) s = .next (s.finish 5)) ∧
    (l.m ≠ 0 → g = false → l.p = .infinity → l.q = .infinity →
      exec (.padd fd fa fb fm fc g) s = .next ((s.setPoint fd .infinity).finish 0)) ∧
    (∀ x y, l.m ≠ 0 → g = false → l.p = .infinity → l.q = .affine x y →
      exec (.padd fd fa fb fm fc g) s = .next ((s.setPoint fd (.affine (x % l.m) (y % l.m))).finish 0)) ∧
    (∀ x y, l.m ≠ 0 → g = false → l.p = .affine x y → l.q = .infinity →
      exec (.padd fd fa fb fm fc g) s = .next ((s.setPoint fd (.affine (x % l.m) (y % l.m))).finish 0))

/-- 45_elliptic_curve.md R153, R154: PADD's chord case, in both modes: the slope is dy times an inverse of dx. -/
def Obligations.PaddChord : Prop :=
  ∀ (s : State) (l : Latch) (fd fa fb fm fc : Field) (g : Bool) (px py qx qy : Nat) (dx dy : Int), s.latch = some l →
    l.m ≠ 0 → l.p = .affine px py → l.q = .affine qx qy → dx = ((qx : Int) - px) % l.m → dy = ((qy : Int) - py) % l.m →
    dx ≠ 0 →
    (Int.gcd dx l.m ≠ 1 → exec (.padd fd fa fb fm fc g) s = .next (s.finish 1)) ∧
    (Int.gcd dx l.m = 1 →
      ∃ i sl rx ry : Int, dx * i % l.m = 1 % l.m ∧ sl = dy * i % l.m ∧ rx = (sl * sl - px - qx) % l.m ∧
        ry = (sl * (px - rx) - py) % l.m ∧
        exec (.padd fd fa fb fm fc g) s = .next ((s.setPoint fd (.affine rx.toNat ry.toNat)).finish 0))

/-- 45_elliptic_curve.md R153, R154: PADD on points equal mod m (the tangent case, in both modes) and in the degenerate cases:
a vertical tangent and Q = -P give O by default and Q reduced in legacy mode. -/
def Obligations.PaddTangentAndDegenerate : Prop :=
  ∀ (s : State) (l : Latch) (fd fa fb fm fc : Field) (g : Bool) (px py qx qy : Nat) (den : Int), s.latch = some l →
    l.m ≠ 0 → l.p = .affine px py → l.q = .affine qx qy → ((qx : Int) - px) % l.m = 0 → den = (2 * py : Int) % l.m →
    (((qy : Int) - py) % l.m = 0 → den ≠ 0 → Int.gcd den l.m ≠ 1 →
      exec (.padd fd fa fb fm fc g) s = .next (s.finish 1)) ∧
    (((qy : Int) - py) % l.m = 0 → den ≠ 0 → Int.gcd den l.m = 1 →
      ∃ i sl rx ry : Int, den * i % l.m = 1 % l.m ∧ sl = (3 * px * px + l.c) * i % l.m ∧ rx = (sl * sl - px - qx) % l.m ∧
        ry = (sl * (px - rx) - py) % l.m ∧
        exec (.padd fd fa fb fm fc g) s = .next ((s.setPoint fd (.affine rx.toNat ry.toNat)).finish 0)) ∧
    ((((qy : Int) - py) % l.m ≠ 0 ∨ den = 0) → g = false →
      exec (.padd fd fa fb fm fc g) s = .next ((s.setPoint fd .infinity).finish 0)) ∧
    ((((qy : Int) - py) % l.m ≠ 0 ∨ den = 0) → g = true →
      exec (.padd fd fa fb fm fc g) s = .next ((s.setPoint fd (.affine (qx % l.m) (qy % l.m))).finish 0))

/-- 45_elliptic_curve.md R156, R153, R154: PDBL. For affine P the tangent branch is always taken. -/
def Obligations.PdblResult : Prop :=
  ∀ (s : State) (l : Latch) (fd fa fm fc : Field) (g : Bool), s.latch = some l →
    (l.m = 0 → exec (.pdbl fd fa fm fc g) s = .next (s.finish 2)) ∧
    (l.m ≠ 0 → l.p = .infinity → g = true → exec (.pdbl fd fa fm fc g) s = .next (s.finish 5)) ∧
    (l.m ≠ 0 → l.p = .infinity → g = false →
      exec (.pdbl fd fa fm fc g) s = .next ((s.setPoint fd .infinity).finish 0)) ∧
    (∀ px py : Nat, l.m ≠ 0 → l.p = .affine px py → 2 * py % l.m = 0 → g = false →
      exec (.pdbl fd fa fm fc g) s = .next ((s.setPoint fd .infinity).finish 0)) ∧
    (∀ px py : Nat, l.m ≠ 0 → l.p = .affine px py → 2 * py % l.m = 0 → g = true →
      exec (.pdbl fd fa fm fc g) s = .next ((s.setPoint fd (.affine (px % l.m) (py % l.m))).finish 0)) ∧
    (∀ px py : Nat, l.m ≠ 0 → l.p = .affine px py → 2 * py % l.m ≠ 0 → Nat.gcd (2 * py % l.m) l.m ≠ 1 →
      exec (.pdbl fd fa fm fc g) s = .next (s.finish 1)) ∧
    (∀ px py : Nat, l.m ≠ 0 → l.p = .affine px py → 2 * py % l.m ≠ 0 → Nat.gcd (2 * py % l.m) l.m = 1 →
      ∃ i sl rx ry : Int, 2 * py * i % l.m = 1 % l.m ∧ sl = (3 * px * px + l.c) * i % l.m ∧
        rx = (sl * sl - px - px) % l.m ∧ ry = (sl * (px - rx) - py) % l.m ∧
        exec (.pdbl fd fa fm fc g) s = .next ((s.setPoint fd (.affine rx.toNat ry.toNat)).finish 0))

/-- PADD in default mode does not depend on the order of its operands, for every modulus and every pair of points
(45_elliptic_curve.md R153, R161). -/
def Obligations.PaddCommutes : Prop :=
  ∀ (s : State) (l : Latch) (fd fa fb fm fc : Field), s.latch = some l →
    ∃ t u, exec (.padd fd fa fb fm fc false) s = .next t ∧
      exec (.padd fd fb fa fm fc false)
        { s with latch := some { l with ops := { l.ops with p := l.ops.q, q := l.ops.p } } } = .next u ∧ t = u

/-- 45_elliptic_curve.md R159, R157, R158: PMUL in every case and both modes. Its errors that come before any formula; its
results where no addition is made; and for every other scalar, every modulus and every point, on a curve or not, what the
double-and-add of R157 from O over the bits of k (default) and of R158 from P over the bits of k - 1 (legacy) comes to with the
mode's point addition (R153, R154): the point, reduced, or the code of the first addition that fails, the last doubling's
too. -/
def Obligations.PmulBaseCases : Prop :=
  ∀ (s : State) (l : Latch) (fd fa fb fm fc : Field) (g : Bool), s.latch = some l →
    (l.m = 0 → exec (.pmul fd fa fb fm fc g) s = .next (s.finish 2)) ∧
    (l.m ≠ 0 → g = true → l.p = .infinity → exec (.pmul fd fa fb fm fc g) s = .next (s.finish 5)) ∧
    (∀ x y, l.m ≠ 0 → g = true → l.p = .affine x y → l.b = 0 →
      exec (.pmul fd fa fb fm fc g) s = .next (s.finish 4)) ∧
    (∀ x y, l.m ≠ 0 → g = true → l.p = .affine x y → l.b = 1 →
      exec (.pmul fd fa fb fm fc g) s = .next ((s.setPoint fd (.affine (x % l.m) (y % l.m))).finish 0)) ∧
    (l.m ≠ 0 → g = false → (l.b = 0 ∨ l.p = .infinity) →
      exec (.pmul fd fa fb fm fc g) s = .next ((s.setPoint fd .infinity).finish 0)) ∧
    (l.m ≠ 0 → g = false →
      ∃ r, DoubleAndAdd (fun p q => pointAddF p q l.c l.m) .infinity l.p l.b r ∧
        exec (.pmul fd fa fb fm fc g) s =
          .next (match r with
            | .error c => s.finish c.code
            | .ok R => (s.setPoint fd (normPt l.m R)).finish 0)) ∧
    (∀ x y, l.m ≠ 0 → g = true → l.p = .affine x y → l.b ≠ 0 →
      ∃ r, DoubleAndAdd (fun p q => pointAddLF p q l.c l.m) l.p l.p (l.b - 1) r ∧
        exec (.pmul fd fa fb fm fc g) s =
          .next (match r with
            | .error c => s.finish c.code
            | .ok R => (s.setPoint fd (normPt l.m R)).finish 0))

/-- 45_elliptic_curve.md R153, R155, R161: for a prime m and points of one curve, PADD in default mode is the addition of
the curve's group (that it is one is general knowledge; here it is Mathlib's), with coordinates in [0, m) (R160). -/
def Obligations.PaddIsGroupLaw : Prop :=
  ∀ (s : State) (l : Latch) (fd fa fb fm fc : Field) (_ : Fact l.m.Prime) (B : ZMod l.m)
    (P Q : (shortCurve (l.c : ZMod l.m) B).Point), s.latch = some l → StandsFor l.p P → StandsFor l.q Q →
    ∃ r : Pt, StandsFor r (P + Q) ∧ r.Reduced l.m ∧
      exec (.padd fd fa fb fm fc false) s = .next ((s.setPoint fd r).finish 0)

/-- 45_elliptic_curve.md R157, R159: for a point P of a curve over a prime field, PMUL in default mode gives the group's k·P,
with coordinates in [0, m) (R160). -/
def Obligations.PmulIsScalarMultiplication : Prop :=
  ∀ (s : State) (l : Latch) (fd fa fb fm fc : Field) (_ : Fact l.m.Prime) (B : ZMod l.m)
    (P : (shortCurve (l.c : ZMod l.m) B).Point), s.latch = some l → StandsFor l.p P →
    ∃ r : Pt, StandsFor r (l.b • P) ∧ r.Reduced l.m ∧
      exec (.pmul fd fa fb fm fc false) s = .next ((s.setPoint fd r).finish 0)
end

