-- ==== Sys2Proof/Laws/Decode.lean ====
section
/-! SUPPORT. The fields of a packed word, the word of its fields, and the rows of the opcode table (30_encoding.md R70, R75). -/

namespace Sys2Proof

/-! ## Fields of a packed word -/

section

variable (op : BitVec 6) (f : Fields)

@[simp] theorem opOf_pack : opOf (pack op f) = op := by
  apply BitVec.eq_of_getLsbD_eq
  intro i hi
  interval_cases i <;> simp only [opOf, pack, BitVec.getLsbD_extractLsb', BitVec.getLsbD_append] <;> simp

@[simp] theorem rsvOf_pack : rsvOf (pack op f) = 0#5 := by
  apply BitVec.eq_of_getLsbD_eq
  intro i hi
  interval_cases i <;> simp only [rsvOf, pack, BitVec.getLsbD_extractLsb', BitVec.getLsbD_append] <;> simp

@[simp] theorem fd_pack : (fieldsOf (pack op f)).fd = f.fd := by
  apply BitVec.eq_of_getLsbD_eq
  intro i hi
  interval_cases i <;> simp only [fieldsOf, pack, BitVec.getLsbD_extractLsb', BitVec.getLsbD_append] <;> simp

@[simp] theorem fa_pack : (fieldsOf (pack op f)).fa = f.fa := by
  apply BitVec.eq_of_getLsbD_eq
  intro i hi
  interval_cases i <;> simp only [fieldsOf, pack, BitVec.getLsbD_extractLsb', BitVec.getLsbD_append] <;> simp

@[simp] theorem fb_pack : (fieldsOf (pack op f)).fb = f.fb := by
  apply BitVec.eq_of_getLsbD_eq
  intro i hi
  interval_cases i <;> simp only [fieldsOf, pack, BitVec.getLsbD_extractLsb', BitVec.getLsbD_append] <;> simp

@[simp] theorem fm_pack : (fieldsOf (pack op f)).fm = f.fm := by
  apply BitVec.eq_of_getLsbD_eq
  intro i hi
  interval_cases i <;> simp only [fieldsOf, pack, BitVec.getLsbD_extractLsb', BitVec.getLsbD_append] <;> simp

@[simp] theorem fc_pack : (fieldsOf (pack op f)).fc = f.fc := by
  apply BitVec.eq_of_getLsbD_eq
  intro i hi
  interval_cases i <;> simp only [fieldsOf, pack, BitVec.getLsbD_extractLsb', BitVec.getLsbD_append] <;> simp

@[simp] theorem l_pack : (fieldsOf (pack op f)).l = f.l := by
  simp only [fieldsOf, pack, BitVec.getLsbD_append]
  simp

@[simp] theorem fieldsOf_pack : fieldsOf (pack op f) = f := by
  have h : ∀ g : Fields, g = ⟨g.fd, g.fa, g.fb, g.fm, g.fc, g.l⟩ := fun _ => rfl
  rw [h (fieldsOf _), fd_pack, fa_pack, fb_pack, fm_pack, fc_pack, l_pack]

end

/-- A word whose RSV bits are 0 is the packing of its own fields. -/
theorem pack_fieldsOf (w : BitVec 32) (h : rsvOf w = 0#5) : pack (opOf w) (fieldsOf w) = w := by
  have hr : ∀ i, i < 5 → w.getLsbD i = false := by
    intro i hi
    have := congrArg (fun v : BitVec 5 => v.getLsbD i) h
    simpa [rsvOf, hi] using this
  apply BitVec.eq_of_getLsbD_eq
  intro i hi
  interval_cases i <;>
    simp only [opOf, fieldsOf, pack, BitVec.getLsbD_extractLsb', BitVec.getLsbD_append] <;> simp <;>
    first | exact hr 0 (by decide) | exact hr 1 (by decide) | exact hr 2 (by decide) | exact hr 3 (by decide)
          | exact hr 4 (by decide)

/-! ## Rows -/

theorem opRow_op (mn : Mnemonic) : opRow mn.op = some mn := by cases mn <;> decide

theorem op_of_opRow {op : BitVec 6} {mn : Mnemonic} (h : opRow op = some mn) : mn.op = op := by
  have := List.find?_some h
  simpa using this

/-- The match of a row is the packing of its opcode with every field 0. -/
theorem matchOf_eq (op : BitVec 6) : matchOf op = pack op ⟨0, 0, 0, 0, 0, false⟩ := by
  apply BitVec.eq_of_getLsbD_eq
  intro i hi
  interval_cases i <;> simp only [matchOf, pack, BitVec.getLsbD_append] <;> simp

theorem build_mnemonic (mn : Mnemonic) (f : Fields) : (build mn f).mnemonic = mn := by cases mn <;> rfl

theorem build_fields (i : Instr) : build i.mnemonic i.fields = i := by cases i <;> rfl

/-- A value of 2^32 or more has a bit above the command word. -/
theorem decode_wide {v : Nat} (h : 2 ^ 32 ≤ v) : decode v = .illegal .highBits := by
  have : v >>> 32 ≠ 0 := by
    rw [Nat.shiftRight_eq_div_pow]
    omega
  simp [decode, this]

/-- A smaller value is the command word. -/
theorem decode_eq {v : Nat} (h : v < 2 ^ 32) : decode v = decode32 (BitVec.ofNat 32 v) := by
  have : v >>> 32 = 0 := by
    rw [Nat.shiftRight_eq_div_pow]
    omega
  simp [decode, this]

theorem encodeWord_lt (i : Instr) : encodeWord i < 2 ^ 32 := (encode i).isLt

theorem ofNat_encodeWord (i : Instr) : BitVec.ofNat 32 (encodeWord i) = encode i := by
  simp [encodeWord]

/-- The decoder finds the row of a word that meets it. -/
theorem decode32_row {w : BitVec 32} {mn : Mnemonic} (ho : opOf w = mn.op) (hm : w &&& mn.form.mask = matchOf mn.op) :
    decode32 w = .cmd (build mn (fieldsOf w)) := by
  simp [decode32, ho, opRow_op, hm]

/-- What a decoded word satisfies. -/
theorem decode32_cmd {w : BitVec 32} {i : Instr} (h : decode32 w = .cmd i) :
    ∃ mn : Mnemonic, opOf w = mn.op ∧ w &&& mn.form.mask = matchOf mn.op ∧ i = build mn (fieldsOf w) := by
  unfold decode32 at h
  split at h
  · exact absurd h (by simp)
  · rename_i mn hmn
    split at h
    · rename_i hm
      exact ⟨mn, (op_of_opRow hmn).symm, hm, by simpa using h.symm⟩
    · split at h <;> exact absurd h (by simp)

end Sys2Proof
end

