-- ==== Sys2Proof/Laws/State.lean ====
section
/-! SUPPORT. What each update of the state does to each field, true by definition. -/

namespace Sys2Proof.Machine

/-! ## setData -/

section

variable (f : Field) (v : Nat) (s : State)

@[simp] theorem setData_d : (s.setData f v).d = s.d.set (dIdx f) (Held.of v) := rfl
@[simp] theorem setData_p : (s.setData f v).p = s.p := rfl
@[simp] theorem setData_cmd : (s.setData f v).cmd = s.cmd := rfl
@[simp] theorem setData_done : (s.setData f v).done = s.done := rfl
@[simp] theorem setData_err : (s.setData f v).err = s.err := rfl
@[simp] theorem setData_haz : (s.setData f v).haz = s.haz := rfl
@[simp] theorem setData_ecode : (s.setData f v).ecode = s.ecode := rfl
@[simp] theorem setData_ie : (s.setData f v).ie = s.ie := rfl
@[simp] theorem setData_rounds : (s.setData f v).rounds = s.rounds := rfl
@[simp] theorem setData_latch : (s.setData f v).latch = s.latch := rfl
@[simp] theorem setData_rng : (s.setData f v).rng = s.rng := rfl
@[simp] theorem setData_modelFault : (s.setData f v).modelFault = s.modelFault := rfl
@[simp] theorem setData_host : (s.setData f v).host = s.host := rfl
@[simp] theorem setData_width : (s.setData f v).width = s.width := rfl
@[simp] theorem setData_ended : (s.setData f v).ended = s.ended := rfl
@[simp] theorem setData_schedule : (s.setData f v).schedule = s.schedule := rfl

end

/-! ## setPoint -/

section

variable (f : Field) (r : Pt) (s : State)

@[simp] theorem setPoint_d : (s.setPoint f r).d = s.d := rfl
@[simp] theorem setPoint_p : (s.setPoint f r).p = s.p.set (pIdx f) (PointReg.ofPt s.width r) := rfl
@[simp] theorem setPoint_cmd : (s.setPoint f r).cmd = s.cmd := rfl
@[simp] theorem setPoint_done : (s.setPoint f r).done = s.done := rfl
@[simp] theorem setPoint_err : (s.setPoint f r).err = s.err := rfl
@[simp] theorem setPoint_haz : (s.setPoint f r).haz = s.haz := rfl
@[simp] theorem setPoint_ecode : (s.setPoint f r).ecode = s.ecode := rfl
@[simp] theorem setPoint_ie : (s.setPoint f r).ie = s.ie := rfl
@[simp] theorem setPoint_rounds : (s.setPoint f r).rounds = s.rounds := rfl
@[simp] theorem setPoint_latch : (s.setPoint f r).latch = s.latch := rfl
@[simp] theorem setPoint_rng : (s.setPoint f r).rng = s.rng := rfl
@[simp] theorem setPoint_modelFault : (s.setPoint f r).modelFault = s.modelFault := rfl
@[simp] theorem setPoint_host : (s.setPoint f r).host = s.host := rfl
@[simp] theorem setPoint_width : (s.setPoint f r).width = s.width := rfl
@[simp] theorem setPoint_ended : (s.setPoint f r).ended = s.ended := rfl
@[simp] theorem setPoint_schedule : (s.setPoint f r).schedule = s.schedule := rfl

end

/-! ## finish -/

section

variable (e : BitVec 4) (s : State)

@[simp] theorem finish_d : (s.finish e).d = s.d := rfl
@[simp] theorem finish_p : (s.finish e).p = s.p := rfl
@[simp] theorem finish_cmd : (s.finish e).cmd = s.cmd := rfl
@[simp] theorem finish_done : (s.finish e).done = true := rfl
@[simp] theorem finish_err : (s.finish e).err = (s.err || (e != 0#4)) := rfl
@[simp] theorem finish_haz : (s.finish e).haz = s.haz := rfl
@[simp] theorem finish_ecode : (s.finish e).ecode = e := rfl
@[simp] theorem finish_ie : (s.finish e).ie = s.ie := rfl
@[simp] theorem finish_rounds : (s.finish e).rounds = s.rounds := rfl
@[simp] theorem finish_latch : (s.finish e).latch = none := rfl
@[simp] theorem finish_rng : (s.finish e).rng = s.rng := rfl
@[simp] theorem finish_modelFault : (s.finish e).modelFault = s.modelFault := rfl
@[simp] theorem finish_host : (s.finish e).host = s.host := rfl
@[simp] theorem finish_width : (s.finish e).width = s.width := rfl
@[simp] theorem finish_ended : (s.finish e).ended = s.ended := rfl
@[simp] theorem finish_schedule : (s.finish e).schedule = s.schedule := rfl

end

/-! ## noteRead -/

section

variable (w : Bool) (s : State)

@[simp] theorem noteRead_d : (s.noteRead w).d = s.d := rfl
@[simp] theorem noteRead_p : (s.noteRead w).p = s.p := rfl
@[simp] theorem noteRead_cmd : (s.noteRead w).cmd = s.cmd := rfl
@[simp] theorem noteRead_done : (s.noteRead w).done = s.done := rfl
@[simp] theorem noteRead_err : (s.noteRead w).err = s.err := rfl
@[simp] theorem noteRead_haz : (s.noteRead w).haz = s.haz := rfl
@[simp] theorem noteRead_ecode : (s.noteRead w).ecode = s.ecode := rfl
@[simp] theorem noteRead_ie : (s.noteRead w).ie = s.ie := rfl
@[simp] theorem noteRead_rounds : (s.noteRead w).rounds = s.rounds := rfl
@[simp] theorem noteRead_latch : (s.noteRead w).latch = s.latch := rfl
@[simp] theorem noteRead_rng : (s.noteRead w).rng = s.rng := rfl
@[simp] theorem noteRead_modelFault : (s.noteRead w).modelFault = (s.modelFault || !w) := rfl
@[simp] theorem noteRead_host : (s.noteRead w).host = s.host := rfl
@[simp] theorem noteRead_width : (s.noteRead w).width = s.width := rfl
@[simp] theorem noteRead_ended : (s.noteRead w).ended = s.ended := rfl
@[simp] theorem noteRead_schedule : (s.noteRead w).schedule = s.schedule := rfl

end

/-! ## requestDraw -/

section

variable (n : Nat) (l : Latch) (s : State)

@[simp] theorem requestDraw_d : (s.requestDraw n l).d = s.d := rfl
@[simp] theorem requestDraw_p : (s.requestDraw n l).p = s.p := rfl
@[simp] theorem requestDraw_cmd : (s.requestDraw n l).cmd = s.cmd := rfl
@[simp] theorem requestDraw_done : (s.requestDraw n l).done = s.done := rfl
@[simp] theorem requestDraw_err : (s.requestDraw n l).err = s.err := rfl
@[simp] theorem requestDraw_haz : (s.requestDraw n l).haz = s.haz := rfl
@[simp] theorem requestDraw_ecode : (s.requestDraw n l).ecode = s.ecode := rfl
@[simp] theorem requestDraw_ie : (s.requestDraw n l).ie = s.ie := rfl
@[simp] theorem requestDraw_rounds : (s.requestDraw n l).rounds = s.rounds := rfl
@[simp] theorem requestDraw_latch : (s.requestDraw n l).latch = some { l with passed := n, draw := none } := rfl
@[simp] theorem requestDraw_rng : (s.requestDraw n l).rng = s.rng.request := rfl
@[simp] theorem requestDraw_modelFault : (s.requestDraw n l).modelFault = s.modelFault := rfl
@[simp] theorem requestDraw_host : (s.requestDraw n l).host = s.host := rfl
@[simp] theorem requestDraw_width : (s.requestDraw n l).width = s.width := rfl
@[simp] theorem requestDraw_ended : (s.requestDraw n l).ended = s.ended := rfl
@[simp] theorem requestDraw_schedule : (s.requestDraw n l).schedule = s.schedule := rfl

end

/-! ## softReset -/

section

variable (s : State)

@[simp] theorem softReset_d : (s.softReset).d = s.d := rfl
@[simp] theorem softReset_p : (s.softReset).p = s.p := rfl
@[simp] theorem softReset_cmd : (s.softReset).cmd = 0 := rfl
@[simp] theorem softReset_done : (s.softReset).done = false := rfl
@[simp] theorem softReset_err : (s.softReset).err = false := rfl
@[simp] theorem softReset_haz : (s.softReset).haz = false := rfl
@[simp] theorem softReset_ecode : (s.softReset).ecode = 0 := rfl
@[simp] theorem softReset_ie : (s.softReset).ie = false := rfl
@[simp] theorem softReset_rounds : (s.softReset).rounds = Config.roundsReset := rfl
@[simp] theorem softReset_latch : (s.softReset).latch = none := rfl
@[simp] theorem softReset_rng : (s.softReset).rng = s.rng.withdraw := rfl
@[simp] theorem softReset_modelFault : (s.softReset).modelFault = s.modelFault := rfl
@[simp] theorem softReset_host : (s.softReset).host = s.host := rfl
@[simp] theorem softReset_width : (s.softReset).width = s.width := rfl
@[simp] theorem softReset_ended : (s.softReset).ended = s.ended := rfl
@[simp] theorem softReset_schedule : (s.softReset).schedule = s.schedule := rfl

end

/-! ## powerOn -/

section

variable (s : State)

@[simp] theorem powerOn_d : (s.powerOn).d = (State.resetOf s.width).d := rfl
@[simp] theorem powerOn_p : (s.powerOn).p = (State.resetOf s.width).p := rfl
@[simp] theorem powerOn_cmd : (s.powerOn).cmd = 0 := rfl
@[simp] theorem powerOn_done : (s.powerOn).done = false := rfl
@[simp] theorem powerOn_err : (s.powerOn).err = false := rfl
@[simp] theorem powerOn_haz : (s.powerOn).haz = false := rfl
@[simp] theorem powerOn_ecode : (s.powerOn).ecode = 0 := rfl
@[simp] theorem powerOn_ie : (s.powerOn).ie = false := rfl
@[simp] theorem powerOn_rounds : (s.powerOn).rounds = Config.roundsReset := rfl
@[simp] theorem powerOn_latch : (s.powerOn).latch = none := rfl
@[simp] theorem powerOn_rng : (s.powerOn).rng = s.rng.withdraw := rfl
@[simp] theorem powerOn_modelFault : (s.powerOn).modelFault = s.modelFault := rfl
@[simp] theorem powerOn_host : (s.powerOn).host = s.host := rfl
@[simp] theorem powerOn_width : (s.powerOn).width = s.width := rfl
@[simp] theorem powerOn_ended : (s.powerOn).ended = s.ended := rfl
@[simp] theorem powerOn_schedule : (s.powerOn).schedule = s.schedule := rfl

end

/-! ## afterRead -/

section

variable (k : Slot) (s : State)

@[simp] theorem afterRead_d : (s.afterRead k).d = s.d := rfl
@[simp] theorem afterRead_p : (s.afterRead k).p = s.p := rfl
@[simp] theorem afterRead_cmd : (s.afterRead k).cmd = s.cmd := rfl
@[simp] theorem afterRead_done : (s.afterRead k).done = s.done := rfl
@[simp] theorem afterRead_err : (s.afterRead k).err = s.err := rfl
@[simp] theorem afterRead_haz : (s.afterRead k).haz = s.haz := rfl
@[simp] theorem afterRead_ecode : (s.afterRead k).ecode = s.ecode := rfl
@[simp] theorem afterRead_ie : (s.afterRead k).ie = s.ie := rfl
@[simp] theorem afterRead_rounds : (s.afterRead k).rounds = s.rounds := rfl
@[simp] theorem afterRead_latch : (s.afterRead k).latch = s.latch := rfl
@[simp] theorem afterRead_rng : (s.afterRead k).rng = s.rng := rfl
@[simp] theorem afterRead_modelFault : (s.afterRead k).modelFault = (s.modelFault || !s.slotWritten k) := rfl
@[simp] theorem afterRead_host : (s.afterRead k).host = s.host := rfl
@[simp] theorem afterRead_width : (s.afterRead k).width = s.width := rfl
@[simp] theorem afterRead_ended : (s.afterRead k).ended = s.ended := rfl
@[simp] theorem afterRead_schedule : (s.afterRead k).schedule = s.schedule := rfl

end

/-! ## setHostVar -/

section

variable (h : Nat) (z : Int) (s : State)

@[simp] theorem setHostVar_d : (s.setHostVar h z).d = s.d := rfl
@[simp] theorem setHostVar_p : (s.setHostVar h z).p = s.p := rfl
@[simp] theorem setHostVar_cmd : (s.setHostVar h z).cmd = s.cmd := rfl
@[simp] theorem setHostVar_done : (s.setHostVar h z).done = s.done := rfl
@[simp] theorem setHostVar_err : (s.setHostVar h z).err = s.err := rfl
@[simp] theorem setHostVar_haz : (s.setHostVar h z).haz = s.haz := rfl
@[simp] theorem setHostVar_ecode : (s.setHostVar h z).ecode = s.ecode := rfl
@[simp] theorem setHostVar_ie : (s.setHostVar h z).ie = s.ie := rfl
@[simp] theorem setHostVar_rounds : (s.setHostVar h z).rounds = s.rounds := rfl
@[simp] theorem setHostVar_latch : (s.setHostVar h z).latch = s.latch := rfl
@[simp] theorem setHostVar_rng : (s.setHostVar h z).rng = s.rng := rfl
@[simp] theorem setHostVar_modelFault : (s.setHostVar h z).modelFault = s.modelFault := rfl
@[simp] theorem setHostVar_host : (s.setHostVar h z).host = { s.host with vars := setVar s.host.vars h z } := rfl
@[simp] theorem setHostVar_width : (s.setHostVar h z).width = s.width := rfl
@[simp] theorem setHostVar_ended : (s.setHostVar h z).ended = s.ended := rfl
@[simp] theorem setHostVar_schedule : (s.setHostVar h z).schedule = s.schedule := rfl

end

/-! ## advance -/

section

variable (s : State)

@[simp] theorem advance_d : (s.advance).d = s.d := rfl
@[simp] theorem advance_p : (s.advance).p = s.p := rfl
@[simp] theorem advance_cmd : (s.advance).cmd = s.cmd := rfl
@[simp] theorem advance_done : (s.advance).done = s.done := rfl
@[simp] theorem advance_err : (s.advance).err = s.err := rfl
@[simp] theorem advance_haz : (s.advance).haz = s.haz := rfl
@[simp] theorem advance_ecode : (s.advance).ecode = s.ecode := rfl
@[simp] theorem advance_ie : (s.advance).ie = s.ie := rfl
@[simp] theorem advance_rounds : (s.advance).rounds = s.rounds := rfl
@[simp] theorem advance_latch : (s.advance).latch = s.latch := rfl
@[simp] theorem advance_rng : (s.advance).rng = s.rng := rfl
@[simp] theorem advance_modelFault : (s.advance).modelFault = s.modelFault := rfl
@[simp] theorem advance_host : (s.advance).host = { s.host with pos := s.host.pos + 1 } := rfl
@[simp] theorem advance_width : (s.advance).width = s.width := rfl
@[simp] theorem advance_ended : (s.advance).ended = s.ended := rfl
@[simp] theorem advance_schedule : (s.advance).schedule = s.schedule := rfl

end

/-! ## popTurn -/

section

variable (s : State)

@[simp] theorem popTurn_d : (s.popTurn).d = s.d := rfl
@[simp] theorem popTurn_p : (s.popTurn).p = s.p := rfl
@[simp] theorem popTurn_cmd : (s.popTurn).cmd = s.cmd := rfl
@[simp] theorem popTurn_done : (s.popTurn).done = s.done := rfl
@[simp] theorem popTurn_err : (s.popTurn).err = s.err := rfl
@[simp] theorem popTurn_haz : (s.popTurn).haz = s.haz := rfl
@[simp] theorem popTurn_ecode : (s.popTurn).ecode = s.ecode := rfl
@[simp] theorem popTurn_ie : (s.popTurn).ie = s.ie := rfl
@[simp] theorem popTurn_rounds : (s.popTurn).rounds = s.rounds := rfl
@[simp] theorem popTurn_latch : (s.popTurn).latch = s.latch := rfl
@[simp] theorem popTurn_rng : (s.popTurn).rng = s.rng := rfl
@[simp] theorem popTurn_modelFault : (s.popTurn).modelFault = s.modelFault := rfl
@[simp] theorem popTurn_host : (s.popTurn).host = s.host := rfl
@[simp] theorem popTurn_width : (s.popTurn).width = s.width := rfl
@[simp] theorem popTurn_ended : (s.popTurn).ended = s.ended := rfl
@[simp] theorem popTurn_schedule : (s.popTurn).schedule = s.schedule.tail := rfl

end

/-! ## noteEnd -/

section

variable (s : State)

/-- The end of the run is noted, or nothing changes. -/
theorem noteEnd_cases :
    s.noteEnd = s ∨ (s.host.halted = true ∧ s.busy = false ∧ s.ended = none ∧
      s.noteEnd = { s with ended := some s.observation }) := by
  unfold State.noteEnd
  split
  · rename_i h
    simp only [Bool.and_eq_true, Bool.not_eq_true', Option.isNone_iff_eq_none] at h
    exact .inr ⟨h.1.1, h.1.2, h.2, rfl⟩
  · exact .inl rfl

@[simp] theorem noteEnd_d : s.noteEnd.d = s.d := by
  obtain h | ⟨_, _, _, h⟩ := noteEnd_cases s <;> rw [h]
@[simp] theorem noteEnd_p : s.noteEnd.p = s.p := by
  obtain h | ⟨_, _, _, h⟩ := noteEnd_cases s <;> rw [h]
@[simp] theorem noteEnd_cmd : s.noteEnd.cmd = s.cmd := by
  obtain h | ⟨_, _, _, h⟩ := noteEnd_cases s <;> rw [h]
@[simp] theorem noteEnd_done : s.noteEnd.done = s.done := by
  obtain h | ⟨_, _, _, h⟩ := noteEnd_cases s <;> rw [h]
@[simp] theorem noteEnd_err : s.noteEnd.err = s.err := by
  obtain h | ⟨_, _, _, h⟩ := noteEnd_cases s <;> rw [h]
@[simp] theorem noteEnd_haz : s.noteEnd.haz = s.haz := by
  obtain h | ⟨_, _, _, h⟩ := noteEnd_cases s <;> rw [h]
@[simp] theorem noteEnd_ecode : s.noteEnd.ecode = s.ecode := by
  obtain h | ⟨_, _, _, h⟩ := noteEnd_cases s <;> rw [h]
@[simp] theorem noteEnd_ie : s.noteEnd.ie = s.ie := by
  obtain h | ⟨_, _, _, h⟩ := noteEnd_cases s <;> rw [h]
@[simp] theorem noteEnd_rounds : s.noteEnd.rounds = s.rounds := by
  obtain h | ⟨_, _, _, h⟩ := noteEnd_cases s <;> rw [h]
@[simp] theorem noteEnd_latch : s.noteEnd.latch = s.latch := by
  obtain h | ⟨_, _, _, h⟩ := noteEnd_cases s <;> rw [h]
@[simp] theorem noteEnd_rng : s.noteEnd.rng = s.rng := by
  obtain h | ⟨_, _, _, h⟩ := noteEnd_cases s <;> rw [h]
@[simp] theorem noteEnd_modelFault : s.noteEnd.modelFault = s.modelFault := by
  obtain h | ⟨_, _, _, h⟩ := noteEnd_cases s <;> rw [h]
@[simp] theorem noteEnd_host : s.noteEnd.host = s.host := by
  obtain h | ⟨_, _, _, h⟩ := noteEnd_cases s <;> rw [h]
@[simp] theorem noteEnd_width : s.noteEnd.width = s.width := by
  obtain h | ⟨_, _, _, h⟩ := noteEnd_cases s <;> rw [h]
@[simp] theorem noteEnd_schedule : s.noteEnd.schedule = s.schedule := by
  obtain h | ⟨_, _, _, h⟩ := noteEnd_cases s <;> rw [h]

/-- A noted end stays as it was noted. -/
theorem noteEnd_ended {o : Observation} (h : s.ended = some o) : s.noteEnd.ended = some o := by
  simp [State.noteEnd, h]

end

end Sys2Proof.Machine
end

