-- ==== Sys2Proof/Laws/Ops.lean ====
section
/-! SUPPORT. What each shared operation can do, said once: registers, completion, the latch, acceptance, the RNG's answers
and slot writes. -/

namespace Sys2Proof.Machine

/-! ## Widths and words -/

theorem Width.span_pos (w : Width) : 0 < w.span := Nat.two_pow_pos _

/-- A 32-bit command word fits a slot of every width (92_eei_decisions.md D3). -/
theorem Width.two_pow_32_le_span (w : Width) : 2 ^ 32 ≤ w.span := by
  apply Nat.pow_le_pow_right (by decide)
  simp only [Width.bits, Width.bytes]
  omega

theorem word_fits (w : Width) (v : Int) : w.Fits (word w v) := by
  have hp : (0 : Int) < w.span := by exact_mod_cast Width.span_pos w
  have := Int.emod_nonneg v (ne_of_gt hp)
  have := Int.emod_lt_of_pos v hp
  exact (Int.toNat_lt (by assumption)).mpr (by assumption)

theorem word_natCast (w : Width) (n : Nat) : word w (n : Int) = n % w.span := by
  unfold word
  exact_mod_cast congrArg Int.toNat (Int.natCast_mod n w.span).symm

/-- The word of a value that fits is that value. -/
theorem word_of_fits {w : Width} {v : Nat} (h : w.Fits v) : word w (v : Int) = v := by
  rw [word_natCast, Nat.mod_eq_of_lt h]

/-! ## Register indexes and registers -/

theorem dIdx_val (f : Field) : (dIdx f : Nat) = f.toNat := rfl

theorem dIdx_inj {f g : Field} : dIdx f = dIdx g ↔ f = g := by
  rw [Fin.ext_iff, dIdx_val, dIdx_val, BitVec.toNat_inj]

theorem pIdx_val_of_legal {f : Field} (h : f < 4#4) : (pIdx f : Nat) = f.toNat := by
  have : f.toNat < 4 := by simpa [BitVec.lt_def] using h
  simp [pIdx, Nat.mod_eq_of_lt this]

theorem pIdx_inj_of_legal {f g : Field} (hf : f < 4#4) (hg : g < 4#4) : pIdx f = pIdx g ↔ f = g := by
  rw [Fin.ext_iff, pIdx_val_of_legal hf, pIdx_val_of_legal hg, BitVec.toNat_inj]

theorem setData_get (s : State) (f : Field) (v : Nat) (i : Fin 16) :
    (s.setData f v).d[i] = if dIdx f = i then Held.of v else s.d[i] := by
  simp [State.setData, Vector.getElem_set, Fin.ext_iff]

theorem setPoint_get (s : State) (f : Field) (r : Pt) (i : Fin 4) :
    (s.setPoint f r).p[i] = if pIdx f = i then PointReg.ofPt s.width r else s.p[i] := by
  simp [State.setPoint, Vector.getElem_set, Fin.ext_iff]

@[simp] theorem setData_dataWord_same (s : State) (f : Field) (v : Nat) : (s.setData f v).dataWord f = v := by
  rw [State.dataWord, setData_get, if_pos rfl]; rfl

theorem setData_dataWord_other (s : State) {f g : Field} (v : Nat) (h : g ≠ f) :
    (s.setData f v).dataWord g = s.dataWord g := by
  rw [State.dataWord, setData_get, if_neg (fun e => h (dIdx_inj.mp e).symm), State.dataWord]

/-! ## Completion -/

@[simp] theorem complete_error {α : Type} (c : ErrorCode) (commit : α → State → State) (s : State) :
    s.complete (.error c) commit = s.finish c.code := rfl

@[simp] theorem complete_ok {α : Type} (v : α) (commit : α → State → State) (s : State) :
    s.complete (.ok v) commit = (commit v s).finish okCode := rfl

/-- A completion either reports an error and writes nothing, or commits its results and reports success. -/
theorem complete_cases {α : Type} (r : Except ErrorCode α) (commit : α → State → State) (s : State) :
    (∃ c, r = .error c ∧ s.complete r commit = s.finish c.code) ∨
      (∃ v, r = .ok v ∧ s.complete r commit = (commit v s).finish okCode) := by
  cases r with
  | error c => exact .inl ⟨c, rfl, rfl⟩
  | ok v => exact .inr ⟨v, rfl, rfl⟩

theorem withModulus_zero {α : Type} (r : Except ErrorCode α) : withModulus 0 r = .error .invalidModulus := rfl

theorem withModulus_pos {α : Type} {m : Nat} (h : m ≠ 0) (r : Except ErrorCode α) : withModulus m r = r := by
  simp [withModulus, h]

theorem code_ne_zero (c : ErrorCode) : c.code ≠ 0#4 := by cases c <;> decide

/-! ## The latch -/

theorem onLatch_some {s : State} {l : Latch} (h : s.latch = some l) (k : Latch → Result) : onLatch s k = k l := by
  simp [onLatch, h]

theorem onLatch_none {s : State} (h : s.latch = none) (k : Latch → Result) : onLatch s k = .fault .noCommand := by
  simp [onLatch, h]

theorem busy_iff (s : State) : s.busy = true ↔ ∃ l, s.latch = some l := by
  simp [State.busy, Option.isSome_iff_exists]

theorem not_busy_iff (s : State) : s.busy = false ↔ s.latch = none := by
  simp [State.busy]

/-! ## Acceptance -/

theorem accept_illegal {v : Nat} {why : Illegal} (h : decode v = .illegal why) (s : State) :
    s.accept v = { s with cmd := v, done := true, ecode := 6#4, err := true, latch := none } := by
  simp [State.accept, h, State.finish, ErrorCode.code]

theorem accept_legal {v : Nat} {i : Instr} (h : decode v = .cmd i) (s : State) :
    s.accept v = { s with cmd := v, done := false, modelFault := s.modelFault || !s.operandsWritten i,
                          latch := some (s.latchOf i) } := by
  simp [State.accept, h, State.noteRead]

/-! ## The RNG's answers -/

theorem answer_pending {s : State} {id : Nat} (h : s.rng.pending = some id) (n : Nat) :
    s.answer id n = .next { s with
      rng := { s.rng with pending := none }
      latch := s.latch.map (fun l => { l with draw := some (word s.width n) }) } := by
  simp [State.answer, h]

theorem answer_withdrawn {s : State} {id : Nat} (h : s.rng.pending ≠ some id) (hw : id ∈ s.rng.withdrawn) (n : Nat) :
    s.answer id n = .next { s with rng := { s.rng with withdrawn := s.rng.withdrawn.erase id } } := by
  simp [State.answer, h, hw]

theorem answer_unasked {s : State} {id : Nat} (h : s.rng.pending ≠ some id) (hw : id ∉ s.rng.withdrawn) (n : Nat) :
    s.answer id n = .refused .answerWithoutRequest := by
  simp [State.answer, h, hw]

theorem withdraw_pending (r : Rng) : r.withdraw.pending = none := by
  unfold Rng.withdraw
  split <;> simp_all

theorem withdraw_asked (r : Rng) : r.withdraw.asked = r.asked := by
  unfold Rng.withdraw
  split <;> rfl

/-! ## The slot map (20_memory.md R51) -/

@[simp] theorem slotKind_pinf : slotKind 0x18#5 = .pinf := rfl
@[simp] theorem slotKind_cmd : slotKind 0x19#5 = .cmd := rfl
@[simp] theorem slotKind_status : slotKind 0x1A#5 = .status := rfl
@[simp] theorem slotKind_ctrl : slotKind 0x1B#5 = .ctrl := rfl
@[simp] theorem slotKind_rounds : slotKind 0x1C#5 = .rounds := rfl
@[simp] theorem slotKind_id : slotKind 0x1D#5 = .id := rfl
@[simp] theorem slotKind_reserved : slotKind 0x1E#5 = .reserved := rfl
@[simp] theorem slotKind_reserved' : slotKind 0x1F#5 = .reserved := rfl

/-- CTRL has one slot. -/
theorem slotKind_ctrl_iff (k : Slot) : slotKind k = .ctrl ↔ k = 0x1B#5 := by revert k; decide

/-! ## Slot writes -/

theorem slotWrite_ctrl {k : Slot} (h : slotKind k = .ctrl) (v : Nat) (s : State) : s.slotWrite k v = s.writeCtrl v := by
  simp [State.slotWrite, h]

theorem slotWrite_busy {k : Slot} (h : slotKind k ≠ .ctrl) {s : State} (hb : s.busy = true) (v : Nat) :
    s.slotWrite k v = { s with haz := true } := by
  unfold State.slotWrite
  split
  · contradiction
  · simp [hb]

theorem slotWrite_cmd {s : State} (hb : s.busy = false) (v : Nat) : s.slotWrite cmdSlot v = s.accept v := by
  have hk : slotKind cmdSlot = .cmd := by decide
  simp [State.slotWrite, hk, hb]

theorem accept_host (v : Nat) (s : State) : (s.accept v).host = s.host := by
  cases h : decode v with
  | cmd i => rw [accept_legal h]
  | illegal w => rw [accept_illegal h]

theorem accept_schedule (v : Nat) (s : State) : (s.accept v).schedule = s.schedule := by
  cases h : decode v with
  | cmd i => rw [accept_legal h]
  | illegal w => rw [accept_illegal h]

theorem accept_width (v : Nat) (s : State) : (s.accept v).width = s.width := by
  cases h : decode v with
  | cmd i => rw [accept_legal h]
  | illegal w => rw [accept_illegal h]

theorem accept_ended (v : Nat) (s : State) : (s.accept v).ended = s.ended := by
  cases h : decode v with
  | cmd i => rw [accept_legal h]
  | illegal w => rw [accept_illegal h]

/-- What a slot write that is not lost does to a slot that is neither CTRL nor CMD. -/
inductive SlotStored (v : Nat) (s : State) : State → Prop
  | nothing : SlotStored v s s
  | data (i : Fin 16) : SlotStored v s { s with d := s.d.set i (Held.of v) }
  | px (i : Fin 4) : SlotStored v s { s with p := s.p.set i { s.p[i] with x := Held.of v } }
  | py (i : Fin 4) : SlotStored v s { s with p := s.p.set i { s.p[i] with y := Held.of v } }
  | pinf : SlotStored v s (s.writePinf v)
  | rounds : SlotStored v s (s.writeRounds v)

/-- The ways a slot write can go: CTRL, a write lost while BUSY is 1, acceptance, or a stored slot. -/
theorem slotWrite_cases (k : Slot) (v : Nat) (s : State) :
    s.slotWrite k v = s.writeCtrl v ∨ (s.busy = true ∧ s.slotWrite k v = { s with haz := true }) ∨
      (s.busy = false ∧ s.slotWrite k v = s.accept v) ∨ (s.busy = false ∧ SlotStored v s (s.slotWrite k v)) := by
  unfold State.slotWrite
  split
  · exact .inl rfl
  · cases hb : s.busy with
    | true => exact .inr (.inl ⟨rfl, by simp⟩)
    | false =>
      cases slotKind k with
      | cmd => exact .inr (.inr (.inl ⟨rfl, rfl⟩))
      | data i => exact .inr (.inr (.inr ⟨rfl, .data i⟩))
      | px i => exact .inr (.inr (.inr ⟨rfl, .px i⟩))
      | py i => exact .inr (.inr (.inr ⟨rfl, .py i⟩))
      | pinf => exact .inr (.inr (.inr ⟨rfl, .pinf⟩))
      | rounds => exact .inr (.inr (.inr ⟨rfl, .rounds⟩))
      | status => exact .inr (.inr (.inr ⟨rfl, .nothing⟩))
      | ctrl => exact .inr (.inr (.inr ⟨rfl, .nothing⟩))
      | id => exact .inr (.inr (.inr ⟨rfl, .nothing⟩))
      | reserved => exact .inr (.inr (.inr ⟨rfl, .nothing⟩))

/-- A host write to CTRL touches neither the host nor what belongs to no register. -/
theorem writeCtrl_frame (v : Nat) (s : State) :
    (s.writeCtrl v).host = s.host ∧ (s.writeCtrl v).schedule = s.schedule ∧ (s.writeCtrl v).width = s.width ∧
      (s.writeCtrl v).ended = s.ended := by
  unfold State.writeCtrl
  split <;> exact ⟨rfl, rfl, rfl, rfl⟩

theorem writeRounds_frame (v : Nat) (s : State) :
    (s.writeRounds v).host = s.host ∧ (s.writeRounds v).schedule = s.schedule ∧ (s.writeRounds v).width = s.width ∧
      (s.writeRounds v).ended = s.ended := by
  simp only [State.writeRounds]
  split <;> exact ⟨rfl, rfl, rfl, rfl⟩

/-- A host write leaves the host, the schedule, the width and the noted end alone. -/
theorem slotWrite_frame (k : Slot) (v : Nat) (s : State) :
    (s.slotWrite k v).host = s.host ∧ (s.slotWrite k v).schedule = s.schedule ∧ (s.slotWrite k v).width = s.width ∧
      (s.slotWrite k v).ended = s.ended := by
  obtain h | ⟨_, h⟩ | ⟨_, h⟩ | ⟨_, h⟩ := slotWrite_cases k v s
  · rw [h]
    exact writeCtrl_frame v s
  · rw [h]
    exact ⟨rfl, rfl, rfl, rfl⟩
  · rw [h]
    exact ⟨accept_host v s, accept_schedule v s, accept_width v s, accept_ended v s⟩
  · generalize s.slotWrite k v = t at h ⊢
    cases h with
    | rounds => exact writeRounds_frame v s
    | _ => exact ⟨rfl, rfl, rfl, rfl⟩

end Sys2Proof.Machine
end

