-- ==== Sys2Proof/Laws/Errors.lean ====
section
/-! SUPPORT. No computation of the core raises INVALID_CURVE (60_exceptions.md R182): the errors it can raise, said once per
computation. -/

namespace Sys2Proof.Machine

/-- The computation does not raise INVALID_CURVE. -/
def Raisable {α : Type} (r : Except ErrorCode α) : Prop := r ≠ .error .invalidCurve

@[simp] theorem raisable_ok {α : Type} (v : α) : Raisable (.ok v) := by simp [Raisable]

@[simp] theorem raisable_error {α : Type} {c : ErrorCode} : Raisable (α := α) (.error c) ↔ c ≠ .invalidCurve := by
  simp [Raisable]

theorem raisable_withModulus {α : Type} (m : Nat) {r : Except ErrorCode α} (h : Raisable r) :
    Raisable (withModulus m r) := by
  unfold withModulus
  split
  · simp
  · exact h

theorem raisable_addmod (a b m : Nat) : Raisable (addmodResult a b m) := raisable_withModulus _ (raisable_ok _)

theorem raisable_submod (a b m : Nat) : Raisable (submodResult a b m) := raisable_withModulus _ (raisable_ok _)

theorem raisable_mulmod (a b m : Nat) : Raisable (mulmodResult a b m) := raisable_withModulus _ (raisable_ok _)

theorem raisable_powmod (a b m : Nat) : Raisable (powmodResult a b m) := raisable_withModulus _ (raisable_ok _)

theorem raisable_gcd (a b : Nat) : Raisable (gcdResult a b) := raisable_ok _

theorem raisable_invEF (a n : Nat) : Raisable (invEF a n) := by
  simp only [invEF]
  split <;> simp

theorem raisable_binInvLoop (n : Nat) :
    ∀ (fuel u v : Nat) (x1 x2 : Int), Raisable (binInvLoop n fuel u v x1 x2) := by
  intro fuel
  induction fuel with
  | zero => intro u v x1 x2; simp [binInvLoop]
  | succ fuel ih =>
    intro u v x1 x2
    simp only [binInvLoop]
    repeat' split
    all_goals first | exact ih _ _ _ _ | simp

theorem raisable_inve (a n : Nat) : Raisable (inveResult a n) := raisable_withModulus _ (raisable_invEF _ _)

theorem raisable_invb (a n : Nat) : Raisable (invbResult a n) := by
  refine raisable_withModulus _ ?_
  split
  · simp
  · exact raisable_binInvLoop _ _ _ _ _ _

theorem raisable_invf (a n : Nat) : Raisable (invfResult a n) := by
  refine raisable_withModulus _ ?_
  split
  · simp
  · split <;> simp

theorem raisable_mrround (a n : Nat) : Raisable (mrroundResult a n) := by
  refine raisable_withModulus _ ?_
  split <;> simp

theorem raisable_xgcd (w : Width) (a b : Nat) : Raisable (xgcdResult w a b) := by
  simp only [xgcdResult]
  split <;> simp

theorem raisable_totient (n : Nat) : Raisable (totientResult n) := by
  unfold totientResult
  split <;> simp

theorem raisable_pointOfSlope (num den px py qx m : Nat) : Raisable (pointOfSlope (slope num den m) px py qx m) := by
  have := raisable_invEF den m
  unfold slope
  cases h : invEF den m with
  | error e => rw [h] at this; simpa [pointOfSlope] using this
  | ok i => simp [pointOfSlope]

theorem raisable_affineAdd (dg : Pt) (px py qx qy A m : Nat) : Raisable (affineAdd dg px py qx qy A m) := by
  simp only [affineAdd]
  repeat' split
  all_goals first | exact raisable_pointOfSlope _ _ _ _ _ _ | simp

theorem raisable_pointAddF (P Q : Pt) (A m : Nat) : Raisable (pointAddF P Q A m) := by
  unfold pointAddF
  split
  · simp
  · simp
  · exact raisable_affineAdd _ _ _ _ _ _ _

theorem raisable_pointAddLF (P Q : Pt) (A m : Nat) : Raisable (pointAddLF P Q A m) := by
  unfold pointAddLF
  split
  · simp
  · simp
  · exact raisable_affineAdd _ _ _ _ _ _ _

theorem raisable_pointMulLoop {add : Pt → Pt → Except ErrorCode Pt} (ha : ∀ p q, Raisable (add p q)) :
    ∀ (fuel : Nat) (acc run : Pt) (e : Nat), Raisable (pointMulLoop add fuel acc run e) := by
  intro fuel
  induction fuel with
  | zero => intro acc run e; simp [pointMulLoop]
  | succ fuel ih =>
    intro acc run e
    simp only [pointMulLoop]
    split
    · simp
    · split
      · rename_i c hc
        rw [raisable_error]
        rintro rfl
        split at hc
        · exact ha _ _ hc
        · exact absurd hc (by simp)
      · split
        · rename_i c hc
          rw [raisable_error]
          rintro rfl
          exact ha _ _ hc
        · exact ih _ _ _

theorem raisable_normResult (m : Nat) {r : Except ErrorCode Pt} (h : Raisable r) : Raisable (normResult m r) := by
  cases r with
  | error c => simpa [normResult] using h
  | ok v => simp [normResult]

theorem raisable_padd (l : Bool) (P Q : Pt) (A m : Nat) : Raisable (paddResult l P Q A m) := by
  refine raisable_withModulus _ ?_
  split
  · exact raisable_pointAddLF _ _ _ _
  · exact raisable_pointAddF _ _ _ _

theorem raisable_pdbl (l : Bool) (P : Pt) (A m : Nat) : Raisable (pdblResult l P A m) := by
  refine raisable_withModulus _ ?_
  split
  · exact raisable_pointAddLF _ _ _ _
  · exact raisable_pointAddF _ _ _ _

theorem raisable_pmul (l : Bool) (P : Pt) (k A m : Nat) : Raisable (pmulResult l P k A m) := by
  refine raisable_withModulus _ ?_
  split
  · unfold pointMulLF
    split
    · simp
    · split
      · simp
      · exact raisable_normResult _ (raisable_pointMulLoop (fun p q => raisable_pointAddLF _ _ _ _) _ _ _ _)
  · exact raisable_normResult _ (raisable_pointMulLoop (fun p q => raisable_pointAddF _ _ _ _) _ _ _ _)

end Sys2Proof.Machine
end

