-- ==== Sys2Proof/Laws/Exec.lean ====
section
/-! SUPPORT. What the core's step can do, said once (10_state.md R41). -/

namespace Sys2Proof.Machine

/-- With LATCH empty every meaning stops. -/
theorem exec_no_command (i : Instr) {s : State} (h : s.latch = none) : exec i s = .fault .noCommand := by
  cases i <;> exact onLatch_none h _

/-- The state `u` is `s` with the results of command `i` written, and nothing else changed. -/
inductive Committed : Instr → State → State → Prop
  | nop (s : State) : Committed .nop s s
  | data (i : Instr) (s : State) (v : Nat) : isPointCommand i = false → Committed i s (s.setData i.fields.fd v)
  | bezout (fd fa fb : Field) (s : State) (r : Bezout) : Committed (.xgcd fd fa fb) s (commitBezout fd r s)
  | point (i : Instr) (s : State) (r : Pt) : isPointCommand i = true → Committed i s (s.setPoint i.fields.fd r)

/-- The three ways the core's step can go on: an error (not INVALID_CURVE) that writes no result, a success that writes every
result, or an MRPRIME that waits for the RNG or asks it. -/
theorem exec_next_cases {i : Instr} {s t : State} (h : exec i s = .next t) :
    (∃ c : ErrorCode, c ≠ .invalidCurve ∧ t = s.finish c.code) ∨
      (∃ u, Committed i s u ∧ t = u.finish okCode) ∨
      (isMrprime i = true ∧ (t = s ∨ ∃ n l, s.latch = some l ∧ t = s.requestDraw n l)) := by
  cases hl : s.latch with
  | none => rw [exec_no_command i hl] at h; exact absurd h (by simp)
  | some l =>
    have data : ∀ (fd : Field) (r : Except ErrorCode Nat), Raisable r → isPointCommand i = false → i.fields.fd = fd →
        t = s.completeData fd r →
        (∃ c : ErrorCode, c ≠ .invalidCurve ∧ t = s.finish c.code) ∨ (∃ u, Committed i s u ∧ t = u.finish okCode) := by
      intro fd r hr hp hfd ht
      subst hfd
      obtain ⟨c, he, hc⟩ | ⟨v, _, hv⟩ := complete_cases r (fun v => State.setData i.fields.fd (word s.width v)) s
      · exact .inl ⟨c, raisable_error.mp (he ▸ hr), ht.trans hc⟩
      · exact .inr ⟨_, .data i s _ hp, ht.trans hv⟩
    have point : ∀ (fd : Field) (r : Except ErrorCode Pt), Raisable r → isPointCommand i = true → i.fields.fd = fd →
        t = s.completePoint fd r →
        (∃ c : ErrorCode, c ≠ .invalidCurve ∧ t = s.finish c.code) ∨ (∃ u, Committed i s u ∧ t = u.finish okCode) := by
      intro fd r hr hp hfd ht
      subst hfd
      obtain ⟨c, he, hc⟩ | ⟨v, _, hv⟩ := complete_cases r (State.setPoint i.fields.fd) s
      · exact .inl ⟨c, raisable_error.mp (he ▸ hr), ht.trans hc⟩
      · exact .inr ⟨_, .point i s _ hp, ht.trans hv⟩
    have weaken : ∀ {A B C : Prop}, A ∨ B → A ∨ B ∨ C := fun h => h.elim .inl (fun b => .inr (.inl b))
    cases i with
    | nop =>
      have : t = s.finish okCode := by
        simpa [exec, execNop, onLatch_some hl] using h.symm
      exact .inr (.inl ⟨s, .nop s, this⟩)
    | xgcd fd fa fb =>
      have ht : t = s.complete (xgcdResult s.width l.a l.b) (commitBezout fd) := by
        simpa [exec, execXgcd, onLatch_some hl] using h.symm
      obtain ⟨c, he, hc⟩ | ⟨v, _, hv⟩ := complete_cases (xgcdResult s.width l.a l.b) (commitBezout fd) s
      · exact .inl ⟨c, raisable_error.mp (he ▸ raisable_xgcd _ _ _), ht.trans hc⟩
      · exact .inr (.inl ⟨_, .bezout fd fa fb s v, ht.trans hv⟩)
    | mrprime fd fm =>
      simp only [exec, execMrprime, onLatch_some hl] at h
      split at h
      · exact weaken (data fd _ (raisable_ok _) rfl rfl (by simpa using h.symm))
      · split at h
        · exact .inr (.inr ⟨rfl, .inl (by simpa using h.symm)⟩)
        · exact .inr (.inr ⟨rfl, .inr ⟨_, l, rfl, by simpa using h.symm⟩⟩)
    | padd fd fa fb fm fc g =>
      exact weaken (point fd _ (raisable_padd _ _ _ _ _) rfl rfl (by simpa [exec, execPadd, onLatch_some hl] using h.symm))
    | pdbl fd fa fm fc g =>
      exact weaken (point fd _ (raisable_pdbl _ _ _ _) rfl rfl (by simpa [exec, execPdbl, onLatch_some hl] using h.symm))
    | pmul fd fa fb fm fc g =>
      exact weaken (point fd _ (raisable_pmul _ _ _ _ _) rfl rfl (by simpa [exec, execPmul, onLatch_some hl] using h.symm))
    | addmod fd fa fb fm =>
      exact weaken (data fd _ (raisable_addmod _ _ _) rfl rfl (by simpa [exec, execAddmod, onLatch_some hl] using h.symm))
    | submod fd fa fb fm =>
      exact weaken (data fd _ (raisable_submod _ _ _) rfl rfl (by simpa [exec, execSubmod, onLatch_some hl] using h.symm))
    | mulmod fd fa fb fm =>
      exact weaken (data fd _ (raisable_mulmod _ _ _) rfl rfl (by simpa [exec, execMulmod, onLatch_some hl] using h.symm))
    | powmod fd fa fb fm =>
      exact weaken (data fd _ (raisable_powmod _ _ _) rfl rfl (by simpa [exec, execPowmod, onLatch_some hl] using h.symm))
    | inve fd fa fm =>
      exact weaken (data fd _ (raisable_inve _ _) rfl rfl (by simpa [exec, execInve, onLatch_some hl] using h.symm))
    | invb fd fa fm =>
      exact weaken (data fd _ (raisable_invb _ _) rfl rfl (by simpa [exec, execInvb, onLatch_some hl] using h.symm))
    | invf fd fa fm =>
      exact weaken (data fd _ (raisable_invf _ _) rfl rfl (by simpa [exec, execInvf, onLatch_some hl] using h.symm))
    | mrround fd fa fm =>
      exact weaken (data fd _ (raisable_mrround _ _) rfl rfl (by simpa [exec, execMrround, onLatch_some hl] using h.symm))
    | gcd fd fa fb =>
      exact weaken (data fd _ (raisable_gcd _ _) rfl rfl (by simpa [exec, execGcd, onLatch_some hl] using h.symm))
    | totient fd fa =>
      exact weaken (data fd _ (raisable_totient _) rfl rfl (by simpa [exec, execTotient, onLatch_some hl] using h.symm))

end Sys2Proof.Machine
end

