-- ==== Sys2Proof/Laws/Loops.lean ====
section
/-! SUPPORT. Each bounded recursion is the loop of the spec: with the bound the model gives it, it meets the loop's own
equation, so the bound is never what ends it (log 15). -/

namespace Sys2Proof.Machine

/-! ## The number of bits -/

@[simp] theorem bitLength_zero : bitLength 0 = 0 := rfl

theorem bitLength_pos {e : Nat} (h : e ≠ 0) : bitLength e = bitLength (e / 2) + 1 := by
  unfold bitLength
  rw [if_neg h]
  by_cases h2 : e / 2 = 0
  · have : e = 1 := by omega
    subst this
    decide
  · rw [if_neg h2, Nat.log2_def, if_pos (by omega)]

theorem lt_two_pow_bitLength (e : Nat) : e < 2 ^ bitLength e := by
  induction e using Nat.strong_induction_on with
  | _ e ih =>
    by_cases h : e = 0
    · subst h; decide
    · have := ih (e / 2) (by omega)
      rw [bitLength_pos h, Nat.pow_succ]
      omega

/-! ## BinaryCombine (41_modular_exponentiation.md R110) -/

theorem combineLoop_pass (comb : Nat → Nat → Nat → Nat) (m acc base : Nat) {e : Nat} (he : e ≠ 0) :
    combineLoop comb m (bitLength e) acc base e =
      combineLoop comb m (bitLength (e / 2)) (if e % 2 = 1 then comb acc base m else acc) (comb base base m) (e / 2) := by
  rw [bitLength_pos he]
  simp only [combineLoop, if_neg he]

theorem combineLoop_done (comb : Nat → Nat → Nat → Nat) (m acc base : Nat) :
    combineLoop comb m (bitLength 0) acc base 0 = acc := rfl

/-! ## Euclid (44_number_theory.md R140, R141) -/

theorem gcdLoop_fuel : ∀ (f g a b : Nat), b ≤ f → b ≤ g → gcdLoop f a b = gcdLoop g a b := by
  intro f
  induction f with
  | zero =>
    intro g a b hf _
    obtain rfl : b = 0 := by omega
    cases g <;> simp [gcdLoop]
  | succ f ih =>
    intro g a b hf hg
    by_cases hb : b = 0
    · subst hb
      cases g <;> simp [gcdLoop]
    · obtain ⟨g, rfl⟩ : ∃ k, g = k + 1 := ⟨g - 1, by omega⟩
      have := Nat.mod_lt a (Nat.pos_of_ne_zero hb)
      simp only [gcdLoop, if_neg hb]
      exact ih g b (a % b) (by omega) (by omega)

/-- Euclid's loop. -/
theorem gcdF_eq (a b : Nat) : gcdF a b = if b = 0 then a else gcdF b (a % b) := by
  unfold gcdF
  by_cases hb : b = 0
  · subst hb; rfl
  · have := Nat.mod_lt a (Nat.pos_of_ne_zero hb)
    obtain ⟨k, rfl⟩ : ∃ k, b = k + 1 := ⟨b - 1, by omega⟩
    rw [if_neg hb]
    simp only [gcdLoop, if_neg hb]
    exact gcdLoop_fuel _ _ _ _ (by omega) (Nat.le_refl _)

theorem xgcdLoop_fuel : ∀ (f g a b : Nat), b ≤ f → b ≤ g → xgcdLoop f a b = xgcdLoop g a b := by
  intro f
  induction f with
  | zero =>
    intro g a b hf _
    obtain rfl : b = 0 := by omega
    cases g <;> simp [xgcdLoop]
  | succ f ih =>
    intro g a b hf hg
    by_cases hb : b = 0
    · subst hb
      cases g <;> simp [xgcdLoop]
    · obtain ⟨g, rfl⟩ : ∃ k, g = k + 1 := ⟨g - 1, by omega⟩
      have := Nat.mod_lt a (Nat.pos_of_ne_zero hb)
      simp only [xgcdLoop, if_neg hb]
      rw [ih g b (a % b) (by omega) (by omega)]

/-- The recursion of the extended gcd at b = 0. -/
theorem xgcdF_zero (a : Nat) : xgcdF a 0 = ⟨a, 1, 0⟩ := rfl

/-- The recursion of the extended gcd at b > 0. -/
theorem xgcdF_pos (a : Nat) {b : Nat} (hb : b ≠ 0) :
    xgcdF a b =
      ⟨(xgcdF b (a % b)).g, (xgcdF b (a % b)).y, (xgcdF b (a % b)).x - (a / b : Nat) * (xgcdF b (a % b)).y⟩ := by
  unfold xgcdF
  have := Nat.mod_lt a (Nat.pos_of_ne_zero hb)
  obtain ⟨k, rfl⟩ : ∃ k, b = k + 1 := ⟨b - 1, by omega⟩
  rw [show xgcdLoop (k + 1) a (k + 1) = ⟨(xgcdLoop k (k + 1) (a % (k + 1))).g, (xgcdLoop k (k + 1) (a % (k + 1))).y,
    (xgcdLoop k (k + 1) (a % (k + 1))).x - (a / (k + 1) : Nat) * (xgcdLoop k (k + 1) (a % (k + 1))).y⟩ by
      simp [xgcdLoop]]
  rw [xgcdLoop_fuel k (a % (k + 1)) _ _ (by omega) (Nat.le_refl _)]

/-! ## The totient (44_number_theory.md R142) -/

theorem bitLength_mono_div {m p : Nat} (hm : m ≠ 0) (hp : 2 ≤ p) : bitLength (m / p) < bitLength m := by
  have h : m / p ≤ m / 2 := Nat.div_le_div_left hp (by decide)
  have mono : ∀ a b : Nat, a ≤ b → bitLength a ≤ bitLength b := by
    intro a b hab
    unfold bitLength
    by_cases ha : a = 0
    · simp [ha]
    · have hb : b ≠ 0 := by omega
      rw [if_neg ha, if_neg hb]
      exact Nat.succ_le_succ (by
        rw [Nat.le_log2 hb]
        exact Nat.le_trans ((Nat.le_log2 ha).mp (Nat.le_refl _)) hab)
  have := mono _ _ h
  have := bitLength_pos hm
  omega

theorem stripLoop_fuel {p : Nat} (hp : 2 ≤ p) :
    ∀ (f g phi m : Nat), m ≠ 0 → bitLength m ≤ f → bitLength m ≤ g → stripLoop p f phi m = stripLoop p g phi m := by
  intro f
  induction f with
  | zero =>
    intro g phi m hm hf _
    have := bitLength_pos hm
    omega
  | succ f ih =>
    intro g phi m hm hf hg
    have hb := bitLength_pos hm
    obtain ⟨g, rfl⟩ : ∃ k, g = k + 1 := ⟨g - 1, by omega⟩
    simp only [stripLoop]
    by_cases h : m % p = 0
    · have := bitLength_mono_div hm hp
      have hq : m / p ≠ 0 := by
        have := Nat.div_add_mod m p
        intro h0
        rw [h0, h] at this
        omega
      rw [if_pos h, if_pos h]
      exact ih g _ _ hq (by omega) (by omega)
    · rw [if_neg h, if_neg h]

/-- The inner loop on a cofactor m > 0. -/
theorem stripLoop_pass {p : Nat} (hp : 2 ≤ p) (phi : Nat) {m : Nat} (hm : m ≠ 0) :
    stripLoop p (bitLength m) phi m =
      if m % p = 0 then stripLoop p (bitLength (m / p)) (phi * p) (m / p) else (phi, m) := by
  rw [bitLength_pos hm]
  simp only [stripLoop]
  by_cases h : m % p = 0
  · have := bitLength_mono_div hm hp
    have hb := bitLength_pos hm
    have hq : m / p ≠ 0 := by
      have := Nat.div_add_mod m p
      intro h0
      rw [h0, h] at this
      omega
    rw [if_pos h, if_pos h]
    exact stripLoop_fuel hp _ _ _ _ hq (by omega) (Nat.le_refl _)
  · rw [if_neg h, if_neg h]

theorem totientLoop_fuel (n : Nat) :
    ∀ (f g phi m p : Nat), n < (p + f) * (p + f) → n < (p + g) * (p + g) →
      totientLoop n f phi m p = totientLoop n g phi m p := by
  intro f
  induction f with
  | zero =>
    intro g phi m p hf _
    have : ¬ p * p ≤ n := by simpa using hf
    cases g with
    | zero => rfl
    | succ g => simp [totientLoop, this]
  | succ f ih =>
    intro g phi m p hf hg
    by_cases h : p * p ≤ n
    · cases g with
      | zero =>
        have hg' : n < p * p := by simpa using hg
        omega
      | succ g =>
        simp only [totientLoop, if_pos h]
        apply ih
        · rwa [show p + 1 + f = p + (f + 1) by omega]
        · rwa [show p + 1 + g = p + (g + 1) by omega]
    · cases g with
      | zero => simp [totientLoop, h]
      | succ g => simp [totientLoop, h]

/-! ## The binary inverse (42_modular_inverse.md R121) -/

/-- Halving stops on an odd number. -/
theorem halve_odd {u : Nat} (h : u % 2 = 1) (n : Nat) (x : Int) : halve n u x = (u, x) := by
  have hu : u ≠ 0 := by omega
  unfold halve
  rw [bitLength_pos hu]
  simp [halveLoop, h]

theorem halve_even {u : Nat} (h : u % 2 = 0) (hu : u ≠ 0) (n : Nat) (x : Int) :
    halve n u x = halve n (u / 2) (half x n) := by
  unfold halve
  rw [bitLength_pos hu]
  simp only [halveLoop, if_pos h]

/-- Halving lowers a positive number no further than its odd part. -/
theorem halve_le (n : Nat) (u : Nat) (x : Int) : (halve n u x).1 ≤ u := by
  have : ∀ f u x, (halveLoop n f u x).1 ≤ u := by
    intro f
    induction f with
    | zero => intro u x; exact Nat.le_refl _
    | succ f ih =>
      intro u x
      simp only [halveLoop]
      split
      · exact Nat.le_trans (ih _ _) (Nat.div_le_self _ _)
      · exact Nat.le_refl _
  exact this _ _ _

theorem halve_pos (n : Nat) {u : Nat} (hu : u ≠ 0) (x : Int) : (halve n u x).1 ≠ 0 := by
  have : ∀ f u x, u ≠ 0 → (halveLoop n f u x).1 ≠ 0 := by
    intro f
    induction f with
    | zero => intro u x h; exact h
    | succ f ih =>
      intro u x h
      simp only [halveLoop]
      split
      · exact ih _ _ (by omega)
      · exact h
  exact this _ _ _ hu

theorem binInvLoop_fuel (n : Nat) :
    ∀ (f g u v : Nat) (x1 x2 : Int), u + v < f → u + v < g →
      binInvLoop n f u v x1 x2 = binInvLoop n g u v x1 x2 := by
  intro f
  induction f with
  | zero => intro g u v x1 x2 hf; omega
  | succ f ih =>
    intro g u v x1 x2 hf hg
    obtain ⟨g, rfl⟩ : ∃ k, g = k + 1 := ⟨g - 1, by omega⟩
    simp only [binInvLoop]
    split
    · rfl
    · split
      · rfl
      · split
        · rfl
        · rename_i h
          have hu : u ≠ 0 := fun e => h (.inl e)
          have hv : v ≠ 0 := fun e => h (.inr e)
          have := halve_le n u x1
          have := halve_le n v x2
          have := halve_pos n hu x1
          have := halve_pos n hv x2
          split
          · exact ih _ _ _ _ _ (by omega) (by omega)
          · exact ih _ _ _ _ _ (by omega) (by omega)

/-! ## Miller-Rabin (43_primality.md R130) -/

theorem splitTwos_odd {d : Nat} (h : d % 2 = 1) (s : Nat) : splitTwos (bitLength d) d s = (d, s) := by
  have hd : d ≠ 0 := by omega
  rw [bitLength_pos hd]
  simp [splitTwos, h]

theorem splitTwos_even {d : Nat} (h : d % 2 = 0) (hd : d ≠ 0) (s : Nat) :
    splitTwos (bitLength d) d s = splitTwos (bitLength (d / 2)) (d / 2) (s + 1) := by
  rw [bitLength_pos hd]
  simp only [splitTwos, if_pos h]

/-! ## Scalar multiplication (45_elliptic_curve.md R157, R158) -/

theorem pointMulLoop_done (add : Pt → Pt → Except ErrorCode Pt) (acc run : Pt) :
    pointMulLoop add (bitLength 0) acc run 0 = .ok acc := rfl

theorem pointMulLoop_pass (add : Pt → Pt → Except ErrorCode Pt) (acc run : Pt) {e : Nat} (he : e ≠ 0) :
    pointMulLoop add (bitLength e) acc run e =
      match (if e % 2 = 1 then add acc run else .ok acc) with
      | .error c => .error c
      | .ok acc' =>
        match add run run with
        | .error c => .error c
        | .ok run' => pointMulLoop add (bitLength (e / 2)) acc' run' (e / 2) := by
  rw [bitLength_pos he]
  exact if_neg he

end Sys2Proof.Machine
end

