-- ==== Sys2Proof/Laws/PerInstr.lean ====
section
/-! SUPPORT. Per command: what its encoded word holds (30_encoding.md R70, R74, R75). -/

namespace Sys2Proof.Laws.Encoding

/-- The word of a command carries its opcode, RSV = 0 and its fields, and is the word of no other command. -/
def Statement (i : Instr) : Prop :=
  opOf (encode i) = i.mnemonic.op ∧ rsvOf (encode i) = 0#5 ∧ fieldsOf (encode i) = i.fields ∧
    ∀ j : Instr, encode j = encode i → j = i

/-- An opcode belongs to one mnemonic. -/
theorem op_injective {a b : Mnemonic} (h : a.op = b.op) : a = b := by
  have := congrArg opRow h
  rw [opRow_op, opRow_op] at this
  exact Option.some.inj this

theorem statement (i : Instr) : Statement i := by
  refine ⟨opOf_pack _ _, rsvOf_pack _ _, fieldsOf_pack _ _, fun j h => ?_⟩
  have ho : j.mnemonic.op = i.mnemonic.op := by simpa [encode] using congrArg opOf h
  have hf : j.fields = i.fields := by simpa [encode] using congrArg fieldsOf h
  rw [← build_fields j, ← build_fields i, hf, op_injective ho]

theorem nop : Statement .nop := statement _
theorem addmod (fd fa fb fm : Field) : Statement (.addmod fd fa fb fm) := statement _
theorem submod (fd fa fb fm : Field) : Statement (.submod fd fa fb fm) := statement _
theorem mulmod (fd fa fb fm : Field) : Statement (.mulmod fd fa fb fm) := statement _
theorem powmod (fd fa fb fm : Field) : Statement (.powmod fd fa fb fm) := statement _
theorem inve (fd fa fm : Field) : Statement (.inve fd fa fm) := statement _
theorem invb (fd fa fm : Field) : Statement (.invb fd fa fm) := statement _
theorem invf (fd fa fm : Field) : Statement (.invf fd fa fm) := statement _
theorem mrround (fd fa fm : Field) : Statement (.mrround fd fa fm) := statement _
theorem mrprime (fd fm : Field) : Statement (.mrprime fd fm) := statement _
theorem gcd (fd fa fb : Field) : Statement (.gcd fd fa fb) := statement _
theorem xgcd (fd fa fb : Field) : Statement (.xgcd fd fa fb) := statement _
theorem totient (fd fa : Field) : Statement (.totient fd fa) := statement _
theorem padd (fd fa fb fm fc : Field) (l : Bool) : Statement (.padd fd fa fb fm fc l) := statement _
theorem pdbl (fd fa fm fc : Field) (l : Bool) : Statement (.pdbl fd fa fm fc l) := statement _
theorem pmul (fd fa fb fm fc : Field) (l : Bool) : Statement (.pmul fd fa fb fm fc l) := statement _

end Sys2Proof.Laws.Encoding
end

