-- ==== Sys2Proof/Tests/Slice0.lean ====
section
/-! SUPPORT. Tests: ill-formed commands, words written out from the encoding tables, vectors of 95_test_vectors.md, and for each
statement with hypotheses a state and operands that meet them. Expected values are the spec's. -/

namespace Sys2Proof.Tests

open Sys2Proof.Machine

/- One test after the other. A kernel `decide` waits for every theorem before it to be checked; elaborated side by side, the
tests of this file would hold a waiting thread each, and the stacks of those threads would reach the memory limit of the check. -/
set_option Elab.async false

/-! ## Helpers -/

/-- The reset state with some data registers written. -/
def withD (ds : List (Field × Nat)) : State := ds.foldl (fun s x => s.setData x.1 x.2) State.reset

/-- A state with some point registers written, too. -/
def withP (ps : List (Field × Pt)) (s : State) : State := ps.foldl (fun s x => s.setPoint x.1 x.2) s

/-- One step on the command word `w` from `s` ends in a next state that passes the test. -/
def runs (s : State) (w : Nat) (p : State → Bool) : Bool := nextHas (step (s.withFetchWord 32 w)) p

/-- The command completed with code 0 and data register `f` holds `v`. -/
def gives (f : Field) (v : Nat) (t : State) : Bool :=
  !t.busy && t.done && t.ecode == 0 && t.d[dIdx f] == ⟨v, true⟩

/-- The command completed with code 0 and point register `f` holds the affine pair. -/
def givesPt (f : Field) (x y : Nat) (t : State) : Bool :=
  !t.busy && t.done && t.ecode == 0 && t.p[pIdx f] == ⟨⟨x, true⟩, ⟨y, true⟩, ⟨false, true⟩⟩

/-- The command completed with code 0 and point register `f` holds `O`. -/
def givesO (f : Field) (t : State) : Bool :=
  !t.busy && t.done && t.ecode == 0 && t.p[pIdx f] == ⟨⟨0, true⟩, ⟨0, true⟩, ⟨true, true⟩⟩

/-- The command completed with a code and wrote no register. -/
def raises (e : BitVec 4) (s t : State) : Bool :=
  !t.busy && t.done && t.ecode == e && t.err && t.d == s.d && t.p == s.p

/-- STATUS after a step. -/
def statusIs (v : Nat) (t : State) : Bool := t.statusWord == v

/-- A latched command with data operands. -/
def lat (a b m : Nat) : Latch := ⟨.nop, ⟨a, b, m, 0, .infinity, .infinity⟩, 20, 0, none⟩

/-- A latched command with point operands. -/
def latP (p q : Pt) (b A m : Nat) : Latch := ⟨.nop, ⟨0, b, m, A, p, q⟩, 20, 0, none⟩

/-- The reset state with a command in execution. -/
def on (l : Latch) : State := { State.reset with latch := some l }

theorem on_latch (l : Latch) : (on l).latch = some l := rfl

/-- A state whose host is about to execute a statement, one line further labelled 7. -/
def atStmt (st : Stmt) : State := { State.reset with host := ⟨[⟨none, st⟩, ⟨some 7, .halt⟩], 0, [], false⟩ }

/-! ## Well-formedness: an ill-formed term for each check (30_encoding.md R71) -/

theorem test_padd_fd_illformed : (Instr.padd 4 0 1 0 1 false).wellFormed = false := by decide
theorem test_padd_fa_illformed : (Instr.padd 0 4 1 0 1 false).wellFormed = false := by decide
theorem test_padd_fb_illformed : (Instr.padd 0 1 15 0 1 true).wellFormed = false := by decide
theorem test_pdbl_fd_illformed : (Instr.pdbl 8 0 0 1 false).wellFormed = false := by decide
theorem test_pdbl_fa_illformed : (Instr.pdbl 0 4 0 1 false).wellFormed = false := by decide
theorem test_pmul_fd_illformed : (Instr.pmul 4 0 0 0 1 false).wellFormed = false := by decide
theorem test_pmul_fa_illformed : (Instr.pmul 0 12 0 0 1 false).wellFormed = false := by decide
theorem test_pmul_fb_any : (Instr.pmul 3 0 15 0 1 false).wellFormed = true := by decide

/-! ## Decoding: one word per command, written out by the fields of 30_encoding.md R70 -/

theorem test_decode_nop : decode 0b000000_0000_0000_0000_0000_0000_0_00000 = .cmd .nop := by decide
theorem test_decode_addmod : decode 0b000001_0011_0001_0010_0000_0000_0_00000 = .cmd (.addmod 3 1 2 0) := by decide
theorem test_decode_submod : decode 0b000010_0110_0100_0101_1110_0000_0_00000 = .cmd (.submod 6 4 5 14) := by decide
theorem test_decode_mulmod : decode 0b000100_0011_0001_0010_1111_0000_0_00000 = .cmd (.mulmod 3 1 2 15) := by decide
theorem test_decode_powmod : decode 0b000101_0100_0001_0010_0011_0000_0_00000 = .cmd (.powmod 4 1 2 3) := by decide
theorem test_decode_inve : decode 0b001000_0011_0001_0000_0010_0000_0_00000 = .cmd (.inve 3 1 2) := by decide
theorem test_decode_invb : decode 0b001001_0011_1001_0000_0010_0000_0_00000 = .cmd (.invb 3 9 2) := by decide
theorem test_decode_invf : decode 0b001010_1100_0001_0000_0010_0000_0_00000 = .cmd (.invf 12 1 2) := by decide
theorem test_decode_mrround : decode 0b001100_0011_0001_0000_1010_0000_0_00000 = .cmd (.mrround 3 1 10) := by decide
theorem test_decode_mrprime : decode 0b001101_0011_0000_0000_0101_0000_0_00000 = .cmd (.mrprime 3 5) := by decide
theorem test_decode_gcd : decode 0b010000_1000_0010_0110_0000_0000_0_00000 = .cmd (.gcd 8 2 6) := by decide
theorem test_decode_xgcd : decode 0b010001_1111_0001_0010_0000_0000_0_00000 = .cmd (.xgcd 15 1 2) := by decide
theorem test_decode_totient : decode 0b010010_0110_0011_0000_0000_0000_0_00000 = .cmd (.totient 6 3) := by decide
theorem test_decode_padd : decode 0b011000_0010_0000_0001_0000_0001_1_00000 = .cmd (.padd 2 0 1 0 1 true) := by decide
theorem test_decode_pdbl : decode 0b011001_0001_0011_0000_0010_1001_0_00000 = .cmd (.pdbl 1 3 2 9 false) := by decide
theorem test_decode_pmul : decode 0b011010_0011_0000_1111_0000_0001_0_00000 = .cmd (.pmul 3 0 15 0 1 false) := by decide

/-- 95_test_vectors.md 2.1, the legal words. -/
theorem test_legal_words :
    decode 0x20C40800 = .cmd (.inve 3 1 2) ∧ decode 0x60000000 = .cmd (.padd 0 0 0 0 0 false) ∧
    decode 0x64400040 = .cmd (.pdbl 1 0 0 1 false) ∧ decode 0x68408040 = .cmd (.pmul 1 0 2 0 1 false) ∧
    decode 0x68408060 = .cmd (.pmul 1 0 2 0 1 true) := by decide

/-- 95_test_vectors.md 2.1, the illegal words. -/
theorem test_illegal_words :
    decode 0x00000001 = .illegal .reservedBits ∧ decode 0x04C48001 = .illegal .reservedBits ∧
    decode 0x04C48020 = .illegal .badField ∧ decode 0x04C48040 = .illegal .badField ∧
    decode 0x0C000000 = .illegal .reservedOpcode ∧ decode 0xFC000000 = .illegal .reservedOpcode ∧
    decode 0x20C44800 = .illegal .badField ∧ decode 0x61000000 = .illegal .badField ∧
    decode 0x64404040 = .illegal .badField ∧ decode 0x6C000000 = .illegal .reservedOpcode := by decide

/-- 95_test_vectors.md 2.1, the word of a core with W = 64: illegal, completed at acceptance with STATUS 0x66 (2.8). -/
theorem test_high_bit :
    decode 0x100000000 = .illegal .highBits ∧
    ((State.resetOf ⟨4⟩).slotWrite 0x19 0x100000000).statusWord = 0x66 := by decide

/-- With W = 64 the ID register's low byte is W/8 = 8 (10_state.md R33). -/
theorem test_id_64 : (State.resetOf ⟨4⟩).slotWord 0x1D = 0x43460108 := by decide

/-- Encodings of 95_test_vectors.md section 3. -/
theorem test_encode_programs :
    encodeWord (.totient 6 0) = 0x49800000 ∧ encodeWord (.gcd 8 2 6) = 0x42098000 ∧ encodeWord (.inve 7 2 6) = 0x21C81800 ∧
    encodeWord (.powmod 5 4 7 0) = 0x1551C000 ∧ encodeWord (.pmul 3 1 3 0 1 false) = 0x68C4C040 ∧
    encodeWord (.padd 3 3 0 0 1 false) = 0x60CC0040 ∧ encodeWord (.submod 6 4 5 0) = 0x09914000 ∧
    encodeWord (.submod 0 0 1 2) = 0x08004800 := by decide

/-! ## Assembler syntax (30_encoding.md R88, R89, R91) -/

theorem test_assemble_padd : (assemble .padd true [.p 2, .p 0, .p 1, .d 1, .d 0]).map encodeWord = some 0x60804060 := by decide
theorem test_assemble_pmul : (assemble .pmul false [.p 3, .p 0, .d 15, .d 1, .d 0]).map encodeWord = some 0x68C3C040 := by decide
theorem test_assemble_suffix : assemble .addmod true [.d 3, .d 1, .d 2, .d 0] = none := by decide
theorem test_wait_lines :
    waitLines 9 4 = [⟨some 4, .rd 9 0x1A⟩, ⟨none, .bne (.bits (.var 9) 0 0) (.lit 0) 4⟩] := by decide

/-! ## One step per command, vectors of 95_test_vectors.md 2.2 to 2.8 -/

theorem test_nop : runs State.reset 0x00000000 (statusIs 0x00000002) = true := by decide +kernel
theorem test_nop_irq : runs (State.reset.slotWrite 0x1B 1) 0x00000000 (statusIs 0x00000102) = true := by decide +kernel

/-- The sum needs W + 1 bits: the vector of 2.2, and the same one with W = 64 (00_scope.md R6). -/
theorem test_addmod_wide :
    runs (withD [(1, 0xFFFFFFFE), (2, 0xFFFFFFFE), (0, 0xFFFFFFFF)]) 0x04C48000 (gives 3 0xFFFFFFFD) = true ∧
    nextHas (exec (.addmod 3 1 2 0) { State.resetOf ⟨4⟩ with latch := some (lat (2 ^ 64 - 2) (2 ^ 64 - 2) (2 ^ 64 - 1)) })
      (gives 3 (2 ^ 64 - 3)) = true := by decide +kernel
theorem test_addmod_zero :
    runs (withD [(1, 5), (2, 6), (0, 0)]) 0x04C48000 (raises 2 (withD [(1, 5), (2, 6), (0, 0)])) = true := by decide +kernel

/-- b is at least m. -/
theorem test_submod_unreduced :
    runs (withD [(4, 0), (5, 0xFFFFFFFF), (0, 0xFFFFFFFE)]) 0x09914000 (gives 6 0xFFFFFFFD) = true := by decide +kernel
theorem test_submod_negate : runs (withD [(4, 0), (5, 19), (0, 97)]) 0x09914000 (gives 6 78) = true := by decide +kernel

theorem test_mulmod :
    runs (withD [(1, 0xFFFFFFFF), (2, 0xFFFFFFFF), (0, 0xFFFFFFFB)]) 0x10C48000 (gives 3 16) = true := by decide +kernel
theorem test_mulmod_zero :
    runs (withD [(1, 6), (2, 7), (0, 0)]) 0x10C48000 (raises 2 (withD [(1, 6), (2, 7), (0, 0)])) = true := by decide +kernel

theorem test_powmod : runs (withD [(1, 42), (2, 5), (0, 221)]) 0x15048000 (gives 4 9) = true := by decide +kernel
theorem test_powmod_one : runs (withD [(1, 0), (2, 0), (0, 1)]) 0x15048000 (gives 4 0) = true := by decide +kernel

theorem test_inve : runs (withD [(1, 5), (2, 192)]) 0x20C40800 (gives 3 77) = true := by decide +kernel
theorem test_inve_gcd :
    runs (withD [(1, 6), (2, 9)]) 0x20C40800 (raises 1 (withD [(1, 6), (2, 9)])) = true := by decide +kernel

theorem test_invb : runs (withD [(1, 2), (2, 0xFFFFFFFB)]) 0x24C40800 (gives 3 2147483646) = true := by decide +kernel
theorem test_invb_even :
    runs (withD [(1, 5), (2, 192)]) 0x24C40800 (raises 5 (withD [(1, 5), (2, 192)])) = true := by decide +kernel

theorem test_invf : runs (withD [(1, 5), (2, 192)]) 0x28C40800 (gives 3 169) = true := by decide +kernel
theorem test_invf_zero :
    runs (withD [(1, 9), (2, 9)]) 0x28C40800 (raises 1 (withD [(1, 9), (2, 9)])) = true := by decide +kernel

/-- T5.2 and T5.9. -/
theorem test_mrround_liar : runs (withD [(1, 21), (2, 221)]) 0x30C40800 (gives 3 1) = true := by decide +kernel
theorem test_mrround_carmichael : runs (withD [(1, 2), (2, 561)]) 0x30C40800 (gives 3 0) = true := by decide +kernel

/-- T5.15: 100 is settled with no request. -/
theorem test_mrprime_even :
    runs (withD [(0, 100)]) 0x34C00000 (fun t => gives 3 0 t && t.rng.asked == 0) = true := by decide +kernel

/-- T5.17: on 221 with ROUNDS = 1 the answer 20 makes the witness 21, which passes. -/
theorem test_mrprime_round :
    nextHas (exec (.mrprime 3 0) (on ⟨.mrprime 3 0, ⟨0, 0, 221, 0, .infinity, .infinity⟩, 1, 0, some 20⟩)) (gives 3 1) = true := by
  decide +kernel

theorem test_gcd : runs (withD [(2, 0xFFFFFFFF), (6, 0xFFFF)]) 0x42098000 (gives 8 0xFFFF) = true := by decide +kernel
theorem test_gcd_zero : runs (withD [(2, 0), (6, 9)]) 0x42098000 (gives 8 9) = true := by decide +kernel

/-- The destinations of XGCD wrap after D15. -/
theorem test_xgcd_wrap :
    runs (withD [(1, 240), (2, 46)]) 0x47C48000 (fun t => gives 15 2 t && gives 0 0xFFFFFFF7 t && gives 1 47 t) = true := by
  decide +kernel
theorem test_xgcd_limit :
    runs (withD [(1, 2), (2, 0xFFFFFFFF)]) 0x44048000
      (fun t => gives 0 1 t && gives 1 0x80000001 t && gives 2 1 t) = true := by decide +kernel

theorem test_totient : runs (withD [(0, 221)]) 0x49800000 (gives 6 192) = true := by decide +kernel
theorem test_totient_zero : runs (withD [(0, 0)]) 0x49800000 (raises 5 (withD [(0, 0)])) = true := by decide +kernel

/-- The chord (0, 1) + (73, 11) of program 2's curve, on P2 and P3 with m in D0 and A in D1. -/
theorem test_padd_chord :
    runs (withP [(3, .affine 0 1), (0, .affine 73 11)] (withD [(0, 97), (1, 1)])) 0x60CC0040 (givesPt 3 72 29) = true := by
  decide +kernel

/-- (0, 1) + (0, 96): O by default. -/
theorem test_padd_opposite :
    runs (withP [(3, .affine 0 1), (0, .affine 0 96)] (withD [(0, 97), (1, 1)])) 0x60CC0040 (givesO 3) = true := by
  decide +kernel

/-- A = 96, that is -1. -/
theorem test_pdbl : runs (withP [(0, .affine 0 1)] (withD [(0, 97), (1, 96)])) 0x64400040 (givesPt 1 73 84) = true := by
  decide +kernel
/-- A vertical tangent in legacy mode. -/
theorem test_pdbl_legacy :
    runs (withP [(0, .affine 3 0)] (withD [(0, 97), (1, 1)])) 0x64400060 (givesPt 1 3 0) = true := by decide +kernel

/-- On m = 15 the doubling of (1, 1) has slope 4/2, and the next, of (2, 12), has 2*12 mod 15 = 9, which shares 3 with 15: code
1 from the last doubling of k = 2 (45_elliptic_curve.md R157). -/
theorem test_pmul_last_doubling :
    runs (withP [(0, .affine 1 1)] (withD [(0, 15), (1, 1), (2, 2)])) 0x68408040
      (raises 1 (withP [(0, .affine 1 1)] (withD [(0, 15), (1, 1), (2, 2)]))) = true := by decide +kernel

/-- 97 G, by default and in legacy mode (90_conflicts.md C2). -/
theorem test_pmul :
    runs (withP [(0, .affine 0 1)] (withD [(0, 97), (1, 1), (2, 97)])) 0x68408040 (givesO 1) = true ∧
    runs (withP [(0, .affine 0 1)] (withD [(0, 97), (1, 1), (2, 97)])) 0x68408060 (givesPt 1 80 55) = true := by decide +kernel

/-! ## Control and status, vectors of 95_test_vectors.md 2.8 -/

theorem test_reset_reads :
    State.reset.slotWord 0x1A = 0 ∧ State.reset.slotWord 0x1D = 0x43460104 ∧ State.reset.slotWord 0x1C = 20 ∧
    State.reset.slotWord 0x1B = 0 := by decide
theorem test_ack : (((State.reset.slotWrite 0x1B 1).finish 0).slotWrite 0x1B 3).statusWord = 0 := by decide
theorem test_illegal_word_status : (State.reset.slotWrite 0x19 0x04C48001).statusWord = 0x66 := by decide
theorem test_sticky_error : runs (State.reset.slotWrite 0x19 0x04C48001) 0 (statusIs 0x06) = true := by decide +kernel
theorem test_clear_error :
    (({ State.reset with done := true, err := true }).slotWrite 0x1B 4).statusWord = 0x02 := by decide
theorem test_rounds_zero : (State.reset.slotWrite 0x1C 0).slotWord 0x1C = 20 := by decide
theorem test_rounds_cut : (State.reset.slotWrite 0x1C 0x1FF).slotWord 0x1C = 0xFF := by decide
theorem test_read_only : State.reset.slotWrite 0x1D 5 = State.reset ∧ State.reset.slotWrite 0x1A 5 = State.reset := by decide
theorem test_busy_write :
    ((on (lat 1 2 3)).slotWrite 0x00 5).haz = true ∧ ((on (lat 1 2 3)).slotWrite 0x00 5).d = State.reset.d := by decide
theorem test_soft_reset :
    ((withD [(0, 7)]).slotWrite 0x1B 8).d = (withD [(0, 7)]).d ∧ ((on (lat 1 2 3)).slotWrite 0x1B 8).statusWord = 0 ∧
    (({ on (lat 1 2 3) with rounds := 3 }).slotWrite 0x1B 8).rounds = 20 := by decide
theorem test_read_unwritten : (State.reset.hostRead 0 0x00).modelFault = true := by decide
theorem test_accept_unwritten : (State.reset.slotWrite 0x19 0x04C48000).modelFault = true := by decide
theorem test_illegal_no_fault : (State.reset.slotWrite 0x19 0x04C48001).modelFault = false := by decide

/-- Program 4's `h0 = 0x116`: IRQ, code 1, ERR, DONE. -/
theorem test_error_irq :
    runs ((withD [(1, 6), (2, 9)]).slotWrite 0x1B 1) 0x20C40800 (statusIs 0x116) = true := by decide +kernel

/-! ## Host scripts -/

theorem test_bits : Expr.eval [(0, 0x66)] (.bits (.var 0) 7 4) = 6 ∧ Expr.eval [] (.and (.lit (-1)) (.lit 255)) = 255 := by
  decide +kernel
theorem test_host_write : nextHas (hostTurn (atStmt (.wr 0x00 (.lit 221)))) (fun t => t.d[0] == ⟨221, true⟩) = true := by decide
theorem test_host_branch : nextHas (hostTurn (atStmt (.bne (.lit 1) (.lit 0) 7))) (fun t => t.host.pos == 1) = true := by decide
/-- HALT on an idle core ends the run: unwritten slots are not observed, CMD and ROUNDS are (70_reset_and_hazards.md R222). -/
theorem test_end_of_run :
    nextHas (hostTurn (atStmt .halt)) (fun t =>
      t.ended.any (fun o => !o.modelFault && o.slots[0]? == some none && o.slots[0x19]? == some (some 0)
        && o.slots[0x1C]? == some (some 20))) = true := by decide +kernel

/-- HALT while BUSY is 1 is no end; the completion is (70_reset_and_hazards.md R222), and a power-on reset is none. -/
theorem test_end_at_completion :
    nextHas (hostTurn { atStmt .halt with latch := some (lat 1 2 3) }) (fun t =>
      t.ended == none && nextHas (takeTurn .core t) (fun u => u.ended.any (fun o => o.slots[0x1A]? == some (some 2)))
        && nextHas (takeTurn .powerOn t) (fun u => u.ended == none && nextHas (takeTurn .core u) (fun v => v.ended == none)))
      = true := by decide +kernel

theorem test_host_no_label : refusedFor (hostTurn (atStmt (.beq (.lit 0) (.lit 0) 8))) .unknownLabel = true := by decide

/-! ## Witnesses: states and operands that meet a statement's hypotheses, a clause each, at the ends of their ranges -/

/-- An MRPRIME on 99 that has asked for its first witness. -/
def asking : State :=
  { on ⟨.mrprime 3 0, ⟨0, 0, 99, 0, .infinity, .infinity⟩, 20, 0, none⟩ with
    cmd := 0x34C00000, rng := ⟨1, some 0, []⟩, schedule := [.rng 0 5] }

theorem asking_words : asking.WordsFit := by
  refine ⟨by decide, by decide, by decide, by decide, ?_⟩
  intro l h
  obtain rfl : _ = l := Option.some.inj h
  exact ⟨⟨by decide, by decide, by decide, by decide, trivial, trivial⟩, by decide⟩

theorem witness_step_keeps_invariant : asking.Inv ∧ ∃ t, step asking = .next t := by
  refine ⟨⟨by decide, by decide, ?_, ?_, by decide, by decide, ⟨List.Pairwise.nil, by decide⟩, asking_words, by decide⟩, _,
    rfl⟩
  · intro l h
    obtain rfl : _ = l := Option.some.inj h
    exact ⟨by decide, by decide, rfl, rfl, by decide⟩
  · intro id h
    obtain rfl : 0 = id := Option.some.inj h
    exact ⟨by decide, by decide, _, rfl, by decide, rfl, by decide, by decide⟩

/-- The reset machine after its host's HALT, the end of the run noted (70_reset_and_hazards.md R222). -/
def runOver : State :=
  { State.reset with host := ⟨[], 0, [], true⟩, ended := some State.reset.observation }

theorem witness_end_kept : runOver.Inv ∧ (∃ t, step runOver = .next t) ∧ ∃ o, runOver.ended = some o := by
  refine ⟨⟨by decide, by decide, ?_, ?_, by decide, by decide, ⟨List.Pairwise.nil, by decide⟩,
    ⟨by decide, by decide, by decide, by decide, ?_⟩, fun _ => rfl⟩, ⟨_, rfl⟩, _, rfl⟩
  · intro l h
    cases h
  · intro id h
    cases h
  · intro l h
    cases h

theorem witness_id : State.reset.width.bytes < 256 ∧ State.reset.busy = false ∧ (on (lat 0 0 0)).busy = true := by decide

theorem witness_model_fault :
    (State.reset.hostRead 0 0x00).modelFault = true ∧ nextHas (step (State.reset.hostRead 0 0x00)) (fun _ => true) = true := by
  decide

theorem witness_step_runs :
    (on (lat 1 2 3)).latch = some (lat 1 2 3) ∧ nextTurn (on (lat 1 2 3)) = .core ∧ (on (lat 1 2 3)).host.halted = false ∧
    decodeTableWord 32 0x04C48000 = some (.addmod 3 1 2 0) := by decide

/-- No turn planned, a turn planned, and a core's turn with LATCH empty. -/
theorem witness_turns :
    State.reset.schedule = [] ∧ asking.schedule = .rng 0 5 :: [] ∧ State.reset.latch = none ∧
    nextTurn { State.reset with schedule := [.core] } = .core := by decide

theorem witness_goes_on : ∃ (s : State) (l : Latch), s.latch = some l := ⟨on (lat 0 0 0), _, on_latch _⟩

theorem witness_encoding :
    (Instr.padd 3 3 3 15 15 true).WellFormed ∧ (Instr.xgcd 15 15 15).WellFormed ∧
    decode 0x60FCFFE0 = .illegal .badField ∧ decode 0x60CCFFE0 = .cmd (.padd 3 3 3 15 15 true) := by decide

theorem witness_illegal : State.reset.busy = false ∧ decode 0x04C48001 = .illegal .reservedBits := by decide

theorem witness_rows :
    (0x68C3C040 : BitVec 32) &&& Mnemonic.pmul.form.mask = matchOf Mnemonic.pmul.op ∧
    (opOf 0x0C000000 = 0x03#6) ∧ opOf 0x4C000000 = 0x13#6 ∧ opOf 0x5C000000 = 0x17#6 ∧ opOf 0x6C000000 = 0x1B#6 := by decide

theorem witness_accept : State.reset.busy = false ∧ decode 0x04C48000 = .cmd (.addmod 3 1 2 0) := by decide

theorem witness_issue_addmod :
    (withD [(1, 5), (0, 7)]).busy = false ∧ (withD [(1, 5), (0, 7)]).d[dIdx 0].value ≠ 0 := by decide

theorem witness_register_writes : (0#4 : Field) ≠ 15 ∧ (0 : Fin 4) ≠ pIdx 3 := by decide

theorem witness_legal_point_field : (3 : Field) < 4 ∧ (0 : Field) < 4 := by decide

/-- An error completion, of INVE on (6, 9). -/
theorem witness_errors_precise :
    nextHas (exec (.inve 3 1 2) (on (lat 6 0 9))) (fun t => t.latch == none && t.ecode != 0) = true := by decide +kernel

theorem witness_sticky :
    ({ on (lat 6 0 9) with err := true }).err = true ∧
    nextHas (exec .nop { on (lat 6 0 9) with err := true }) (fun t => t.err) = true := by decide

theorem witness_data_frame :
    isPointCommand (.xgcd 15 1 2) = false ∧ (2 : Field) ∉ dataDests (.xgcd 15 1 2) ∧ isMrprime (.xgcd 15 1 2) = false ∧
    nextHas (exec (.xgcd 15 1 2) (on (lat 240 46 0))) (fun _ => true) = true ∧
    (15 : Field) ∉ dataDests .nop ∧ nextHas (exec .nop (on (lat 0 0 0))) (fun _ => true) = true := by decide +kernel

/-- An MRPRIME that has passed a round and asks again, and one that waits. -/
theorem witness_unfinished :
    isPointCommand (.mrprime 3 0) = false ∧
    nextHas (exec (.mrprime 3 0) (on ⟨.mrprime 3 0, ⟨0, 0, 97, 0, .infinity, .infinity⟩, 20, 0, some 0⟩))
      (fun t => t.latch.any (fun l => l.passed == 1)) = true ∧
    nextHas (exec (.mrprime 3 0) asking) (fun t => t.latch == asking.latch) = true := by decide +kernel

theorem witness_point_frame :
    isPointCommand (.pmul 3 0 15 0 1 false) = true ∧ (2 : Fin 4) ∉ (pointDests (.pmul 3 0 15 0 1 false)).map pIdx ∧
    nextHas (exec (.pmul 3 0 15 0 1 false) (on (latP (.affine 0 1) .infinity 3 1 97))) (fun _ => true) = true := by
  decide +kernel

theorem witness_irq :
    ({ State.reset with ie := true }).ie = true ∧ ({ State.reset with done := true }).done = true ∧
    (1 : Nat).testBit 0 = true ∧ (1 : Nat).testBit 1 = false ∧ (1 : Nat).testBit 3 = false := by decide

theorem witness_ctrl : (0xFFFFFFFF : Nat).testBit 3 = true ∧ (7 : Nat).testBit 3 = false := by decide

theorem witness_rounds :
    State.reset.busy = false ∧ decode 0x34C00000 = .cmd (.mrprime 3 0) ∧ (0x100 : Nat) % 256 = 0 ∧ (0x1FF : Nat) % 256 ≠ 0 ∧
    (on (lat 0 0 0)).busy = true := by decide

theorem witness_busy_write : (on (lat 0 0 0)).busy = true ∧ (0x1A : Slot) ≠ 0x1B := by decide

theorem witness_slot_write :
    State.reset.busy = false ∧ (0x17 : Slot) < 0x18 ∧ (0x18 : Slot) ≠ 0x19 ∧ (0x1C : Slot) ≠ 0x1B ∧ (0x1F : Slot) ≠ 0x1C := by
  decide

/-- A byte read at the end of the block, and an access before BASE that reaches into it. -/
theorem witness_partial_access :
    ∃ (addr : Int) (n : Nat), 0 < n ∧ addr < Config.base + 32 * State.reset.width.bytes ∧ Config.base < addr + n ∧
      ∀ k : Slot, ¬ (n = State.reset.width.bytes ∧ addr = Config.base + k.toNat * State.reset.width.bytes) :=
  ⟨Config.base + 127, 1, by decide, by simp [State.reset, State.resetOf, Width.w32, Width.bytes], by omega,
    fun k h => absurd h.1 (by decide)⟩

theorem witness_partial_before :
    ∃ (addr : Int) (n : Nat), 0 < n ∧ addr < Config.base + 32 * State.reset.width.bytes ∧ Config.base < addr + n ∧
      ∀ k : Slot, ¬ (n = State.reset.width.bytes ∧ addr = Config.base + k.toNat * State.reset.width.bytes) := by
  refine ⟨Config.base - 3, 4, by decide, ?_, by omega, ?_⟩
  · simp [State.reset, State.resetOf, Width.w32, Width.bytes]
    omega
  · rintro k ⟨_, h⟩
    simp [State.reset, State.resetOf, Width.w32, Width.bytes] at h
    omega

theorem witness_bus : asking.WordsFit ∧ Width.w32.Fits 0xFFFFFFFF := ⟨asking_words, by decide⟩

theorem witness_read : VarsOk State.reset.host.vars := ⟨List.Pairwise.nil, by decide⟩

/-- A host after HALT, a host with no statement left, and a branch whose label the script does not have. -/
theorem witness_host_idle :
    runOver.host.halted = true ∧ State.reset.host.script[State.reset.host.pos]? = none ∧
    labelPos (atStmt .halt).host.script 8 = none := by decide

/-- The ends of runs: HALT on an idle core, and a completion after HALT (70_reset_and_hazards.md R222). -/
theorem witness_end :
    ({ State.reset with host := ⟨[], 0, [], true⟩ }).host.halted = true ∧
    ({ State.reset with host := ⟨[], 0, [], true⟩ }).busy = false ∧
    ({ State.reset with host := ⟨[], 0, [], true⟩ }).ended = none := by decide

theorem witness_host (st : Stmt) : (atStmt st).host.halted = false ∧
    (atStmt st).host.script[(atStmt st).host.pos]? = some ⟨none, st⟩ ∧ labelPos (atStmt st).host.script 7 = some 1 := by
  exact ⟨rfl, rfl, rfl⟩

theorem witness_rng :
    asking.rng.pending = some 0 ∧ (∃ l, asking.latch = some l) ∧
    asking.softReset.rng.pending ≠ some 0 ∧ 0 ∈ asking.softReset.rng.withdrawn ∧
    State.reset.rng.pending ≠ some 0 ∧ 0 ∉ State.reset.rng.withdrawn :=
  ⟨rfl, ⟨_, rfl⟩, by decide, by decide, by decide, by decide⟩

/-- NOP, ADDMOD, SUBMOD, MULMOD, POWMOD, GCD and XGCD: a latch with modulus 0 and one with another. -/
theorem witness_moduli :
    (on (lat 3 4 0)).latch = some (lat 3 4 0) ∧ (lat 3 4 0).m = 0 ∧
    (on (lat 3 4 1)).latch = some (lat 3 4 1) ∧ (lat 3 4 1).m ≠ 0 := by decide

theorem witness_modular_laws :
    ((lat 0 96 97).a < (lat 0 96 97).m ∧ (lat 0 96 97).b < (lat 0 96 97).m) ∧ (0 : Nat) < 97 ∧ 96 < 97 := by decide

theorem witness_inve :
    (lat 2 0 0).m = 0 ∧ ((lat 3 0 9).m ≠ 0 ∧ Nat.gcd (lat 3 0 9).m (lat 3 0 9).a ≠ 1) ∧
    ((lat 7 0 1).m ≠ 0 ∧ Nat.gcd (lat 7 0 1).m (lat 7 0 1).a = 1) := by decide

theorem witness_invb :
    (lat 2 0 0).m = 0 ∧ ((lat 1 0 2).m ≠ 0 ∧ (lat 1 0 2).m < 3) ∧ ((lat 9 0 9).m ≠ 0 ∧ (lat 9 0 9).a > (lat 9 0 9).m - 1) ∧
    (3 ≤ (lat 3 0 9).m ∧ (lat 3 0 9).m % 2 = 1 ∧ 1 ≤ (lat 3 0 9).a ∧ (lat 3 0 9).a ≤ (lat 3 0 9).m - 1 ∧
      Nat.gcd (lat 3 0 9).a (lat 3 0 9).m ≠ 1) ∧
    (3 ≤ (lat 2 0 3).m ∧ (lat 2 0 3).m % 2 = 1 ∧ 1 ≤ (lat 2 0 3).a ∧ (lat 2 0 3).a ≤ (lat 2 0 3).m - 1 ∧
      Nat.gcd (lat 2 0 3).a (lat 2 0 3).m = 1) := by decide

theorem witness_invf :
    (lat 2 0 0).m = 0 ∧ (lat 7 0 1).m = 1 ∧ (2 ≤ (lat 2 0 2).m ∧ (lat 2 0 2).a % (lat 2 0 2).m = 0) ∧
    (2 ≤ (lat 1 0 2).m ∧ (lat 1 0 2).a % (lat 1 0 2).m ≠ 0) := by decide

theorem witness_inverses_agree :
    ∃ (s : State) (l : Latch), s.latch = some l ∧ l.m.Prime ∧ 2 < l.m ∧ 1 ≤ l.a ∧ l.a ≤ l.m - 1 :=
  ⟨on (lat 2 0 3), lat 2 0 3, rfl, Nat.prime_three, by decide, by decide, by decide⟩

theorem witness_mrround :
    (lat 2 0 0).m = 0 ∧ ((lat 2 0 10).m ≠ 0 ∧ (lat 2 0 10).m % 2 = 0) ∧
    (3 ≤ (lat 1 0 3).m ∧ (lat 1 0 3).m - 1 = 2 ^ 1 * 1 ∧ (lat 1 0 3).a ^ 1 % (lat 1 0 3).m = 1) ∧
    (3 ≤ (lat 2 0 9).m ∧ (lat 2 0 9).m - 1 = 2 ^ 3 * 1 ∧
      ¬ ((lat 2 0 9).a ^ 1 % (lat 2 0 9).m = 1 ∨ (∃ j < 3, (lat 2 0 9).a ^ (2 ^ j * 1) % (lat 2 0 9).m = (lat 2 0 9).m - 1))) := by
  decide

theorem witness_mrprime_settled :
    (lat 0 0 2).m = 2 ∧ ((lat 0 0 1).m ≠ 2 ∧ (lat 0 0 1).m < 2) ∧ ((lat 0 0 4).m ≠ 2 ∧ (lat 0 0 4).m % 2 = 0) := by decide

theorem witness_mrprime_asks :
    3 ≤ (lat 0 0 3).m ∧ (lat 0 0 3).m % 2 = 1 ∧ (lat 0 0 3).draw = none ∧ (lat 0 0 3).passed < (lat 0 0 3).rounds.toNat ∧
    (on (lat 0 0 3)).rng.pending = none ∧ asking.rng.pending = some 0 := by decide

theorem witness_mrprime_run :
    ∃ (s : State) (l : Latch) (answers : List Nat), s.latch = some l ∧ l.m.Prime ∧ 3 ≤ l.m ∧ l.m % 2 = 1 ∧ l.draw = none ∧
      l.passed = 0 ∧ s.rng.pending = none ∧ answers.length = l.rounds.toNat :=
  ⟨on (lat 0 0 3), lat 0 0 3, List.replicate 20 0, rfl, Nat.prime_three, by decide, by decide, rfl, rfl, rfl, by decide⟩

theorem witness_xgcd :
    (lat 0xFFFFFFFF 2 0).a < State.reset.width.span ∧ (lat 2 0xFFFFFFFF 0).b < State.reset.width.span := by decide

theorem witness_totient : (lat 0 0 0).a = 0 ∧ 1 ≤ (lat 1 0 0).a := by decide

theorem witness_padd_identity :
    (latP .infinity .infinity 0 0 0).m = 0 ∧
    ((latP .infinity (.affine 97 98) 0 1 97).m ≠ 0 ∧ (latP .infinity (.affine 97 98) 0 1 97).p = .infinity ∧
      (latP .infinity (.affine 97 98) 0 1 97).q = .affine 97 98) ∧
    (latP .infinity .infinity 0 1 97).q = .infinity ∧
    ((latP (.affine 97 98) .infinity 0 1 97).p = .affine 97 98 ∧ (latP (.affine 97 98) .infinity 0 1 97).q = .infinity) := by
  decide

/-- A chord with an inverse, and one whose width shares the factor 3 with m = 15. -/
theorem witness_padd_chord :
    ((latP (.affine 0 1) (.affine 73 11) 0 1 97).p = .affine 0 1 ∧
      (latP (.affine 0 1) (.affine 73 11) 0 1 97).q = .affine 73 11 ∧ ((73 : Int) - 0) % 97 ≠ 0 ∧ Int.gcd 73 97 = 1) ∧
    ((latP (.affine 1 1) (.affine 4 2) 0 1 15).m ≠ 0 ∧ ((4 : Int) - 1) % 15 ≠ 0 ∧ Int.gcd 3 15 ≠ 1) := by decide

/-- A tangent with an inverse, one without (m = 9, den = 6), a vertical one, and opposite points. -/
theorem witness_padd_tangent :
    ((latP (.affine 0 1) (.affine 97 98) 0 1 97).m = 97 ∧ ((97 : Int) - 0) % 97 = 0 ∧ ((98 : Int) - 1) % 97 = 0 ∧
      (2 * 1 : Int) % 97 ≠ 0 ∧ Int.gcd 2 97 = 1) ∧
    ((latP (.affine 0 3) (.affine 0 3) 0 1 9).m ≠ 0 ∧ (2 * 3 : Int) % 9 ≠ 0 ∧ Int.gcd 6 9 ≠ 1) ∧
    ((latP (.affine 3 0) (.affine 3 0) 0 1 97).m ≠ 0 ∧ (2 * 0 : Int) % 97 = 0) ∧
    ((latP (.affine 0 1) (.affine 0 96) 0 1 97).m ≠ 0 ∧ ((96 : Int) - 1) % 97 ≠ 0) := by decide

theorem witness_pdbl :
    (latP .infinity .infinity 0 0 0).m = 0 ∧ (latP .infinity .infinity 0 1 97).p = .infinity ∧
    ((latP (.affine 3 0) .infinity 0 1 97).p = .affine 3 0 ∧ 2 * 0 % (latP (.affine 3 0) .infinity 0 1 97).m = 0) ∧
    ((latP (.affine 0 3) .infinity 0 1 9).m ≠ 0 ∧ 2 * 3 % (latP (.affine 0 3) .infinity 0 1 9).m ≠ 0 ∧
      Nat.gcd (2 * 3 % 9) (latP (.affine 0 3) .infinity 0 1 9).m ≠ 1) ∧
    ((latP (.affine 0 1) .infinity 0 1 97).m ≠ 0 ∧ 2 * 1 % (latP (.affine 0 1) .infinity 0 1 97).m ≠ 0 ∧
      Nat.gcd (2 * 1 % 97) (latP (.affine 0 1) .infinity 0 1 97).m = 1) := by decide

theorem witness_pmul :
    (latP .infinity .infinity 5 1 0).m = 0 ∧ (latP .infinity .infinity 5 1 97).p = .infinity ∧
    ((latP (.affine 0 1) .infinity 0 1 97).p = .affine 0 1 ∧ (latP (.affine 0 1) .infinity 0 1 97).b = 0) ∧
    (latP (.affine 0 1) .infinity 1 1 97).b = 1 ∧ (latP (.affine 0 1) .infinity 97 1 97).b ≠ 0 := by decide

/-- G = (0, 1) and O on y² = x³ + x + 1 over the integers modulo 97. -/
theorem witness_curve :
    ∃ (s : State) (l : Latch) (_ : Fact l.m.Prime) (B : ZMod l.m) (P Q : (shortCurve (l.c : ZMod l.m) B).Point),
      s.latch = some l ∧ StandsFor l.p P ∧ StandsFor l.q Q := by
  let l : Latch := latP (.affine 0 1) .infinity 5 1 97
  have hp : Fact (Nat.Prime l.m) := ⟨show Nat.Prime 97 by norm_num⟩
  have h : (shortCurve (l.c : ZMod l.m) 1).Nonsingular ((0 : Nat) : ZMod l.m) ((1 : Nat) : ZMod l.m) := by
    change (shortCurve ((1 : Nat) : ZMod 97) 1).Nonsingular ((0 : Nat) : ZMod 97) ((1 : Nat) : ZMod 97)
    rw [WeierstrassCurve.Affine.nonsingular_iff, WeierstrassCurve.Affine.equation_iff]
    decide
  exact ⟨on l, l, hp, 1, .some _ _ h, 0, rfl, ⟨h, rfl⟩, rfl⟩

end Sys2Proof.Tests
end

/-! PROOF. The invariant of the reachable states (10_state.md R20 to R36, 70_reset_and_hazards.md R222): it holds at reset and
every step of every agent keeps it. It is taken apart into what it says of the registers, of the command in execution with its
RNG request, and of the host; an operation of the core leaves the host alone, and an operation of the host the rest. -/

namespace Sys2Proof

/-! ## Legal words decode to well-formed commands -/

theorem Field.isPoint_iff (f : Field) : f.IsPoint ↔ f.getLsbD 2 = false ∧ f.getLsbD 3 = false := by
  revert f; decide

/-- A mask that covers the two high bits of a field, in a row where they are 0, makes the field a point field. -/
theorem isPoint_of_mask {w mask m : BitVec 32} (h : w &&& mask = m) (start : Nat)
    (hmask : mask.getLsbD (start + 2) = true ∧ mask.getLsbD (start + 3) = true)
    (hm : m.getLsbD (start + 2) = false ∧ m.getLsbD (start + 3) = false) :
    Field.IsPoint (w.extractLsb' start 4) := by
  subst h
  simpa [Field.isPoint_iff, hmask] using hm

/-- The row's mask makes every point field of the command legal (30_encoding.md R71, R75). -/
theorem build_wellFormed {w : BitVec 32} {mn : Mnemonic} (h : w &&& mn.form.mask = matchOf mn.op) :
    (build mn (fieldsOf w)).WellFormed := by
  cases mn with
  | padd =>
    have hfd := isPoint_of_mask h 22 (by decide) (by decide)
    have hfa := isPoint_of_mask h 18 (by decide) (by decide)
    have hfb := isPoint_of_mask h 14 (by decide) (by decide)
    simp [Instr.WellFormed, build, Instr.wellFormed, fieldsOf, hfd, hfa, hfb]
  | pdbl =>
    have hfd := isPoint_of_mask h 22 (by decide) (by decide)
    have hfa := isPoint_of_mask h 18 (by decide) (by decide)
    simp [Instr.WellFormed, build, Instr.wellFormed, fieldsOf, hfd, hfa]
  | pmul =>
    have hfd := isPoint_of_mask h 22 (by decide) (by decide)
    have hfa := isPoint_of_mask h 18 (by decide) (by decide)
    simp [Instr.WellFormed, build, Instr.wellFormed, fieldsOf, hfd, hfa]
  | _ => rfl

theorem decode_wellFormed {v : Nat} {i : Instr} (h : decode v = .cmd i) : i.WellFormed := by
  obtain hv | hv := Nat.lt_or_ge v (2 ^ 32)
  · rw [decode_eq hv] at h
    obtain ⟨mn, -, hm, rfl⟩ := decode32_cmd h
    exact build_wellFormed hm
  · rw [decode_wide hv] at h
    cases h

end Sys2Proof

namespace Sys2Proof.Machine

/-! ## The parts of the invariant -/

/-- Both coordinates of a point register are words. -/
def PointReg.Fit (w : Width) (r : PointReg) : Prop := w.Fits r.x.value ∧ w.Fits r.y.value

/-- What the invariant says of the registers alone. -/
structure State.RegsOk (s : State) : Prop where
  rounds : s.rounds ≠ 0
  ecode : s.ecode ∈ legalCodes
  data : ∀ i : Fin 16, s.width.Fits s.d[i].value
  point : ∀ i : Fin 4, s.p[i].Fit s.width
  cmd : s.width.Fits s.cmd

/-- What the invariant says of the withdrawn RNG requests: they were made, each once. -/
structure Rng.WithdrawnOk (r : Rng) : Prop where
  made : ∀ id ∈ r.withdrawn, id < r.asked
  once : r.withdrawn.Nodup

/-- The words in LATCH are words of W bits. -/
def Latch.Fit (w : Width) (l : Latch) : Prop := l.ops.Fit w ∧ ∀ r, l.draw = some r → w.Fits r

/-- What the invariant says of the command in execution and its RNG request. -/
structure State.CommandOk (s : State) : Prop where
  latch : ∀ l, s.latch = some l → LatchOk s l
  fit : ∀ l, s.latch = some l → l.Fit s.width
  pending : ∀ id, s.rng.pending = some id → PendingOk s id
  withdrawn : s.rng.WithdrawnOk

/-- What the invariant says of the host and the end of the run. -/
structure State.HostOk (s : State) : Prop where
  vars : VarsOk s.host.vars
  ended : s.ended.isSome = true → s.host.halted = true

theorem inv_iff (s : State) : s.Inv ↔ s.RegsOk ∧ s.CommandOk ∧ s.HostOk := by
  constructor
  · intro h
    exact ⟨⟨h.rounds, h.ecode, h.words.data, fun i => ⟨h.words.x i, h.words.y i⟩, h.words.cmd⟩,
      ⟨h.latch, h.words.latch, h.pending, ⟨h.withdrawn, h.withdrawnOnce⟩⟩, ⟨h.vars, h.ended⟩⟩
  · rintro ⟨hr, hc, hh⟩
    exact ⟨hr.rounds, hr.ecode, hc.latch, hc.pending, hc.withdrawn.made, hc.withdrawn.once, hh.vars,
      ⟨hr.data, fun i => (hr.point i).1, fun i => (hr.point i).2, hr.cmd, hc.fit⟩, hh.ended⟩

/-- With LATCH empty and no request pending, only the withdrawn requests matter. -/
theorem commandOk_of_idle {s : State} (hl : s.latch = none) (hp : s.rng.pending = none) (hw : s.rng.WithdrawnOk) :
    s.CommandOk where
  latch l h := by simp [hl] at h
  fit l h := by simp [hl] at h
  pending id h := by simp [hp] at h
  withdrawn := hw

/-- With LATCH empty no request is pending: a request belongs to a command in execution (10_state.md R36). -/
theorem State.CommandOk.pending_of_idle {s : State} (h : s.CommandOk) (hl : s.latch = none) : s.rng.pending = none := by
  rw [Option.eq_none_iff_forall_ne_some]
  intro id hp
  obtain ⟨l, hsome, -⟩ := (h.pending id hp).owner
  simp [hl] at hsome

/-! ## What a step keeps -/

/-- From `s` to `t` the invariant, the width and a noted end of the run are kept. -/
structure KeepsInv (s t : State) : Prop where
  inv : s.Inv → t.Inv
  width : t.width = s.width
  ended : ∀ o, s.ended = some o → t.ended = some o

theorem KeepsInv.refl (s : State) : KeepsInv s s := ⟨id, rfl, fun _ => id⟩

theorem KeepsInv.trans {s t u : State} (h : KeepsInv s t) (k : KeepsInv t u) : KeepsInv s u :=
  ⟨k.inv ∘ h.inv, k.width.trans h.width, fun o => k.ended o ∘ h.ended o⟩

/-- `t` has the core of `s`, as far as the invariant speaks of it; DONE may have been cleared. -/
structure SameCore (s t : State) : Prop where
  width : t.width = s.width
  d : t.d = s.d
  p : t.p = s.p
  cmd : t.cmd = s.cmd
  done : s.done = false → t.done = false
  ecode : t.ecode = s.ecode
  rounds : t.rounds = s.rounds
  latch : t.latch = s.latch
  rng : t.rng = s.rng

theorem SameCore.regsOk {s t : State} (e : SameCore s t) (h : s.RegsOk) : t.RegsOk where
  rounds := e.rounds ▸ h.rounds
  ecode := e.ecode ▸ h.ecode
  data := by simpa only [e.width, e.d] using h.data
  point := by simpa only [e.width, e.p] using h.point
  cmd := by simpa only [e.width, e.cmd] using h.cmd

theorem SameCore.commandOk {s t : State} (e : SameCore s t) (h : s.CommandOk) : t.CommandOk where
  latch l hl := by
    obtain ⟨hdec, hwf, hdone, hrounds, hpassed⟩ := h.latch l (e.latch ▸ hl)
    exact ⟨e.cmd ▸ hdec, hwf, e.done hdone, e.rounds ▸ hrounds, hpassed⟩
  fit l hl := e.width ▸ h.fit l (e.latch ▸ hl)
  pending id hp := by
    obtain ⟨hmade, hlive, howner⟩ := h.pending id (e.rng ▸ hp)
    exact ⟨e.rng ▸ hmade, e.rng ▸ hlive, e.latch ▸ howner⟩
  withdrawn := e.rng ▸ h.withdrawn

/-- An operation that leaves the core alone. -/
theorem SameCore.keepsInv {s t : State} (e : SameCore s t) (hh : s.HostOk → t.HostOk)
    (he : ∀ o, s.ended = some o → t.ended = some o) : KeepsInv s t where
  inv h := by
    obtain ⟨hr, hc, ho⟩ := (inv_iff s).mp h
    exact (inv_iff t).mpr ⟨e.regsOk hr, e.commandOk hc, hh ho⟩
  width := e.width
  ended := he

/-- The host may change its script position and variables and execute HALT; HAZ, the model-fault record and the turns to come
are no part of the invariant. -/
theorem keepsInv_setAgents {s : State} {host : HostAgent} {haz fault : Bool} {turns : List Turn}
    (hv : VarsOk s.host.vars → VarsOk host.vars) (hh : s.host.halted = true → host.halted = true) :
    KeepsInv s { s with host := host, haz := haz, modelFault := fault, schedule := turns } :=
  SameCore.keepsInv ⟨rfl, rfl, rfl, rfl, id, rfl, rfl, rfl, rfl⟩ (fun h => ⟨hv h.vars, hh ∘ h.ended⟩) (fun _ => id)

/-- `t` has the host, the noted end and the width of `s`. -/
structure SameHost (s t : State) : Prop where
  host : t.host = s.host
  ended : t.ended = s.ended
  width : t.width = s.width

/-- An operation that leaves the host alone. -/
theorem SameHost.keepsInv {s t : State} (e : SameHost s t)
    (h : s.RegsOk → s.CommandOk → t.RegsOk ∧ t.CommandOk) : KeepsInv s t where
  inv hs := by
    obtain ⟨hr, hc, ho⟩ := (inv_iff s).mp hs
    obtain ⟨hr', hc'⟩ := h hr hc
    exact (inv_iff t).mpr ⟨hr', hc', ⟨e.host ▸ ho.vars, e.host ▸ e.ended ▸ ho.ended⟩⟩
  width := e.width
  ended _ ho := e.ended.trans ho

/-! ## Writing registers -/

theorem forall_getElem_set {α : Type} {n : Nat} {P : α → Prop} {v : Vector α n} (h : ∀ i : Fin n, P v[i]) (j : Fin n)
    {a : α} (ha : P a) (i : Fin n) : P (v.set j a)[i] := by
  by_cases e : (j : Nat) = i
  · simpa [Vector.getElem_set, e] using ha
  · simpa [Vector.getElem_set, e] using h i

theorem fit_ofPt (w : Width) (r : Pt) : (PointReg.ofPt w r).Fit w := by
  cases r with
  | infinity => exact ⟨Width.span_pos w, Width.span_pos w⟩
  | affine x y => exact ⟨word_fits w x, word_fits w y⟩

theorem State.RegsOk.set_d {s : State} (h : s.RegsOk) (i : Fin 16) {v : Nat} (hv : s.width.Fits v) :
    { s with d := s.d.set i (Held.of v) }.RegsOk :=
  { h with data := forall_getElem_set (P := fun r : Held Nat => s.width.Fits r.value) h.data i hv }

theorem State.RegsOk.set_p {s : State} (h : s.RegsOk) (i : Fin 4) {r : PointReg} (hr : r.Fit s.width) :
    { s with p := s.p.set i r }.RegsOk :=
  { h with point := forall_getElem_set h.point i hr }

theorem State.RegsOk.setData {s : State} (h : s.RegsOk) (f : Field) (v : Int) :
    (s.setData f (word s.width v)).RegsOk :=
  h.set_d (dIdx f) (word_fits s.width v)

theorem State.RegsOk.setPoint {s : State} (h : s.RegsOk) (f : Field) (r : Pt) : (s.setPoint f r).RegsOk :=
  h.set_p (pIdx f) (fit_ofPt s.width r)

theorem State.RegsOk.finish {s : State} (h : s.RegsOk) {e : BitVec 4} (he : e ∈ legalCodes) : (s.finish e).RegsOk :=
  { h with ecode := he }

theorem code_mem_legalCodes {c : ErrorCode} (h : c ≠ .invalidCurve) : c.code ∈ legalCodes := by
  cases c with
  | invalidCurve => exact absurd rfl h
  | _ => decide

/-! ## Resets -/

theorem regsOk_resetOf (w : Width) : (State.resetOf w).RegsOk where
  rounds := show Config.roundsReset ≠ 0 by decide
  ecode := show 0#4 ∈ legalCodes by decide
  data i := by simpa [State.resetOf, Held.unwritten] using Width.span_pos w
  point i := by simpa [State.resetOf, PointReg.unwritten, PointReg.Fit, Held.unwritten] using Width.span_pos w
  cmd := Width.span_pos w

theorem inv_resetOf (w : Width) : (State.resetOf w).Inv :=
  (inv_iff _).mpr ⟨regsOk_resetOf w, commandOk_of_idle rfl rfl ⟨by simp [State.resetOf], List.nodup_nil⟩,
    ⟨⟨List.Pairwise.nil, by simp [State.resetOf]⟩, by simp [State.resetOf]⟩⟩

/-- The pending request, which a reset withdraws, was made and is not among those withdrawn before. -/
theorem State.CommandOk.withdraw {s : State} (h : s.CommandOk) : s.rng.withdraw.WithdrawnOk := by
  unfold Rng.withdraw
  split
  next => exact h.withdrawn
  next id hp =>
    obtain ⟨hmade, hlive, -⟩ := h.pending id hp
    constructor
    · intro x hx
      obtain hx | rfl : x ∈ s.rng.withdrawn ∨ x = id := by simpa using hx
      · exact h.withdrawn.made x hx
      · exact hmade
    · simpa [List.nodup_append] using ⟨h.withdrawn.once, fun x hx e => hlive (e ▸ hx)⟩

theorem State.CommandOk.softReset {s : State} (h : s.CommandOk) : s.softReset.CommandOk :=
  commandOk_of_idle rfl (withdraw_pending s.rng) h.withdraw

theorem keepsInv_softReset (s : State) : KeepsInv s s.softReset := by
  refine SameHost.keepsInv ⟨rfl, rfl, rfl⟩ fun hr hc => ⟨?_, hc.softReset⟩
  have hreset := regsOk_resetOf s.width
  exact ⟨hreset.rounds, hreset.ecode, hr.data, hr.point, hreset.cmd⟩

theorem keepsInv_powerOn (s : State) : KeepsInv s s.powerOn := by
  refine SameHost.keepsInv ⟨rfl, rfl, rfl⟩ fun _ hc => ⟨?_, ?_⟩
  · have hreset := regsOk_resetOf s.width
    exact ⟨hreset.rounds, hreset.ecode, hreset.data, hreset.point, hreset.cmd⟩
  · exact commandOk_of_idle rfl (withdraw_pending s.rng) hc.withdraw

/-! ## Acceptance -/

theorem State.RegsOk.dataRole {s : State} (h : s.RegsOk) (f : Option Field) : s.width.Fits (s.dataRole f) := by
  cases f with
  | none => exact Width.span_pos s.width
  | some f => exact h.data (dIdx f)

theorem State.RegsOk.pointRole {s : State} (h : s.RegsOk) (f : Option Field) :
    (s.pointRole f).Reduced s.width.span := by
  cases f with
  | none => trivial
  | some f =>
    simp only [State.pointRole, State.point, PointReg.pt]
    split
    · trivial
    · exact h.point (pIdx f)

theorem State.RegsOk.latchOf {s : State} (h : s.RegsOk) (i : Instr) : (s.latchOf i).Fit s.width :=
  ⟨⟨h.dataRole _, h.dataRole _, h.dataRole _, h.dataRole _, h.pointRole _, h.pointRole _⟩, by simp [State.latchOf]⟩

/-- Acceptance while BUSY is 0, of a word that fits. -/
theorem keepsInv_accept {s : State} {v : Nat} (hb : s.busy = false) (hv : s.width.Fits v) : KeepsInv s (s.accept v) := by
  have hidle := (not_busy_iff s).mp hb
  cases hd : decode v with
  | illegal why =>
    rw [accept_illegal hd]
    refine SameHost.keepsInv ⟨rfl, rfl, rfl⟩ fun hr hc => ⟨?_, ?_⟩
    · exact { hr with cmd := hv, ecode := show 6#4 ∈ legalCodes by decide }
    · exact commandOk_of_idle rfl (hc.pending_of_idle hidle) hc.withdrawn
  | cmd i =>
    rw [accept_legal hd]
    refine SameHost.keepsInv ⟨rfl, rfl, rfl⟩ fun hr hc => ⟨{ hr with cmd := hv }, ?_⟩
    have hpassed : 0 < s.rounds.toNat := by
      have := hr.rounds
      bv_omega
    refine ⟨?_, ?_, fun id hp => ?_, hc.withdrawn⟩
    · rintro _ ⟨⟩
      exact ⟨hd, decode_wellFormed hd, rfl, rfl, hpassed⟩
    · rintro _ ⟨⟩
      exact hr.latchOf i
    · cases (hc.pending_of_idle hidle).symm.trans hp

/-! ## Slot writes -/

theorem writeRounds_cases (v : Nat) (s : State) :
    s.writeRounds v = s ∨ ∃ r : BitVec 8, r ≠ 0 ∧ s.writeRounds v = { s with rounds := r } := by
  simp only [State.writeRounds]
  split
  next => exact .inl rfl
  next h => exact .inr ⟨_, h, rfl⟩

theorem writeCtrl_cases (v : Nat) (s : State) : s.writeCtrl v = s.softReset ∨ SameCore s (s.writeCtrl v) := by
  unfold State.writeCtrl
  split
  next => exact .inl rfl
  next => exact .inr ⟨rfl, rfl, rfl, rfl, fun h => by simp [h], rfl, rfl, rfl, rfl⟩

theorem keepsInv_writeCtrl (v : Nat) (s : State) : KeepsInv s (s.writeCtrl v) := by
  obtain h | h := writeCtrl_cases v s
  · rw [h]
    exact keepsInv_softReset s
  · obtain ⟨hhost, -, -, hended⟩ := writeCtrl_frame v s
    exact h.keepsInv (fun ho => ⟨hhost ▸ ho.vars, hhost ▸ hended ▸ ho.ended⟩) (fun _ ho => hended.trans ho)

theorem SlotStored.regsOk {v : Nat} {s t : State} (h : SlotStored v s t) (hv : s.width.Fits v) (hr : s.RegsOk) :
    t.RegsOk := by
  cases h with
  | nothing => exact hr
  | data i => exact hr.set_d i hv
  | px i => exact hr.set_p i ⟨hv, (hr.point i).2⟩
  | py i => exact hr.set_p i ⟨(hr.point i).1, hv⟩
  | pinf =>
    refine { hr with point := fun i => ?_ }
    match i with
    | 0 => exact hr.point 0
    | 1 => exact hr.point 1
    | 2 => exact hr.point 2
    | 3 => exact hr.point 3
  | rounds =>
    obtain h | ⟨r, hne, h⟩ := writeRounds_cases v s
    · rwa [h]
    · rw [h]
      exact { hr with rounds := hne }

/-- A stored slot is no part of LATCH or the RNG exchange. -/
theorem SlotStored.exchange {v : Nat} {s t : State} (h : SlotStored v s t) : t.latch = s.latch ∧ t.rng = s.rng := by
  cases h with
  | rounds => obtain h | ⟨r, -, h⟩ := writeRounds_cases v s <;> rw [h] <;> exact ⟨rfl, rfl⟩
  | _ => exact ⟨rfl, rfl⟩

/-- A slot write of a word that fits. -/
theorem keepsInv_slotWrite (k : Slot) {v : Nat} {s : State} (hv : s.width.Fits v) : KeepsInv s (s.slotWrite k v) := by
  obtain ⟨hhost, -, hwidth, hended⟩ := slotWrite_frame k v s
  obtain h | ⟨-, h⟩ | ⟨hb, h⟩ | ⟨hb, h⟩ := slotWrite_cases k v s
  · rw [h]
    exact keepsInv_writeCtrl v s
  · rw [h]
    exact keepsInv_setAgents id id
  · rw [h]
    exact keepsInv_accept hb hv
  · refine SameHost.keepsInv ⟨hhost, hended, hwidth⟩ fun hr hc => ⟨h.regsOk hv hr, ?_⟩
    obtain ⟨hlatch, hrng⟩ := h.exchange
    have hidle := (not_busy_iff s).mp hb
    exact commandOk_of_idle (hlatch.trans hidle) (hrng ▸ hc.pending_of_idle hidle) (hrng ▸ hc.withdrawn)

theorem fits_encodeWord (w : Width) (i : Instr) : w.Fits (encodeWord i) :=
  (encodeWord_lt i).trans_le (Width.two_pow_32_le_span w)

theorem ofBytes_lt (bs : List (BitVec 8)) : ofBytes bs < 256 ^ bs.length := by
  induction bs with
  | nil => simp [ofBytes]
  | cons b r ih =>
    have := b.isLt
    rw [List.length_cons, Nat.pow_succ, ofBytes]
    omega

/-- The bytes of a slot stand for a word of W bits (20_memory.md R58). -/
theorem fits_ofBytes_wordBytes (w : Width) (v : Nat) : w.Fits (ofBytes (wordBytes w v)) := by
  have hspan : w.span = 256 ^ w.bytes := Nat.pow_mul 2 8 w.bytes
  have := ofBytes_lt (wordBytes w v)
  rwa [wordBytes, List.length_map, List.length_range, ← hspan] at this

/-! ## Host variables -/

theorem mem_setVar {x : Nat × Int} {vars : List (Nat × Int)} {h : Nat} {z : Int} (hx : x ∈ setVar vars h z) :
    x.1 = h ∨ x ∈ vars := by
  have cons {r} (hx : x ∈ consVar h z r) : x.1 = h ∨ x ∈ r := by
    unfold consVar at hx
    split at hx
    next => exact .inr hx
    next => exact (List.mem_cons.mp hx).imp_left (congrArg Prod.fst)
  induction vars with
  | nil => exact cons hx
  | cons y r ih =>
    rw [setVar] at hx
    split at hx
    next => exact (cons hx).imp_right (List.mem_cons_of_mem _)
    next =>
      split at hx
      next => exact cons hx
      next =>
        obtain rfl | hx := List.mem_cons.mp hx
        · exact .inr List.mem_cons_self
        · exact (ih hx).imp_right (List.mem_cons_of_mem _)

theorem varsOk_cons {x : Nat × Int} {r : List (Nat × Int)} :
    VarsOk (x :: r) ↔ (∀ y ∈ r, x.1 < y.1) ∧ x.2 ≠ 0 ∧ VarsOk r := by
  simp only [VarsOk, List.pairwise_cons, List.forall_mem_cons]
  tauto

theorem varsOk_consVar {h : Nat} {r : List (Nat × Int)} (hr : VarsOk r) (hlt : ∀ y ∈ r, h < y.1) (z : Int) :
    VarsOk (consVar h z r) := by
  unfold consVar
  split
  next => exact hr
  next hz => exact varsOk_cons.mpr ⟨hlt, hz, hr⟩

theorem varsOk_setVar {vars : List (Nat × Int)} (hv : VarsOk vars) (h : Nat) (z : Int) : VarsOk (setVar vars h z) := by
  induction vars with
  | nil => exact varsOk_consVar hv (by simp) z
  | cons x r ih =>
    obtain ⟨hlt, hne, hr⟩ := varsOk_cons.mp hv
    rw [setVar]
    split
    next e => exact varsOk_consVar hr (e ▸ hlt) z
    next hx =>
      split
      next hh => exact varsOk_consVar hv (List.forall_mem_cons.mpr ⟨hh, fun y hy => hh.trans (hlt y hy)⟩) z
      next hh =>
        refine varsOk_cons.mpr ⟨fun y hy => ?_, hne, ih hr⟩
        obtain hy | hy := mem_setVar hy
        · change x.1 < y.1
          omega
        · exact hlt y hy

/-! ## The host's step -/

theorem keepsInv_popTurn (s : State) : KeepsInv s s.popTurn :=
  keepsInv_setAgents id id

theorem keepsInv_advance (s : State) : KeepsInv s s.advance :=
  keepsInv_setAgents id id

theorem keepsInv_afterRead (k : Slot) (s : State) : KeepsInv s (s.afterRead k) :=
  keepsInv_setAgents id id

theorem keepsInv_setHostVar (h : Nat) (z : Int) (s : State) : KeepsInv s (s.setHostVar h z) :=
  keepsInv_setAgents (fun hv => varsOk_setVar hv h z) id

/-- The end of a run is noted only after HALT, and once. -/
theorem keepsInv_noteEnd (s : State) : KeepsInv s s.noteEnd := by
  obtain e | ⟨hhalted, -, hnone, e⟩ := noteEnd_cases s <;> rw [e]
  · exact .refl s
  · exact SameCore.keepsInv ⟨rfl, rfl, rfl, rfl, id, rfl, rfl, rfl, rfl⟩ (fun h => ⟨h.vars, fun _ => hhalted⟩)
      (fun _ ho => by cases hnone.symm.trans ho)

/-- HALT executed, before the end of the run is noted where it is one. -/
theorem keepsInv_halted (s : State) : KeepsInv s { s with host := { s.host with halted := true } } :=
  keepsInv_setAgents id fun _ => rfl

theorem keepsInv_branch {l : Label} {s t : State} (h : s.branch l = .next t) : KeepsInv s t := by
  unfold State.branch at h
  split at h
  next => cases h
  next =>
    cases h
    exact keepsInv_setAgents id id

theorem keepsInv_memRead {h : Nat} {addr : Int} {n : Nat} {s t : State} (hn : s.memRead h addr n = .next t) :
    KeepsInv s t := by
  unfold State.memRead at hn
  split at hn
  next k _ =>
    cases hn
    exact ((keepsInv_afterRead k s).trans (keepsInv_setHostVar _ _ _)).trans (keepsInv_advance _)
  all_goals cases hn

theorem keepsInv_memWrite {addr : Int} {n : Nat} {v : Int} {s t : State} (hn : s.memWrite addr n v = .next t) :
    KeepsInv s t := by
  unfold State.memWrite at hn
  split at hn
  next k _ =>
    cases hn
    exact (keepsInv_slotWrite k (fits_ofBytes_wordBytes _ _)).trans (keepsInv_advance _)
  all_goals cases hn

theorem keepsInv_runStmt {st : Stmt} {s t : State} (h : runStmt st s = .next t) : KeepsInv s t := by
  cases st with
  | wr k e =>
    cases h
    exact (keepsInv_slotWrite k (word_fits _ _)).trans (keepsInv_advance _)
  | rd x k =>
    cases h
    exact ((keepsInv_afterRead k s).trans (keepsInv_setHostVar _ _ _)).trans (keepsInv_advance _)
  | issue i =>
    cases h
    exact (keepsInv_slotWrite cmdSlot (fits_encodeWord _ i)).trans (keepsInv_advance _)
  | set x e =>
    cases h
    exact (keepsInv_setHostVar _ _ _).trans (keepsInv_advance _)
  | beq a b l =>
    simp only [runStmt] at h
    split at h
    next => exact keepsInv_branch h
    next => cases h; exact keepsInv_advance s
  | bne a b l =>
    simp only [runStmt] at h
    split at h
    next => cases h; exact keepsInv_advance s
    next => exact keepsInv_branch h
  | halt =>
    cases h
    exact (keepsInv_halted s).trans (keepsInv_noteEnd _)
  | memRead x a n => exact keepsInv_memRead h
  | memWrite a n e => exact keepsInv_memWrite h

theorem keepsInv_hostTurn {s t : State} (h : hostTurn s = .next t) : KeepsInv s t := by
  unfold hostTurn at h
  split at h
  next => cases h; exact .refl s
  next =>
    split at h
    next => cases h; exact .refl s
    next => exact keepsInv_runStmt h

/-! ## The RNG's step -/

theorem keepsInv_answer {id n : Nat} {s t : State} (h : s.answer id n = .next t) : KeepsInv s t := by
  by_cases hp : s.rng.pending = some id
  · rw [answer_pending hp] at h
    cases h
    refine SameHost.keepsInv ⟨rfl, rfl, rfl⟩ fun hr hc => ⟨{ hr with }, ?_, ?_, ?_, hc.withdrawn.made, hc.withdrawn.once⟩
    · intro l hl
      obtain ⟨l, hs, rfl⟩ := Option.map_eq_some_iff.mp hl
      obtain ⟨hdec, hwf, hdone, hrounds, hpassed⟩ := hc.latch l hs
      exact ⟨hdec, hwf, hdone, hrounds, hpassed⟩
    · intro l hl
      obtain ⟨l, hs, rfl⟩ := Option.map_eq_some_iff.mp hl
      refine ⟨(hc.fit l hs).1, ?_⟩
      rintro _ ⟨⟩
      exact word_fits _ _
    · rintro _ ⟨⟩
  · by_cases hw : id ∈ s.rng.withdrawn
    · rw [answer_withdrawn hp hw] at h
      cases h
      refine SameHost.keepsInv ⟨rfl, rfl, rfl⟩ fun hr hc => ⟨{ hr with }, ?_, hc.fit, ?_, ?_⟩
      · intro l hl
        obtain ⟨hdec, hwf, hdone, hrounds, hpassed⟩ := hc.latch l hl
        exact ⟨hdec, hwf, hdone, hrounds, hpassed⟩
      · intro x hx
        obtain ⟨hmade, hlive, howner⟩ := hc.pending x hx
        exact ⟨hmade, fun hmem => hlive (List.mem_of_mem_erase hmem), howner⟩
      · exact ⟨fun x hx => hc.withdrawn.made x (List.mem_of_mem_erase hx), hc.withdrawn.once.erase id⟩
    · rw [answer_unasked hp hw] at h
      cases h

/-! ## The core's step -/

/-- Another witness is due after `passed` rounds (43_primality.md R132). -/
structure DrawDue (l : Latch) (passed : Nat) : Prop where
  large : 3 ≤ l.m
  odd : l.m % 2 = 1
  more : passed < l.rounds.toNat

theorem mrNext_draw {rounds passed k : Nat} (h : mrNext rounds passed = .draw k) : k < rounds := by
  unfold mrNext at h
  split at h
  next => cases h
  next hlt => cases h; omega

/-- A draw is made only for an odd n of 3 or more with rounds left. -/
theorem drawDue_of_mrprimeStep {l : Latch} {k : Nat} (h : mrprimeStep l.m l.rounds.toNat l.passed l.draw = .draw k) :
    DrawDue l k := by
  unfold mrprimeStep at h
  split at h
  next => cases h
  next h2 =>
    split at h
    next => cases h
    next hodd =>
      have hmore : k < l.rounds.toNat := by
        split at h
        next => exact mrNext_draw h
        next =>
          split at h
          next => cases h
          next => exact mrNext_draw h
      exact ⟨by omega, by omega, hmore⟩

theorem mrprimeStep_of_drawDue {l : Latch} (h : DrawDue l l.passed) (hd : l.draw = none) :
    mrprimeStep l.m l.rounds.toNat l.passed l.draw = .draw l.passed := by
  obtain ⟨hlarge, hodd, hmore⟩ := h
  have h2 : l.m ≠ 2 := by omega
  have hsettled : ¬ (l.m < 2 ∨ l.m % 2 = 0) := by omega
  unfold mrprimeStep
  rw [if_neg h2, if_neg hsettled, hd]
  exact if_neg (Nat.not_le.mpr hmore)

/-- The results a completed command has written: data registers hold the word of a number, point registers that of a point
(00_scope.md R10). -/
inductive ResultsWritten (s : State) : State → Prop
  | start : ResultsWritten s s
  | data {u : State} (h : ResultsWritten s u) (f : Field) (v : Int) : ResultsWritten s (u.setData f (word u.width v))
  | point {u : State} (h : ResultsWritten s u) (f : Field) (r : Pt) : ResultsWritten s (u.setPoint f r)

theorem ResultsWritten.regsOk {s u : State} (h : ResultsWritten s u) (hr : s.RegsOk) : u.RegsOk := by
  induction h with
  | start => exact hr
  | data _ f v ih => exact ih.setData f v
  | point _ f r ih => exact ih.setPoint f r

theorem ResultsWritten.sameHost {s u : State} (h : ResultsWritten s u) : SameHost s u := by
  induction h with
  | start => exact ⟨rfl, rfl, rfl⟩
  | data _ f v ih => exact ⟨ih.host, ih.ended, ih.width⟩
  | point _ f r ih => exact ⟨ih.host, ih.ended, ih.width⟩

theorem ResultsWritten.rng {s u : State} (h : ResultsWritten s u) : u.rng = s.rng := by
  induction h with
  | start => rfl
  | data _ f v ih => exact ih
  | point _ f r ih => exact ih

/-- What the core's step on the command in LATCH can do. Beyond `exec_next_cases`, every value it writes is the word of a
number, and it asks the RNG only when a draw is due and no request is pending. -/
inductive CoreStep (i : Instr) (l : Latch) (s : State) : State → Prop
  | complete {u : State} (h : ResultsWritten s u) {e : BitVec 4} (he : e ∈ legalCodes) : CoreStep i l s (u.finish e)
  | wait : CoreStep i l s s
  | ask {passed : Nat} (hi : isMrprime i = true) (hp : s.rng.pending = none) (hd : DrawDue l passed) :
    CoreStep i l s (s.requestDraw passed l)

theorem coreStep_complete {α : Type} {i : Instr} {l : Latch} {s : State} {r : Except ErrorCode α} {commit : α → State → State}
    (hr : Raisable r) (hc : ∀ v, ResultsWritten s (commit v s)) : CoreStep i l s (s.complete r commit) := by
  cases r with
  | error c => exact .complete .start (code_mem_legalCodes (raisable_error.mp hr))
  | ok v => exact .complete (hc v) (by decide)

theorem coreStep_completeData {i : Instr} {l : Latch} {s : State} (f : Field) {r : Except ErrorCode Nat} (hr : Raisable r) :
    CoreStep i l s (s.completeData f r) :=
  coreStep_complete hr fun v => .data .start f v

theorem coreStep_completePoint {i : Instr} {l : Latch} {s : State} (f : Field) {r : Except ErrorCode Pt} (hr : Raisable r) :
    CoreStep i l s (s.completePoint f r) :=
  coreStep_complete hr fun v => .point .start f v

theorem resultsWritten_commitBezout (f : Field) (r : Bezout) (s : State) : ResultsWritten s (commitBezout f r s) :=
  .data (.data (.data .start f r.g) (fieldAfter f 1) r.x) (fieldAfter f 2) r.y

theorem coreStep_mrprime {fd fm : Field} {l : Latch} {s t : State} (hl : s.latch = some l)
    (h : exec (.mrprime fd fm) s = .next t) : CoreStep (.mrprime fd fm) l s t := by
  simp only [exec, execMrprime, onLatch_some hl] at h
  split at h
  next => cases h; exact coreStep_completeData fd (raisable_ok _)
  next hstep =>
    split at h
    next => cases h; exact .wait
    next hp => cases h; exact .ask rfl (by simpa using hp) (drawDue_of_mrprimeStep hstep)

/-- A meaning that completes on every path. -/
theorem coreStep_of_onLatch {i : Instr} {l : Latch} {s t : State} {f : Latch → State} (hl : s.latch = some l)
    (h : onLatch s (fun l => .next (f l)) = .next t) (hf : CoreStep i l s (f l)) : CoreStep i l s t := by
  rw [onLatch_some hl] at h
  cases h
  exact hf

theorem coreStep_of_exec {i : Instr} {l : Latch} {s t : State} (hl : s.latch = some l) (h : exec i s = .next t) :
    CoreStep i l s t := by
  cases i with
  | nop => exact coreStep_of_onLatch hl h (coreStep_complete (raisable_ok ()) fun _ => .start)
  | addmod fd _ _ _ => exact coreStep_of_onLatch hl h (coreStep_completeData fd (raisable_addmod _ _ _))
  | submod fd _ _ _ => exact coreStep_of_onLatch hl h (coreStep_completeData fd (raisable_submod _ _ _))
  | mulmod fd _ _ _ => exact coreStep_of_onLatch hl h (coreStep_completeData fd (raisable_mulmod _ _ _))
  | powmod fd _ _ _ => exact coreStep_of_onLatch hl h (coreStep_completeData fd (raisable_powmod _ _ _))
  | inve fd _ _ => exact coreStep_of_onLatch hl h (coreStep_completeData fd (raisable_inve _ _))
  | invb fd _ _ => exact coreStep_of_onLatch hl h (coreStep_completeData fd (raisable_invb _ _))
  | invf fd _ _ => exact coreStep_of_onLatch hl h (coreStep_completeData fd (raisable_invf _ _))
  | mrround fd _ _ => exact coreStep_of_onLatch hl h (coreStep_completeData fd (raisable_mrround _ _))
  | mrprime fd fm => exact coreStep_mrprime hl h
  | gcd fd _ _ => exact coreStep_of_onLatch hl h (coreStep_completeData fd (raisable_gcd _ _))
  | xgcd fd _ _ =>
    exact coreStep_of_onLatch hl h
      (coreStep_complete (raisable_xgcd _ _ _) fun r => resultsWritten_commitBezout fd r s)
  | totient fd _ => exact coreStep_of_onLatch hl h (coreStep_completeData fd (raisable_totient _))
  | padd fd _ _ _ _ _ => exact coreStep_of_onLatch hl h (coreStep_completePoint fd (raisable_padd _ _ _ _ _))
  | pdbl fd _ _ _ _ => exact coreStep_of_onLatch hl h (coreStep_completePoint fd (raisable_pdbl _ _ _ _))
  | pmul fd _ _ _ _ _ => exact coreStep_of_onLatch hl h (coreStep_completePoint fd (raisable_pmul _ _ _ _ _))

/-- While its request is pending the command in execution waits (10_state.md R36). -/
theorem exec_of_pending {s : State} {l : Latch} {id : Nat} (hc : s.CommandOk) (hl : s.latch = some l)
    (hp : s.rng.pending = some id) : exec l.cmd s = .next s := by
  obtain ⟨l', hl', hmr, hdraw, hlarge, hodd⟩ := (hc.pending id hp).owner
  obtain rfl : l = l' := Option.some.inj (hl.symm.trans hl')
  have hstep := mrprimeStep_of_drawDue ⟨hlarge, hodd, (hc.latch l hl).passed⟩ hdraw
  cases hi : l.cmd with
  | mrprime fd fm => simp [exec, execMrprime, onLatch_some hl, hstep, hp]
  | _ => simp [hi, isMrprime, Instr.mnemonic] at hmr

/-- A command that completes has no request pending. -/
theorem pending_of_completes {s u : State} {l : Latch} {e : BitVec 4} (hc : s.CommandOk) (hl : s.latch = some l)
    (h : exec l.cmd s = .next (u.finish e)) : s.rng.pending = none := by
  cases hp : s.rng.pending with
  | none => rfl
  | some id =>
    rw [exec_of_pending hc hl hp] at h
    obtain rfl : s = u.finish e := Host.Outcome.next.inj h
    cases hl

/-- A request for a draw that is due, by the command in execution. -/
theorem commandOk_requestDraw {s : State} {l : Latch} {passed : Nat} (hc : s.CommandOk) (hl : s.latch = some l)
    (hmr : isMrprime l.cmd = true) (hd : DrawDue l passed) : (s.requestDraw passed l).CommandOk where
  latch := by
    rintro _ ⟨⟩
    obtain ⟨hdec, hwf, hdone, hrounds, -⟩ := hc.latch l hl
    exact ⟨hdec, hwf, hdone, hrounds, hd.more⟩
  fit := by
    rintro _ ⟨⟩
    exact ⟨(hc.fit l hl).1, by simp⟩
  pending := by
    rintro _ ⟨⟩
    exact ⟨Nat.lt_succ_self _, fun hmem => (hc.withdrawn.made _ hmem).false, _, rfl, hmr, rfl, hd.large, hd.odd⟩
  withdrawn := ⟨fun id hid => Nat.lt_succ_of_lt (hc.withdrawn.made id hid), hc.withdrawn.once⟩

theorem keepsInv_exec {s t : State} {l : Latch} (hl : s.latch = some l) (h : exec l.cmd s = .next t) : KeepsInv s t := by
  have hstep := coreStep_of_exec hl h
  cases hstep with
  | wait => exact .refl s
  | complete hu he =>
    obtain ⟨hhost, hended, hwidth⟩ := hu.sameHost
    refine SameHost.keepsInv ⟨hhost, hended, hwidth⟩ fun hr hc => ⟨(hu.regsOk hr).finish he, ?_⟩
    have hp := pending_of_completes hc hl h
    exact commandOk_of_idle rfl (hu.rng ▸ hp) (hu.rng ▸ hc.withdrawn)
  | ask hi _ hd =>
    exact SameHost.keepsInv ⟨rfl, rfl, rfl⟩ fun hr hc => ⟨{ hr with }, commandOk_requestDraw hc hl hi hd⟩

theorem keepsInv_onNext {r : Result} {f : State → State} {s t : State} (h : onNext r f = .next t)
    (hr : ∀ u, r = .next u → KeepsInv s u) (hf : ∀ u, KeepsInv u (f u)) : KeepsInv s t := by
  cases r with
  | next u =>
    cases h
    exact (hr u rfl).trans (hf u)
  | fault _ => cases h
  | refused _ => cases h

theorem keepsInv_coreTurn {s t : State} (h : coreTurn s = .next t) : KeepsInv s t := by
  unfold coreTurn at h
  split at h
  next => cases h; exact .refl s
  next l hl => exact keepsInv_onNext h (fun _ => keepsInv_exec hl) keepsInv_noteEnd

/-! ## One step of the machine -/

theorem keepsInv_takeTurn {turn : Turn} {s t : State} (h : takeTurn turn s = .next t) : KeepsInv s t := by
  cases turn with
  | host => exact keepsInv_hostTurn h
  | core => exact keepsInv_coreTurn h
  | rng id w => exact keepsInv_answer h
  | powerOn =>
    cases h
    exact keepsInv_powerOn s

theorem keepsInv_step {s t : State} (h : step s = .next t) : KeepsInv s t :=
  (keepsInv_popTurn s).trans (keepsInv_takeTurn h)

/-- Settles O3: every turn keeps the invariant, the width and a noted end, agent by agent. -/
theorem stepKeepsInvariant : Obligations.StepKeepsInvariant := by
  intro s t hs h
  have hkeeps := keepsInv_step h
  exact ⟨hkeeps.inv hs, hkeeps.width, hkeeps.ended⟩

/-- Settles O2: at reset LATCH is empty, every register holds the word 0 and the host has not begun. -/
theorem resetMeetsInvariant : Obligations.ResetMeetsInvariant :=
  ⟨inv_resetOf Width.w32, inv_resetOf⟩

end Sys2Proof.Machine

/-! PROOF. The state's operations as the host and the core see them (10_state.md R28 to R43): the control registers and their
slots, acceptance of a legal word, the RNG's answers, and the core's step on the command in LATCH. -/

namespace Sys2Proof

/-! ## A legal word of the row `rrrm` -/

/-- A command whose word meets its own row is what the word decodes to (30_encoding.md R87). -/
theorem decode_encodeWord_of_row {i : Instr} (h : encode i &&& i.mnemonic.form.mask = matchOf i.mnemonic.op) :
    decode (encodeWord i) = .cmd i := by
  have hop : opOf (encode i) = i.mnemonic.op := opOf_pack _ _
  have hfields : fieldsOf (encode i) = i.fields := fieldsOf_pack _ _
  rw [decode_eq (encodeWord_lt i), ofNat_encodeWord, decode32_row hop h, hfields, build_fields]

/-- The mask of the form `rrrm` leaves FD, FA, FB and FM free (30_encoding.md R75). -/
theorem pack_and_mask_rrrm (op : BitVec 6) (fd fa fb fm : Field) :
    pack op ⟨fd, fa, fb, fm, 0, false⟩ &&& Form.rrrm.mask = matchOf op := by
  rw [matchOf_eq]
  apply BitVec.eq_of_getLsbD_eq
  intro i hi
  interval_cases i <;> simp only [pack, Form.mask, BitVec.getLsbD_and, BitVec.getLsbD_append] <;> simp

theorem decode_addmod (fd fa fb fm : Field) : decode (encodeWord (.addmod fd fa fb fm)) = .cmd (.addmod fd fa fb fm) :=
  decode_encodeWord_of_row (pack_and_mask_rrrm _ fd fa fb fm)

theorem decodeTableWord_eq_some {w : Nat} {i : Instr} (h : decodeTableWord 32 w = some i) :
    decode (w % 2 ^ 32) = .cmd i := by
  unfold decodeTableWord at h
  cases hd : decode (w % 2 ^ 32) with
  | cmd j =>
    rw [hd] at h
    obtain rfl : j = i := Option.some.inj h
    rfl
  | illegal why =>
    rw [hd] at h
    cases h

end Sys2Proof

namespace Sys2Proof.Machine

/-! ## What the control slots read -/

@[simp] theorem slotWord_status (s : State) : s.slotWord 0x1A#5 = s.statusWord := rfl
@[simp] theorem slotWord_ctrl (s : State) : s.slotWord 0x1B#5 = s.ctrlWord := rfl
@[simp] theorem slotWord_rounds (s : State) : s.slotWord 0x1C#5 = s.roundsWord := rfl
@[simp] theorem slotWord_id (s : State) : s.slotWord 0x1D#5 = idWord s.width := rfl
@[simp] theorem slotWord_reserved (s : State) : s.slotWord 0x1E#5 = 0 := rfl
@[simp] theorem slotWord_reserved' (s : State) : s.slotWord 0x1F#5 = 0 := rfl

theorem ctrlWord_eq (s : State) : s.ctrlWord = if s.ie then 1 else 0 := by
  cases h : s.ie <;> simp [State.ctrlWord, h]

/-- The bits of STATUS from bit 0 up, 0 above (10_state.md R28). -/
theorem statusWord_testBit (s : State) (i : Nat) :
    s.statusWord.testBit i =
      [s.busy, s.done, s.err, s.haz, s.ecode.getLsbD 0, s.ecode.getLsbD 1, s.ecode.getLsbD 2, s.ecode.getLsbD 3,
        s.irq].getD i false := by
  rw [State.statusWord, BitVec.testBit_toNat]
  obtain hi | hi := Nat.lt_or_ge i 9
  · interval_cases i <;> simp only [BitVec.getLsbD_append] <;> simp
  · rw [List.getD_eq_default _ _ hi]
    exact BitVec.getLsbD_of_ge _ _ hi

/-- The ID word of a width whose `W/8` fits its byte (10_state.md R33). -/
theorem idWord_eq {w : Width} (h : w.bytes < 256) : idWord w = 0x43460100 + w.bytes := by
  have hbyte : (BitVec.ofNat 8 w.bytes).toNat = w.bytes := by simpa using h
  rw [idWord, BitVec.toNat_append, hbyte, ← Nat.shiftLeft_add_eq_or_of_lt (b := w.bytes) (i := 8) h]
  rfl

/-! ## What a write to a control slot does -/

theorem writeCtrl_reset {v : Nat} (h : v.testBit 3 = true) (s : State) : s.writeCtrl v = s.softReset := by
  simp [State.writeCtrl, h]

theorem writeCtrl_fields {v : Nat} (h : v.testBit 3 = false) (s : State) :
    s.writeCtrl v =
      { s with
        ie := v.testBit 0
        done := if v.testBit 1 then false else s.done
        err := if v.testBit 2 then false else s.err
        haz := if v.testBit 2 then false else s.haz } := by
  have hclear : ∀ old clear : Bool, (old && !clear) = if clear then false else old := by decide
  simp [State.writeCtrl, h, hclear]

theorem slotWrite_rounds {s : State} (hb : s.busy = false) (v : Nat) : s.slotWrite 0x1C#5 v = s.writeRounds v := by
  simp [State.slotWrite, hb]

theorem writeRounds_eq (v : Nat) (s : State) :
    s.writeRounds v = if v % 256 = 0 then s else { s with rounds := BitVec.ofNat 8 v } := by
  have hzero : BitVec.ofNat 8 v = 0#8 ↔ v % 256 = 0 := by simp [← BitVec.toNat_inj]
  simp only [State.writeRounds, hzero]

theorem slotWrite_id {s : State} (hb : s.busy = false) (v : Nat) : s.slotWrite 0x1D#5 v = s := by
  simp [State.slotWrite, hb]

theorem slotWrite_reserved {k : Slot} (hk : slotKind k = .reserved) {s : State} (hb : s.busy = false) (v : Nat) :
    s.slotWrite k v = s := by
  simp [State.slotWrite, hk, hb]

/-- A write to CMD of a legal word while BUSY is 0 is its acceptance (10_state.md R40). -/
theorem slotWrite_cmd_legal {s : State} {v : Nat} {i : Instr} (hb : s.busy = false) (h : decode v = .cmd i) :
    s.slotWrite cmdSlot v =
      { s with cmd := v, done := false, modelFault := s.modelFault || !s.operandsWritten i,
               latch := some (s.latchOf i) } := by
  rw [slotWrite_cmd hb, accept_legal h]

/-! ## What the core's step does to the command in LATCH -/

/-- A meaning that completes on every path goes on. -/
theorem onLatch_goes_on {s : State} {l : Latch} (hl : s.latch = some l) (f : Latch → State) :
    ∃ t, onLatch s (fun l => .next (f l)) = .next t :=
  ⟨f l, onLatch_some hl _⟩

theorem execMrprime_goes_on {s : State} {l : Latch} (hl : s.latch = some l) (fd : Field) :
    ∃ t, execMrprime fd s = .next t := by
  rw [execMrprime, onLatch_some hl]
  split
  next => exact ⟨_, rfl⟩
  next =>
    split
    next => exact ⟨_, rfl⟩
    next => exact ⟨_, rfl⟩

/-- With a command in LATCH no meaning faults or is refused (70_reset_and_hazards.md R221). -/
theorem exec_goes_on (i : Instr) {s : State} {l : Latch} (hl : s.latch = some l) : ∃ t, exec i s = .next t := by
  cases i with
  | mrprime fd _ => exact execMrprime_goes_on hl fd
  | _ => exact onLatch_goes_on hl _

/-- A core's step that leaves LATCH empty was a completion. -/
theorem CoreStep.completed {i : Instr} {l : Latch} {s t : State} (h : CoreStep i l s t) (hl : s.latch = some l)
    (ht : t.latch = none) : t.done = true ∧ t.ecode ∈ legalCodes := by
  cases h with
  | complete _ he => exact ⟨rfl, he⟩
  | wait => cases hl.symm.trans ht
  | ask => cases ht

/-- The core's step leaves the host alone. -/
theorem CoreStep.host {i : Instr} {l : Latch} {s t : State} (h : CoreStep i l s t) : t.host = s.host := by
  cases h with
  | complete hu _ => exact hu.sameHost.host
  | wait => rfl
  | ask => rfl

theorem exec_addmod {s : State} {l : Latch} (hl : s.latch = some l) (hm : l.m ≠ 0) (fd fa fb fm : Field) :
    exec (.addmod fd fa fb fm) s = .next ((s.setData fd (word s.width (addModF l.a l.b l.m : Nat))).finish okCode) := by
  simp only [exec, execAddmod, onLatch_some hl, addmodResult, withModulus_pos hm, State.completeData, complete_ok]

/-! ## Turns -/

/-- With no turn planned, taking the next turn changes nothing. -/
theorem popTurn_of_nil {s : State} (h : s.schedule = []) : s.popTurn = s := by
  cases s
  cases h
  rfl

theorem popTurn_of_cons {s : State} {t : Turn} {r : List Turn} (h : s.schedule = t :: r) :
    s.popTurn = { s with schedule := r } := by
  rw [State.popTurn, h]
  rfl

theorem nextTurn_of_nil {s : State} (h : s.schedule = []) : nextTurn s = defaultTurn s := by
  rw [nextTurn, h]

theorem nextTurn_of_cons {s : State} {t : Turn} {r : List Turn} (h : s.schedule = t :: r) : nextTurn s = t := by
  rw [nextTurn, h]

theorem coreTurn_idle {s : State} (h : s.latch = none) : coreTurn s = .next s := by
  rw [coreTurn, h]

theorem coreTurn_latched {s : State} {l : Latch} (h : s.latch = some l) :
    coreTurn s = onNext (exec l.cmd s) State.noteEnd := by
  rw [coreTurn, h]

theorem step_core {s : State} (h : nextTurn s = .core) : step s = coreTurn s.popTurn := by
  rw [step, h]
  rfl

theorem step_core_idle {s : State} (hl : s.latch = none) (h : nextTurn s = .core) : step s = .next s.popTurn :=
  (step_core h).trans (coreTurn_idle (s := s.popTurn) hl)

theorem step_core_latched {s : State} {l : Latch} (hl : s.latch = some l) (h : nextTurn s = .core) :
    step s = onNext (exec l.cmd s.popTurn) State.noteEnd :=
  (step_core h).trans (coreTurn_latched (s := s.popTurn) hl)

/-- A host that has not executed HALT has not ended the run. -/
theorem noteEnd_of_running {s : State} (h : s.host.halted = false) : s.noteEnd = s := by
  simp [State.noteEnd, h]

/-- While the host has not executed HALT, the core's step notes no end. -/
theorem onNext_noteEnd_of_running {i : Instr} {s : State} {l : Latch} (hl : s.latch = some l)
    (hrun : s.host.halted = false) : onNext (exec i s) State.noteEnd = exec i s := by
  obtain ⟨t, ht⟩ := exec_goes_on i hl
  have hhost : t.host = s.host := (coreStep_of_exec hl ht).host
  have hend : t.noteEnd = t := noteEnd_of_running (hhost ▸ hrun)
  simp only [ht, onNext, hend]

/-! ## The state that runs a loaded word (log 13) -/

theorem loadCommand_latch {v : Nat} {i : Instr} (h : decode v = .cmd i) (s : State) :
    (s.loadCommand v).latch = some (s.latchOf i) := by
  simp only [State.loadCommand, accept_legal h]
  rfl

theorem loadCommand_schedule_of_nil {s : State} (h : s.schedule = []) (v : Nat) : (s.loadCommand v).schedule = [] := by
  simp [State.loadCommand, h]

theorem loadCommand_schedule_of_cons {s : State} {t : Turn} {r : List Turn} (h : s.schedule = t :: r) (v : Nat) :
    (s.loadCommand v).schedule = .core :: t :: r := by
  simp [State.loadCommand, h]

/-- The core is next to move on a loaded command. -/
theorem nextTurn_loadCommand {v : Nat} {i : Instr} (h : decode v = .cmd i) (s : State) :
    nextTurn (s.loadCommand v) = .core := by
  cases hs : s.schedule with
  | nil =>
    have hbusy := (busy_iff _).mpr ⟨_, loadCommand_latch h s⟩
    rw [nextTurn_of_nil (loadCommand_schedule_of_nil hs v), defaultTurn, if_pos hbusy]
  | cons t r => exact nextTurn_of_cons (loadCommand_schedule_of_cons hs v)

/-- The turn the loaded command takes is no turn of the schedule. -/
theorem popTurn_loadCommand (v : Nat) (s : State) :
    (s.loadCommand v).popTurn = { s.loadCommand v with schedule := s.schedule } := by
  have htail : (s.loadCommand v).schedule.tail = s.schedule := by
    cases hs : s.schedule with
    | nil => rw [loadCommand_schedule_of_nil hs]; rfl
    | cons t r => rw [loadCommand_schedule_of_cons hs]; rfl
  rw [State.popTurn, htail]

/-! ## The obligations -/

/-- Settles O6: a command in LATCH goes on, and of the ways the core's step can go only a completion empties LATCH. -/
theorem everyCommandGoesOn : Obligations.EveryCommandGoesOn := by
  intro i s l hl
  obtain ⟨t, ht⟩ := exec_goes_on i hl
  exact ⟨t, ht, (coreStep_of_exec hl ht).completed hl⟩

/-- Settles O15: acceptance puts the operand words into LATCH, and the step reads them there, whatever register it writes. -/
theorem issueThenCompleteAddmod : Obligations.IssueThenCompleteAddmod := by
  intro s fd fa fb fm hb hm
  have haccept := slotWrite_cmd_legal hb (decode_addmod fd fa fb fm)
  have hmod : (s.latchOf (.addmod fd fa fb fm)).m ≠ 0 := hm
  rw [haccept]
  exact ⟨_, exec_addmod rfl hmod fd fa fb fm, rfl, rfl, rfl, rfl⟩

/-- Settles O5: a step is the next agent's turn, and the core's turn is the meaning of the latched command. -/
theorem stepRunsLatchedCommand : Obligations.StepRunsLatchedCommand := by
  refine ⟨fun s => ⟨rfl, ?_, ?_⟩, fun s => step_core_idle, fun s l => step_core_latched, ?_, ?_⟩
  · exact fun h => ⟨nextTurn_of_nil h, popTurn_of_nil h⟩
  · exact fun t r h => ⟨nextTurn_of_cons h, popTurn_of_cons h⟩
  · intro s l hl hturn hrun
    rw [step_core_latched hl hturn]
    exact onNext_noteEnd_of_running (s := s.popTurn) hl hrun
  · intro s w i hw
    have hd := decodeTableWord_eq_some hw
    have hl : (s.withFetchWord 32 w).latch = some (s.latchOf i) := loadCommand_latch hd s
    have hpop : (s.withFetchWord 32 w).popTurn = { s.withFetchWord 32 w with schedule := s.schedule } :=
      popTurn_loadCommand _ s
    refine ⟨s.latchOf i, hl, rfl, ?_⟩
    rw [step_core_latched hl (nextTurn_loadCommand hd s), hpop]
    rfl

/-- Settles O13: acceptance of a legal word, with the record LATCH receives written out. -/
theorem acceptLegal : Obligations.AcceptLegal := fun _ _ _ hb hd => slotWrite_cmd_legal hb hd

/-- Settles O21, from the one list of the STATUS fields by bit. -/
theorem statusLayout : Obligations.StatusLayout := by
  intro s
  have hbit := statusWord_testBit s
  refine ⟨slotWord_status s, hbit 0, hbit 1, hbit 2, hbit 3, fun i hi => ?_, hbit 8, fun i hi => ?_⟩
  · interval_cases i <;> exact hbit _
  · exact (hbit i).trans (List.getD_eq_default _ _ hi)

/-- Settles O23: a write to CTRL is performed whatever BUSY is. -/
theorem ctrlWrite : Obligations.CtrlWrite := by
  intro s v
  have hwrite := slotWrite_ctrl slotKind_ctrl v s
  exact ⟨fun h => hwrite.trans (writeCtrl_reset h s), fun h => hwrite.trans (writeCtrl_fields h s),
    (slotWord_ctrl s).trans (ctrlWord_eq s)⟩

/-- Settles O26: a write to ROUNDS of low byte 0 is ignored, and acceptance latches the count. -/
theorem roundsWrite : Obligations.RoundsWrite := by
  intro s v
  refine ⟨fun hb h => ?_, fun hb h => ?_, fun hb => slotWrite_busy (by decide) hb v, slotWord_rounds s, fun _ => rfl,
    fun i hb hd => ?_⟩
  · exact (slotWrite_rounds hb v).trans ((writeRounds_eq v s).trans (if_pos h))
  · exact (slotWrite_rounds hb v).trans ((writeRounds_eq v s).trans (if_neg h))
  · exact ⟨s.latchOf i, congrArg State.latch (slotWrite_cmd_legal hb hd), rfl⟩

/-- Settles O27: the ID word by its bytes, and writes that no register receives. -/
theorem idAndReservedSlots : Obligations.IdAndReservedSlots := by
  intro s v
  refine ⟨fun h => (slotWord_id s).trans (idWord_eq h), slotWord_reserved s, slotWord_reserved' s, fun hb => ?_, fun hb => ?_⟩
  · exact ⟨slotWrite_id hb v, slotWrite_reserved slotKind_reserved hb v, slotWrite_reserved slotKind_reserved' hb v⟩
  · exact ⟨slotWrite_busy (by decide) hb v, slotWrite_busy (by decide) hb v⟩

/-- Settles O34, by whether the request is pending, withdrawn or neither. -/
theorem rngAnswers : Obligations.RngAnswers := by
  intro s id n l
  refine ⟨fun hp hl => ?_, fun hp hw => answer_withdrawn hp hw n, fun hp hw => answer_unasked hp hw n⟩
  have hanswer := answer_pending hp n
  rw [hl] at hanswer
  exact hanswer

end Sys2Proof.Machine

/-! PROOF. The slots as the host sees them (20_memory.md): what stands at each slot, as a value with its written mark, what a
write stores there and leaves alone, the host variable a read fills, and the bytes of a slot on a platform bus. -/

namespace Sys2Proof.Machine

/-! ## The slot map -/

/-- The slot of each kind; the first reserved slot for the kind that has two (20_memory.md R51). -/
def SlotKind.slot : SlotKind → Slot
  | .data i => dataSlot i
  | .px i => pxSlot i
  | .py i => pySlot i
  | .pinf => 0x18#5
  | .cmd => cmdSlot
  | .status => statusSlot
  | .ctrl => 0x1B#5
  | .rounds => 0x1C#5
  | .id => 0x1D#5
  | .reserved => 0x1E#5

@[simp] theorem slotKind_dataSlot (i : Fin 16) : slotKind (dataSlot i) = .data i := by revert i; decide
@[simp] theorem slotKind_pxSlot (i : Fin 4) : slotKind (pxSlot i) = .px i := by revert i; decide
@[simp] theorem slotKind_pySlot (i : Fin 4) : slotKind (pySlot i) = .py i := by revert i; decide

theorem slot_slotKind (k : Slot) : slotKind k = .reserved ∨ (slotKind k).slot = k := by revert k; decide

/-- No two slots are of one kind, the reserved ones apart. -/
theorem slotKind_eq_cases {j k : Slot} (h : slotKind j = slotKind k) : slotKind k = .reserved ∨ j = k := by
  obtain hj | hj := slot_slotKind j
  · exact .inl (h.symm.trans hj)
  · exact (slot_slotKind k).imp_right fun hk => hj.symm.trans ((congrArg SlotKind.slot h).trans hk)

theorem slotKind_rounds_iff (k : Slot) : slotKind k = .rounds ↔ k = 0x1C#5 := by revert k; decide
theorem slotKind_id_iff (k : Slot) : slotKind k = .id ↔ k = 0x1D#5 := by revert k; decide

theorem slotKind_cmd_iff (k : Slot) : slotKind k = .cmd ↔ k = 0x19#5 := by revert k; decide

/-- Slots 0x00 to 0x17 are the data registers and the coordinates. -/
theorem slotKind_of_lt {k : Slot} (h : k < 0x18#5) :
    (∃ i, slotKind k = .data i) ∨ (∃ i, slotKind k = .px i) ∨ ∃ i, slotKind k = .py i := by
  revert k; decide

/-! ## What stands at a slot -/

/-- The content of a slot of this kind, with the mark whether every field it reads is written (20_memory.md R52). -/
def State.held (s : State) : SlotKind → Held Nat
  | .data i => s.d[i]
  | .px i => s.p[i].x
  | .py i => s.p[i].y
  | .pinf => ⟨s.pinfWord, s.slotWritten 0x18#5⟩
  | .cmd => Held.of s.cmd
  | .status => Held.of s.statusWord
  | .ctrl => Held.of s.ctrlWord
  | .rounds => Held.of s.roundsWord
  | .id => Held.of (idWord s.width)
  | .reserved => Held.of 0

theorem slotWord_eq_held (k : Slot) (s : State) : s.slotWord k = (s.held (slotKind k)).value := by
  unfold State.slotWord
  cases slotKind k <;> rfl

theorem slotWritten_eq_held (k : Slot) (s : State) : s.slotWritten k = (s.held (slotKind k)).written := by
  unfold State.slotWritten
  cases slotKind k <;> rfl

/-- The bits of the PINF slot are the infinity tags (10_state.md R24). -/
theorem pinfWord_testBit (s : State) (i : Fin 4) : s.pinfWord.testBit i = s.p[i].inf.value := by
  rw [State.pinfWord, BitVec.testBit_toNat]
  fin_cases i <;> simp only [BitVec.getLsbD_append] <;> simp

theorem pinfWord_testBit_ge (s : State) {i : Nat} (h : 4 ≤ i) : s.pinfWord.testBit i = false := by
  rw [State.pinfWord, BitVec.testBit_toNat]
  exact BitVec.getLsbD_of_ge _ _ h

theorem slotWritten_pinf (s : State) : s.slotWritten 0x18#5 = true ↔ ∀ i : Fin 4, s.p[i].inf.written = true := by
  simp [State.slotWritten, Fin.forall_fin_succ, and_assoc]

/-- The PINF slot depends on the infinity tags alone. -/
theorem held_pinf_congr {s t : State} (h : ∀ i : Fin 4, t.p[i].inf = s.p[i].inf) : t.held .pinf = s.held .pinf := by
  have hword : t.pinfWord = s.pinfWord := by
    refine Nat.eq_of_testBit_eq fun i => ?_
    obtain hi | hi := Nat.lt_or_ge i 4
    · exact (pinfWord_testBit t ⟨i, hi⟩).trans ((congrArg Held.value (h ⟨i, hi⟩)).trans (pinfWord_testBit s ⟨i, hi⟩).symm)
    · rw [pinfWord_testBit_ge t hi, pinfWord_testBit_ge s hi]
  have hwritten : t.slotWritten 0x18#5 = s.slotWritten 0x18#5 := by
    rw [Bool.eq_iff_iff, slotWritten_pinf, slotWritten_pinf]
    simp only [h]
  simp only [State.held, hword, hwritten]

/-! ## What a write to a slot stores -/

section

variable {k : Slot} {i : Fin 16} {n : Fin 4} {s : State} (hb : s.busy = false) (v : Nat)
include hb

theorem slotWrite_data (hk : slotKind k = .data i) : s.slotWrite k v = { s with d := s.d.set i (Held.of v) } := by
  simp [State.slotWrite, hk, hb]

theorem slotWrite_px (hk : slotKind k = .px n) :
    s.slotWrite k v = { s with p := s.p.set n { s.p[n] with x := Held.of v } } := by
  simp [State.slotWrite, hk, hb]

theorem slotWrite_py (hk : slotKind k = .py n) :
    s.slotWrite k v = { s with p := s.p.set n { s.p[n] with y := Held.of v } } := by
  simp [State.slotWrite, hk, hb]

theorem slotWrite_pinf (hk : slotKind k = .pinf) : s.slotWrite k v = s.writePinf v := by
  simp [State.slotWrite, hk, hb]

theorem slotWrite_status (hk : slotKind k = .status) : s.slotWrite k v = s := by
  simp [State.slotWrite, hk, hb]

end

theorem accept_cmd (v : Nat) (s : State) : (s.accept v).cmd = v := by
  cases h : decode v with
  | cmd i => rw [accept_legal h]
  | illegal w => rw [accept_illegal h]

theorem writePinf_get (v : Nat) (s : State) (i : Fin 4) :
    (s.writePinf v).p[i] = { s.p[i] with inf := Held.of (v.testBit i) } := by
  fin_cases i <;> rfl

/-- A write to PINF stores bits 3:0 (20_memory.md R53). -/
theorem writePinf_pinfWord (v : Nat) (s : State) : (s.writePinf v).pinfWord = v % 16 := by
  refine Nat.eq_of_testBit_eq fun i => ?_
  rw [show (16 : Nat) = 2 ^ 4 from rfl, Nat.testBit_mod_two_pow]
  obtain hi | hi := Nat.lt_or_ge i 4
  · have hbit := pinfWord_testBit (s.writePinf v) ⟨i, hi⟩
    rw [writePinf_get] at hbit
    simpa [hi, Held.of] using hbit
  · simp [pinfWord_testBit_ge _ hi, Nat.not_lt.mpr hi]

theorem writePinf_slotWritten (v : Nat) (s : State) : (s.writePinf v).slotWritten 0x18#5 = true :=
  (slotWritten_pinf _).mpr fun i => by rw [writePinf_get]; rfl

/-- A data register or a coordinate holds what was written to its slot, and is written then (20_memory.md R53). -/
theorem held_slotWrite_same {k : Slot} (h : k < 0x18#5) {s : State} (hb : s.busy = false) (v : Nat) :
    (s.slotWrite k v).held (slotKind k) = Held.of v := by
  obtain ⟨i, hk⟩ | ⟨i, hk⟩ | ⟨i, hk⟩ := slotKind_of_lt h
  · rw [slotWrite_data hb v hk, hk]
    simp [State.held]
  · rw [slotWrite_px hb v hk, hk]
    simp [State.held]
  · rw [slotWrite_py hb v hk, hk]
    simp [State.held]

/-! ## What a write to a slot leaves alone -/

theorem getElem_set_other {α : Type} {n : Nat} (p : Vector α n) {i j : Fin n} (h : j ≠ i) (r : α) :
    (p.set i r)[j] = p[j] :=
  Vector.getElem_set_ne i.isLt j.isLt fun e => h (Fin.ext e.symm)

/-- What an update of one element keeps of it is kept of every element. -/
theorem apply_getElem_set {α β : Type} {n : Nat} (f : α → β) (p : Vector α n) (i j : Fin n) {r : α} (h : f r = f p[i]) :
    f (p.set i r)[j] = f p[j] := by
  obtain rfl | hij := eq_or_ne j i
  · simpa using h
  · rw [getElem_set_other p hij]

section

variable (s : State) (v : Nat) {κ : SlotKind}

theorem held_set_d {i : Fin 16} (h : κ ≠ .data i) : { s with d := s.d.set i (Held.of v) }.held κ = s.held κ := by
  cases κ with
  | data j => exact getElem_set_other s.d (fun e => h (congrArg SlotKind.data e)) _
  | _ => rfl

theorem held_set_x {i : Fin 4} (h : κ ≠ .px i) :
    { s with p := s.p.set i { s.p[i] with x := Held.of v } }.held κ = s.held κ := by
  cases κ with
  | px j => exact congrArg PointReg.x (getElem_set_other s.p (fun e => h (congrArg SlotKind.px e)) _)
  | py j => exact apply_getElem_set PointReg.y s.p i j rfl
  | pinf => exact held_pinf_congr fun j => apply_getElem_set PointReg.inf s.p i j rfl
  | _ => rfl

theorem held_set_y {i : Fin 4} (h : κ ≠ .py i) :
    { s with p := s.p.set i { s.p[i] with y := Held.of v } }.held κ = s.held κ := by
  cases κ with
  | px j => exact apply_getElem_set PointReg.x s.p i j rfl
  | py j => exact congrArg PointReg.y (getElem_set_other s.p (fun e => h (congrArg SlotKind.py e)) _)
  | pinf => exact held_pinf_congr fun j => apply_getElem_set PointReg.inf s.p i j rfl
  | _ => rfl

theorem held_writePinf (h : κ ≠ .pinf) : (s.writePinf v).held κ = s.held κ := by
  cases κ with
  | px j => exact (congrArg PointReg.x (writePinf_get v s j)).trans rfl
  | py j => exact (congrArg PointReg.y (writePinf_get v s j)).trans rfl
  | pinf => exact absurd rfl h
  | _ => rfl

theorem held_writeRounds (h : κ ≠ .rounds) : (s.writeRounds v).held κ = s.held κ := by
  obtain e | ⟨r, -, e⟩ := writeRounds_cases v s
  · rw [e]
  · rw [e]
    cases κ with
    | rounds => exact absurd rfl h
    | _ => rfl

end

/-- A write to a slot other than CMD and CTRL stores there and changes no slot of another kind (20_memory.md R53, R60). -/
theorem slotWrite_stores {k : Slot} {s : State} (hb : s.busy = false) (hcmd : slotKind k ≠ .cmd)
    (hctrl : slotKind k ≠ .ctrl) (v : Nat) :
    SlotStored v s (s.slotWrite k v) ∧ ∀ κ ≠ slotKind k, (s.slotWrite k v).held κ = s.held κ := by
  cases hk : slotKind k with
  | data i => rw [slotWrite_data hb v hk]; exact ⟨.data i, fun κ => held_set_d s v⟩
  | px i => rw [slotWrite_px hb v hk]; exact ⟨.px i, fun κ => held_set_x s v⟩
  | py i => rw [slotWrite_py hb v hk]; exact ⟨.py i, fun κ => held_set_y s v⟩
  | pinf => rw [slotWrite_pinf hb v hk]; exact ⟨.pinf, fun κ => held_writePinf s v⟩
  | cmd => exact absurd hk hcmd
  | status => rw [slotWrite_status hb v hk]; exact ⟨.nothing, fun _ _ => rfl⟩
  | ctrl => exact absurd hk hctrl
  | rounds =>
    obtain rfl := (slotKind_rounds_iff k).mp hk
    rw [slotWrite_rounds hb]; exact ⟨.rounds, fun κ => held_writeRounds s v⟩
  | id =>
    obtain rfl := (slotKind_id_iff k).mp hk
    rw [slotWrite_id hb]; exact ⟨.nothing, fun _ _ => rfl⟩
  | reserved => rw [slotWrite_reserved hk hb]; exact ⟨.nothing, fun _ _ => rfl⟩

/-- Two slots do not overlap: a write to one changes nothing at another (20_memory.md R60). -/
theorem held_slotWrite_other {j k : Slot} {s : State} (hb : s.busy = false) (hcmd : slotKind k ≠ .cmd)
    (hctrl : slotKind k ≠ .ctrl) (hjk : j ≠ k) (v : Nat) :
    (s.slotWrite k v).held (slotKind j) = s.held (slotKind j) := by
  obtain hsame | hother := eq_or_ne (slotKind j) (slotKind k)
  · have hreserved := (slotKind_eq_cases hsame).resolve_right hjk
    rw [slotWrite_reserved hreserved hb]
  · exact (slotWrite_stores hb hcmd hctrl v).2 _ hother

theorem SlotStored.modelFault {v : Nat} {s t : State} (h : SlotStored v s t) : t.modelFault = s.modelFault := by
  cases h with
  | rounds => obtain h | ⟨r, -, h⟩ := writeRounds_cases v s <;> rw [h]
  | _ => rfl

/-! ## The host variable a read fills -/

theorem getVar_of_lt {r : List (Nat × Int)} {h : Nat} (hlt : ∀ y ∈ r, h < y.1) : getVar r h = 0 := by
  induction r with
  | nil => rfl
  | cons x r ih =>
    obtain ⟨hx, hr⟩ := List.forall_mem_cons.mp hlt
    rw [getVar, if_neg hx.ne', ih hr]

theorem getVar_consVar {r : List (Nat × Int)} {h : Nat} (hlt : ∀ y ∈ r, h < y.1) (z : Int) :
    getVar (consVar h z r) h = z := by
  unfold consVar
  split
  next hz => rw [getVar_of_lt hlt, hz]
  next => rw [getVar, if_pos rfl]

/-- A variable that is set reads back, where the variables are sorted (log 10). -/
theorem getVar_setVar {vars : List (Nat × Int)} (hv : VarsOk vars) (h : Nat) (z : Int) :
    getVar (setVar vars h z) h = z := by
  induction vars with
  | nil => exact getVar_consVar (by simp) z
  | cons x r ih =>
    obtain ⟨hlt, -, hr⟩ := varsOk_cons.mp hv
    rw [setVar]
    split
    next e => exact getVar_consVar (e ▸ hlt) z
    next hne =>
      split
      next hh => exact getVar_consVar (List.forall_mem_cons.mpr ⟨hh, fun y hy => hh.trans (hlt y hy)⟩) z
      next => rw [getVar, if_neg hne, ih hr]

/-! ## The bytes of a slot -/

/-- The first n bytes of a number, lowest first, stand for its residue modulo 256^n (20_memory.md R58). -/
theorem ofBytes_map_range (n v : Nat) :
    ofBytes ((List.range n).map fun j => BitVec.ofNat 8 (v >>> (8 * j))) = v % 256 ^ n := by
  induction n generalizing v with
  | zero => simp [ofBytes, Nat.mod_one]
  | succ n ih =>
    have hshift (j : Nat) : v >>> (8 * (j + 1)) = (v / 256) >>> (8 * j) := by
      rw [Nat.mul_succ, Nat.add_comm, Nat.shiftRight_add, Nat.shiftRight_eq_div_pow v 8]
    have hrest := ih (v / 256)
    simp only [← hshift] at hrest
    simp only [List.range_succ_eq_map, List.map_cons, List.map_map, Function.comp_def, ofBytes, Nat.succ_eq_add_one, hrest]
    rw [Nat.pow_succ', Nat.mod_mul]
    simp

theorem ofBytes_wordBytes {w : Width} {v : Nat} (h : w.Fits v) : ofBytes (wordBytes w v) = v := by
  have hspan : w.span = 256 ^ w.bytes := Nat.pow_mul 2 8 w.bytes
  rw [wordBytes, ofBytes_map_range, ← hspan, Nat.mod_eq_of_lt h]

theorem wordBytes_length (w : Width) (v : Nat) : (wordBytes w v).length = w.bytes := by
  simp [wordBytes]

theorem wordBytes_getElem? {w : Width} {j : Nat} (h : j < w.bytes) (v : Nat) :
    (wordBytes w v)[j]? = some (BitVec.ofNat 8 (v >>> (8 * j))) := by
  simp [wordBytes, h]

theorem fits_toNat (w : Width) {n : Nat} (h : n ≤ 32) (b : BitVec n) : w.Fits b.toNat :=
  b.isLt.trans_le ((Nat.pow_le_pow_right (by decide) h).trans (Width.two_pow_32_le_span w))

/-- Every slot reads a word of W bits (20_memory.md R52). -/
theorem fits_slotWord {s : State} (h : s.WordsFit) (k : Slot) : s.width.Fits (s.slotWord k) := by
  rw [slotWord_eq_held]
  cases slotKind k with
  | data i => exact h.data i
  | px i => exact h.x i
  | py i => exact h.y i
  | pinf => exact fits_toNat _ (by decide) _
  | cmd => exact h.cmd
  | status => exact fits_toNat _ (by decide) _
  | ctrl =>
    rw [State.held, State.ctrlWord, ← BitVec.toNat_ofBool]
    exact fits_toNat _ (by decide) _
  | rounds => exact fits_toNat _ (by decide) s.rounds
  | id => exact fits_toNat _ (by decide) _
  | reserved => exact Width.span_pos s.width

/-! ## What a bus access reaches -/

theorem offsetTarget_slot_iff {w : Width} {off : Int} {n : Nat} {k : Slot} :
    offsetTarget w off n = .slot k ↔ n = w.bytes ∧ off = k.toNat * w.bytes := by
  have hpos : 0 < w.bytes := by simp [Width.bytes]
  unfold offsetTarget
  constructor
  · intro h
    split at h
    next hc =>
      obtain ⟨hn, h0, hend, hmod⟩ := hc
      lift off to Nat using h0
      have hdvd : w.bytes ∣ off := Nat.dvd_of_mod_eq_zero (by exact_mod_cast hmod)
      have hlt : off / w.bytes < 32 := (Nat.div_lt_iff_lt_mul hpos).mpr (by exact_mod_cast hend)
      have hk : k.toNat = off / w.bytes := by
        rw [← BusTarget.slot.inj h, BitVec.toNat_ofNat, Int.toNat_natCast, Nat.mod_eq_of_lt hlt]
      exact ⟨hn, by rw [hk]; exact_mod_cast (Nat.div_mul_cancel hdvd).symm⟩
    next => split at h <;> cases h
  · rintro ⟨rfl, rfl⟩
    have hend : k.toNat * w.bytes < blockBytes w := Nat.mul_lt_mul_of_pos_right k.isLt hpos
    rw [if_pos ⟨rfl, by positivity, by exact_mod_cast hend, Int.mul_emod_left _ _⟩]
    rw [← Nat.cast_mul, Int.toNat_natCast, Nat.mul_div_cancel _ hpos, BitVec.ofNat_toNat, BitVec.setWidth_eq]

theorem busTarget_slot_iff {w : Width} {addr : Int} {n : Nat} {k : Slot} :
    busTarget w addr n = .slot k ↔ n = w.bytes ∧ addr = Config.base + k.toNat * w.bytes := by
  rw [busTarget, offsetTarget_slot_iff, sub_eq_iff_eq_add']

theorem busTarget_partial {w : Width} {addr : Int} {n : Nat} (hn : 0 < n) (hend : addr < Config.base + 32 * w.bytes)
    (hstart : Config.base < addr + n) (hslot : ∀ k, busTarget w addr n ≠ .slot k) :
    busTarget w addr n = .partialAccess := by
  have htouch : 0 < n ∧ addr - Config.base < blockBytes w ∧ 0 < addr - Config.base + n := by
    rw [blockBytes]
    omega
  rw [busTarget, offsetTarget, if_neg fun h => hslot _ (if_pos h), if_pos htouch]

/-! ## The obligations -/

/-- Settles O28: CTRL is the one slot whose write BUSY does not lose. -/
theorem busyWrite : Obligations.BusyWrite := by
  intro s k v hb
  have hctrl := slotKind_ctrl_iff k
  exact ⟨fun h => slotWrite_busy (mt hctrl.mp h) hb v, fun h => slotWrite_ctrl (hctrl.mpr h) v s⟩

/-- Settles O29, from what stands at a slot after a write to it, and the slot map. -/
theorem writeThenRead : Obligations.WriteThenRead := by
  refine ⟨fun s v hb => ⟨fun k hk => ?_, ?_, ?_, slotWrite_status hb v slotKind_status, ?_⟩,
    fun s => ⟨fun i => ?_, fun i => ?_, rfl, pinfWord_testBit s, fun i => pinfWord_testBit_ge s, slotWritten_pinf s⟩⟩
  · rw [slotWord_eq_held, slotWritten_eq_held, held_slotWrite_same hk hb]
    exact ⟨rfl, rfl⟩
  · exact (congrArg State.pinfWord (slotWrite_pinf hb v slotKind_pinf)).trans (writePinf_pinfWord v s)
  · exact (congrArg (State.slotWritten 0x18#5) (slotWrite_pinf hb v slotKind_pinf)).trans (writePinf_slotWritten v s)
  · exact (congrArg State.cmd (slotWrite_cmd hb v)).trans (accept_cmd v s)
  · rw [slotWord_eq_held, slotWritten_eq_held, slotKind_dataSlot]
    exact ⟨rfl, rfl⟩
  · simp only [slotWord_eq_held, slotWritten_eq_held, slotKind_pxSlot, slotKind_pySlot]
    exact ⟨rfl, rfl, rfl, rfl⟩

/-- Settles O30: the write stores at its own slot, no two slots are of one kind, and nothing but a slot is stored. -/
theorem slotWriteFrame : Obligations.SlotWriteFrame := by
  intro s k j v hb hk hk' hjk
  have hcmd := mt (slotKind_cmd_iff k).mp hk
  have hctrl := mt (slotKind_ctrl_iff k).mp hk'
  have hheld := held_slotWrite_other hb hcmd hctrl hjk v
  have hstored := (slotWrite_stores hb hcmd hctrl v).1
  obtain ⟨hlatch, hrng⟩ := hstored.exchange
  obtain ⟨hhost, hschedule, hwidth, hended⟩ := slotWrite_frame k v s
  simp only [slotWord_eq_held, slotWritten_eq_held, hheld]
  exact ⟨trivial, trivial, hlatch, hrng, hstored.modelFault, hhost, hended, hschedule, hwidth⟩

/-- Settles O31: a read touches the record of model faults and the host's variables, which no slot reads. -/
theorem slotReadEffect : Obligations.SlotReadEffect := by
  intro s h k j
  exact ⟨rfl, rfl, fun hv => getVar_setVar hv h _⟩

/-- Settles O32, by the offset of the address from BASE and the bytes of a word that fits. -/
theorem busMapping : Obligations.BusMapping := by
  have hwhole (w : Width) (k : Slot) : busTarget w (Config.base + k.toNat * w.bytes) w.bytes = .slot k :=
    busTarget_slot_iff.mpr ⟨rfl, rfl⟩
  refine ⟨fun s k h hs => ?_, fun s k v => ?_, fun s addr n h v hn hend hstart hslot => ?_,
    fun w v hv => ⟨wordBytes_length w v, ofBytes_wordBytes hv, fun j hj => ⟨_, wordBytes_getElem? hj v, fun i hi => ?_⟩⟩⟩
  · simp only [State.memRead, hwhole, ofBytes_wordBytes (fits_slotWord hs k), State.hostRead]
  · simp only [State.memWrite, hwhole, ofBytes_wordBytes (word_fits s.width v)]
  · have hpartial := busTarget_partial hn hend hstart fun k => mt busTarget_slot_iff.mp (hslot k)
    simp only [State.memRead, State.memWrite, hpartial, and_self]
  · rw [BitVec.getLsbD_ofNat, Nat.testBit_shiftRight, decide_eq_true hi, Bool.true_and]

end Sys2Proof.Machine

/-! PROOF. The command word (30_encoding.md R70 to R92): when a word meets a row of the opcode table, said once by its fields;
from it what decodes, what its encoding is, and what is illegal. -/

namespace Sys2Proof

open Machine

/-! ## Fields under a mask -/

theorem opOf_and (w m : BitVec 32) : opOf (w &&& m) = opOf w &&& opOf m := BitVec.extractLsb'_and

theorem rsvOf_and (w m : BitVec 32) : rsvOf (w &&& m) = rsvOf w &&& rsvOf m := BitVec.extractLsb'_and

/-- Each field under the same field of a mask. -/
def Fields.under (f m : Fields) : Fields :=
  ⟨f.fd &&& m.fd, f.fa &&& m.fa, f.fb &&& m.fb, f.fm &&& m.fm, f.fc &&& m.fc, f.l && m.l⟩

theorem fieldsOf_and (w m : BitVec 32) : fieldsOf (w &&& m) = (fieldsOf w).under (fieldsOf m) := by
  simp only [fieldsOf, Fields.under, BitVec.extractLsb'_and, BitVec.getLsbD_and]

/-- The part of a form's mask that covers the fields: all bits of a field that must be 0, bits 3:2 of a point field
(30_encoding.md R75). -/
def Form.fieldMask : Form → Fields
  | .n => ⟨0xF, 0xF, 0xF, 0xF, 0xF, true⟩
  | .rrrm => ⟨0, 0, 0, 0, 0xF, true⟩
  | .rrm => ⟨0, 0, 0xF, 0, 0xF, true⟩
  | .rm => ⟨0, 0xF, 0xF, 0, 0xF, true⟩
  | .rrr => ⟨0, 0, 0, 0xF, 0xF, true⟩
  | .rr => ⟨0, 0, 0xF, 0xF, 0xF, true⟩
  | .ppp => ⟨0xC, 0xC, 0xC, 0, 0, false⟩
  | .pp => ⟨0xC, 0xC, 0xF, 0, 0, false⟩
  | .ppk => ⟨0xC, 0xC, 0, 0, 0, false⟩

theorem opOf_mask (form : Form) : opOf form.mask = BitVec.allOnes 6 := by cases form <;> rfl

theorem rsvOf_mask (form : Form) : rsvOf form.mask = BitVec.allOnes 5 := by cases form <;> rfl

theorem fieldsOf_mask (form : Form) : fieldsOf form.mask = form.fieldMask := by cases form <;> rfl

theorem field_and_0xF (f : Field) : f &&& 0xF#4 = 0#4 ↔ f = 0#4 := by revert f; decide

/-- A point field is one with bits 3:2 both 0 (30_encoding.md R71). -/
theorem field_and_0xC (f : Field) : f &&& 0xC#4 = 0#4 ↔ f < 4#4 := by revert f; decide

/-! ## The rows of the opcode table -/

theorem eq_pack_iff {w : BitVec 32} {op : BitVec 6} {f : Fields} :
    w = pack op f ↔ opOf w = op ∧ rsvOf w = 0#5 ∧ fieldsOf w = f := by
  constructor
  · rintro rfl
    exact ⟨opOf_pack op f, rsvOf_pack op f, fieldsOf_pack op f⟩
  · rintro ⟨rfl, hrsv, rfl⟩
    exact (pack_fieldsOf w hrsv).symm

/-- What the field mask of a form asks of the fields. -/
theorem under_fieldMask_iff (form : Form) (f : Fields) :
    f.under form.fieldMask = ⟨0, 0, 0, 0, 0, false⟩ ↔ MustBeZero form f ∧ PointFieldsLegal form f := by
  cases form with
  | pp =>
    have horder := (and_rotate (a := f.fb = 0#4) (b := f.fd < 4#4) (c := f.fa < 4#4)).symm
    simpa [Fields.under, Form.fieldMask, MustBeZero, PointFieldsLegal, field_and_0xF, field_and_0xC] using horder
  | _ => simp [Fields.under, Form.fieldMask, MustBeZero, PointFieldsLegal, field_and_0xF, field_and_0xC]

/-- A word meets a row exactly when it has the row's opcode, RSV is 0, and its fields are as the row's form allows
(30_encoding.md R75). -/
theorem meets_row_iff {w : BitVec 32} {mn : Mnemonic} :
    w &&& mn.form.mask = matchOf mn.op ↔
      opOf w = mn.op ∧ rsvOf w = 0#5 ∧ MustBeZero mn.form (fieldsOf w) ∧ PointFieldsLegal mn.form (fieldsOf w) := by
  rw [matchOf_eq, eq_pack_iff, opOf_and, rsvOf_and, fieldsOf_and, opOf_mask, rsvOf_mask, fieldsOf_mask,
    BitVec.and_allOnes, BitVec.and_allOnes, under_fieldMask_iff]

theorem opRow_eq_some_iff {op : BitVec 6} {mn : Mnemonic} : opRow op = some mn ↔ op = mn.op :=
  ⟨fun h => (op_of_opRow h).symm, fun h => h ▸ opRow_op mn⟩

/-! ## What decodes -/

theorem decode32_eq_cmd_iff {w : BitVec 32} {i : Instr} :
    decode32 w = .cmd i ↔ ∃ mn : Mnemonic, w &&& mn.form.mask = matchOf mn.op ∧ i = build mn (fieldsOf w) := by
  constructor
  · intro h
    obtain ⟨mn, -, hrow, hi⟩ := decode32_cmd h
    exact ⟨mn, hrow, hi⟩
  · rintro ⟨mn, hrow, rfl⟩
    exact decode32_row (meets_row_iff.mp hrow).1 hrow

theorem decode32_legal_iff (w : BitVec 32) :
    (∃ i, decode32 w = .cmd i) ↔ ∃ mn : Mnemonic, w &&& mn.form.mask = matchOf mn.op := by
  constructor
  · rintro ⟨i, h⟩
    obtain ⟨mn, hrow, -⟩ := decode32_eq_cmd_iff.mp h
    exact ⟨mn, hrow⟩
  · rintro ⟨mn, hrow⟩
    exact ⟨_, decode32_eq_cmd_iff.mpr ⟨mn, hrow, rfl⟩⟩

/-- No word meets the rows of two mnemonics: an opcode has one. -/
theorem row_unique {w : BitVec 32} {a b : Mnemonic} (ha : w &&& a.form.mask = matchOf a.op)
    (hb : w &&& b.form.mask = matchOf b.op) : a = b :=
  Laws.Encoding.op_injective ((meets_row_iff.mp ha).1.symm.trans (meets_row_iff.mp hb).1)

theorem decode32_reserved_iff (w : BitVec 32) : decode32 w = .illegal .reservedOpcode ↔ opRow (opOf w) = none := by
  unfold decode32
  split
  next h => simp [h]
  next mn h =>
    split
    next => simp [h]
    next => split <;> simp [h]

/-- The opcodes with no row (30_encoding.md R85). -/
theorem opRow_eq_none_iff (op : BitVec 6) :
    opRow op = none ↔
      op ∈ [0x03#6, 0x06#6, 0x07#6, 0x0B#6, 0x0E#6, 0x0F#6] ∨ (0x13#6 ≤ op ∧ op ≤ 0x17#6) ∨ 0x1B#6 ≤ op := by
  revert op; decide

theorem decode_eq_cmd_iff {v : Nat} {i : Instr} :
    decode v = .cmd i ↔ v < 2 ^ 32 ∧ decode32 (BitVec.ofNat 32 v) = .cmd i := by
  obtain hv | hv := Nat.lt_or_ge v (2 ^ 32)
  · rw [decode_eq hv]
    exact (and_iff_right hv).symm
  · rw [decode_wide hv]
    exact iff_of_false nofun fun h => Nat.not_lt.mpr hv h.1

/-! ## Decoding and encoding -/

theorem mustBeZero_fields (i : Instr) : MustBeZero i.mnemonic.form i.fields := by
  cases i <;> simp [MustBeZero, Instr.mnemonic, Mnemonic.form, Instr.fields]

/-- Well-formedness is that the point fields of the form are legal (30_encoding.md R71). -/
theorem wellFormed_iff (i : Instr) : i.WellFormed ↔ PointFieldsLegal i.mnemonic.form i.fields := by
  cases i <;> simp [Instr.WellFormed, Instr.wellFormed, PointFieldsLegal, Instr.mnemonic, Mnemonic.form, Instr.fields,
    and_assoc]

theorem decode_encodeWord {i : Instr} (h : i.WellFormed) : decode (encodeWord i) = .cmd i := by
  apply decode_encodeWord_of_row
  rw [meets_row_iff, encode, opOf_pack, rsvOf_pack, fieldsOf_pack]
  exact ⟨rfl, rfl, mustBeZero_fields i, (wellFormed_iff i).mp h⟩

/-- A command keeps every field of its word: those its form does not use are 0. -/
theorem fields_build {mn : Mnemonic} {f : Fields} (h : MustBeZero mn.form f) : (build mn f).fields = f := by
  obtain ⟨fd, fa, fb, fm, fc, l⟩ := f
  cases mn <;> simp_all [MustBeZero, Mnemonic.form, build, Instr.fields]

theorem encode_of_decode32 {w : BitVec 32} {i : Instr} (h : decode32 w = .cmd i) : encode i = w := by
  obtain ⟨mn, hrow, rfl⟩ := decode32_eq_cmd_iff.mp h
  obtain ⟨hop, hrsv, hzero, -⟩ := meets_row_iff.mp hrow
  rw [encode, build_mnemonic, fields_build hzero, ← hop, pack_fieldsOf w hrsv]

theorem encodeWord_of_decode {v : Nat} {i : Instr} (h : decode v = .cmd i) : encodeWord i = v := by
  obtain ⟨hv, h32⟩ := decode_eq_cmd_iff.mp h
  rw [encodeWord, encode_of_decode32 h32, BitVec.toNat_ofNat, Nat.mod_eq_of_lt hv]

/-- The word of a well-formed command decodes to it. -/
theorem decode_of_encodeWord_eq {v : Nat} {i : Instr} (h : encodeWord i = v) (hi : i.WellFormed) : decode v = .cmd i :=
  h ▸ decode_encodeWord hi

/-! ## Illegal words -/

theorem illegal_iff_not_legal (v : Nat) : (∃ why, decode v = .illegal why) ↔ ¬ ∃ i, decode v = .cmd i := by
  cases decode v <;> simp

/-- A legal word by its fields, clause for clause the opposite of 30_encoding.md R84. -/
theorem legal_iff (v : Nat) :
    (∃ i, decode v = .cmd i) ↔
      v < 2 ^ 32 ∧ ∃ mn, opRow (opOf (BitVec.ofNat 32 v)) = some mn ∧ rsvOf (BitVec.ofNat 32 v) = 0#5 ∧
        MustBeZero mn.form (fieldsOf (BitVec.ofNat 32 v)) ∧ PointFieldsLegal mn.form (fieldsOf (BitVec.ofNat 32 v)) := by
  simp only [decode_eq_cmd_iff, exists_and_left, decode32_legal_iff, meets_row_iff, opRow_eq_some_iff]

theorem illegal_iff (v : Nat) :
    (∃ why, decode v = .illegal why) ↔
      2 ^ 32 ≤ v ∨ opRow (opOf (BitVec.ofNat 32 v)) = none ∨ rsvOf (BitVec.ofNat 32 v) ≠ 0 ∨
        ∃ mn, opRow (opOf (BitVec.ofNat 32 v)) = some mn ∧
          (¬ MustBeZero mn.form (fieldsOf (BitVec.ofNat 32 v)) ∨
            ¬ PointFieldsLegal mn.form (fieldsOf (BitVec.ofNat 32 v))) := by
  rw [illegal_iff_not_legal, legal_iff, not_and_or, Nat.not_lt]
  cases opRow (opOf (BitVec.ofNat 32 v)) with
  | none => simp
  | some mn => simp only [Option.some.injEq, exists_eq_left', not_and_or, reduceCtorEq, false_or]; rfl

end Sys2Proof

namespace Sys2Proof.Machine

/-- Acceptance of an illegal word while BUSY is 0 (10_state.md R40, 30_encoding.md R84). -/
theorem slotWrite_cmd_illegal {s : State} {v : Nat} {why : Illegal} (hb : s.busy = false) (h : decode v = .illegal why) :
    s.slotWrite cmdSlot v = { s with cmd := v, done := true, ecode := 6, err := true } := by
  rw [slotWrite_cmd hb, accept_illegal h, ← (not_busy_iff s).mp hb]
  rfl

/-! ## The obligations -/

/-- Settles O8: the word of a well-formed command meets its own row, and the row's fields are the command's. -/
theorem decodeEncode : Obligations.DecodeEncode :=
  fun i w hi => ⟨decode_encodeWord hi, fits_encodeWord w i⟩

/-- Settles O9: a row leaves no bit of a word free but the fields its command keeps. -/
theorem encodeDecode : Obligations.EncodeDecode :=
  fun _ _ h => ⟨encodeWord_of_decode h, decode_wellFormed h⟩

/-- Settles O10: a word is illegal when it meets no row, and its acceptance is its completion with code 6. -/
theorem illegalWords : Obligations.IllegalWords :=
  ⟨illegal_iff, fun _ _ _ => slotWrite_cmd_illegal⟩

/-- Settles O11: the reserved opcodes have no row, and the word of NOP is 0. -/
theorem reservedOpcodes : Obligations.ReservedOpcodes := by
  refine ⟨fun w => ?_, fun w => ⟨fun h => ?_, fun h => ?_⟩⟩
  · rw [decode32_reserved_iff, opRow_eq_none_iff]
  · have hword := encode_of_decode32 h
    exact hword.symm
  · rw [h]
    decide

/-- Settles O12: a word that decodes has found its row, and the opcode names the row. -/
theorem rowsDisjoint : Obligations.RowsDisjoint :=
  ⟨decode32_legal_iff, fun _ _ _ => row_unique⟩

/-- Settles O7: each legal word is the encoding of the command it is named for. -/
theorem encodingExamples : Obligations.EncodingExamples := by
  have hillegal : decode 0x04C48001 = .illegal .reservedBits := by decide
  refine ⟨rfl, ?_, ⟨_, hillegal⟩, ?_, ?_, ?_, ?_, ?_, ?_, ?_, ?_⟩
  all_goals exact decode_of_encodeWord_eq rfl rfl

end Sys2Proof.Machine

/-! PROOF. The commands' operands and frames (30_encoding.md R75, R76, 10_state.md R35, R41): what LATCH receives by a command's
roles, and which registers a core's step writes. -/

namespace Sys2Proof.Machine

/-! ## Operands by role -/

section

variable (s : State) (f : Field)

@[simp] theorem dataRole_none : s.dataRole none = 0 := rfl
@[simp] theorem dataRole_some : s.dataRole (some f) = s.d[dIdx f].value := rfl
@[simp] theorem pointRole_none : s.pointRole none = .infinity := rfl
@[simp] theorem pointRole_some : s.pointRole (some f) = s.p[pIdx f].pt := rfl
@[simp] theorem dataRoleWritten_none : s.dataRoleWritten none = true := rfl
@[simp] theorem dataRoleWritten_some : s.dataRoleWritten (some f) = s.d[dIdx f].written := rfl
@[simp] theorem pointRoleWritten_none : s.pointRoleWritten none = true := rfl
@[simp] theorem pointRoleWritten_some : s.pointRoleWritten (some f) = s.p[pIdx f].ptWritten := rfl

end

/-! ## What a command writes -/

/-- `u` is `s` with data registers among `fs` written, and nothing else changed. -/
def DataWritten (fs : List Field) (s u : State) : Prop :=
  ∃ d, u = { s with d := d } ∧ ∀ f ∉ fs, d[dIdx f] = s.d[dIdx f]

theorem DataWritten.refl (fs : List Field) (s : State) : DataWritten fs s s := ⟨s.d, rfl, fun _ _ => rfl⟩

theorem DataWritten.setData {fs : List Field} {s u : State} (h : DataWritten fs s u) {f : Field} (hf : f ∈ fs) (v : Nat) :
    DataWritten fs s (u.setData f v) := by
  obtain ⟨d, rfl, hframe⟩ := h
  refine ⟨d.set (dIdx f) (Held.of v), rfl, fun g hg => ?_⟩
  have hne : dIdx g ≠ dIdx f := fun e => hg (dIdx_inj.mp e ▸ hf)
  exact (getElem_set_other d hne _).trans (hframe g hg)

theorem dataWritten_commitBezout (fd fa fb : Field) (r : Bezout) (s : State) :
    DataWritten (dataDests (.xgcd fd fa fb)) s (commitBezout fd r s) :=
  (((DataWritten.refl _ s).setData (by simp [dataDests]) _).setData (by simp [dataDests, fieldAfter]) _).setData
    (by simp [dataDests, fieldAfter]) _

/-- FD of a command that writes data registers, NOP apart, is one of its destinations (30_encoding.md R75). -/
theorem fd_mem_dataDests {i : Instr} (hi : isPointCommand i = false) (hnop : i ≠ .nop) : i.fields.fd ∈ dataDests i := by
  cases i <;> simp_all [dataDests, Instr.fields, isPointCommand, Instr.mnemonic]

theorem pointDests_of_pointCommand {i : Instr} (hi : isPointCommand i = true) : pointDests i = [i.fields.fd] := by
  cases i <;> simp_all [pointDests, Instr.fields, isPointCommand, Instr.mnemonic]

theorem isPointCommand_of_isMrprime {i : Instr} (h : isMrprime i = true) : isPointCommand i = false := by
  cases i <;> simp_all [isPointCommand, isMrprime, Instr.mnemonic]

theorem Committed.dataWritten {i : Instr} {s u : State} (h : Committed i s u) (hi : isPointCommand i = false)
    (hnop : i ≠ .nop) : DataWritten (dataDests i) s u := by
  cases h with
  | nop => exact absurd rfl hnop
  | data _ _ v _ => exact (DataWritten.refl _ s).setData (fd_mem_dataDests hi hnop) v
  | bezout fd fa fb _ r => exact dataWritten_commitBezout fd fa fb r s
  | point _ _ _ hp => exact absurd hp (by simp [hi])

theorem exec_nop {s t : State} (h : exec .nop s = .next t) : t = s.finish okCode := by
  cases hl : s.latch with
  | none => rw [exec_no_command .nop hl] at h; cases h
  | some l =>
    rw [exec, execNop, onLatch_some hl, complete_ok] at h
    exact (Host.Outcome.next.inj h).symm

/-- The core's step on a command of data registers: a completion that writes some of its destinations, or an MRPRIME that
waits for the RNG or asks it again. -/
theorem dataCommand_cases {i : Instr} {s t : State} (hi : isPointCommand i = false) (h : exec i s = .next t) :
    (∃ u e, DataWritten (dataDests i) s u ∧ t = u.finish e) ∨
      (isMrprime i = true ∧ (t = s ∨ ∃ n l, s.latch = some l ∧ t = s.requestDraw n l)) := by
  obtain rfl | hnop := eq_or_ne i .nop
  · exact .inl ⟨s, okCode, .refl _ s, exec_nop h⟩
  · obtain ⟨c, -, ht⟩ | ⟨u, hu, ht⟩ | hdraw := exec_next_cases h
    · exact .inl ⟨s, c.code, .refl _ s, ht⟩
    · exact .inl ⟨u, okCode, hu.dataWritten hi hnop, ht⟩
    · exact .inr hdraw

/-- The core's step on a point command: a completion that writes nothing, or FD's point register. -/
theorem pointCommand_cases {i : Instr} {s t : State} (hi : isPointCommand i = true) (h : exec i s = .next t) :
    (∃ e, t = s.finish e) ∨ ∃ r e, t = (s.setPoint i.fields.fd r).finish e := by
  obtain ⟨c, -, ht⟩ | ⟨u, hu, ht⟩ | ⟨hmr, -⟩ := exec_next_cases h
  · exact .inl ⟨c.code, ht⟩
  · cases hu with
    | nop => cases hi
    | data _ _ _ hd => exact absurd hd (by simp [hi])
    | bezout => cases hi
    | point _ _ r _ => exact .inr ⟨r, okCode, ht⟩
  · exact absurd (isPointCommand_of_isMrprime hmr) (by simp [hi])

/-! ## The obligations -/

/-- Settles O19: a completion writes among the destinations and empties LATCH; an MRPRIME that goes on touches LATCH and the RNG
exchange alone. -/
theorem dataCommandFrame : Obligations.DataCommandFrame := by
  intro i s t hi h
  obtain ⟨u, e, ⟨d, rfl, hframe⟩, rfl⟩ | ⟨hmr, rfl | ⟨n, l, hl, rfl⟩⟩ := dataCommand_cases hi h
  · exact ⟨hframe, rfl, rfl, rfl, rfl, rfl, rfl, rfl, rfl, rfl, rfl, fun _ => rfl, nofun⟩
  · exact ⟨fun _ _ => rfl, rfl, rfl, rfl, rfl, rfl, rfl, rfl, rfl, rfl, rfl, fun _ => rfl,
      fun l' hl' => ⟨rfl, rfl, rfl, rfl, l', hl', rfl, rfl, rfl⟩⟩
  · refine ⟨fun _ _ => rfl, rfl, rfl, rfl, rfl, rfl, rfl, rfl, rfl, rfl, rfl, fun hother => ?_, ?_⟩
    · exact absurd hmr (by simp [hother])
    · rintro _ ⟨⟩
      exact ⟨rfl, rfl, rfl, rfl, l, hl, rfl, rfl, rfl⟩

/-- Settles O20: a completion writes at most FD's point register. -/
theorem pointCommandFrame : Obligations.PointCommandFrame := by
  intro i s t hi h
  obtain ⟨e, rfl⟩ | ⟨r, e, rfl⟩ := pointCommand_cases hi h
  · exact ⟨fun _ _ => rfl, rfl, rfl, rfl, rfl, rfl, rfl, rfl, rfl, rfl, rfl, rfl⟩
  · refine ⟨fun j hj => ?_, rfl, rfl, rfl, rfl, rfl, rfl, rfl, rfl, rfl, rfl, rfl⟩
    have hne : j ≠ pIdx i.fields.fd := by simpa [pointDests_of_pointCommand hi] using hj
    exact getElem_set_other s.p hne _

/-- Settles O14: the operands are those of the command's roles, form by form. -/
theorem operandsByForm : Obligations.OperandsByForm := by
  refine ⟨fun f => ⟨rfl, pIdx_val_of_legal⟩, fun s fd fa fb fm fc g => ?_⟩
  have hrrrm : ∀ i ∈ [Instr.addmod fd fa fb fm, .submod fd fa fb fm, .mulmod fd fa fb fm, .powmod fd fa fb fm],
      roles i = ⟨some fa, some fb, some fm, none, none, none⟩ := by simp [roles]
  have hrrm : ∀ i ∈ [Instr.inve fd fa fm, .invb fd fa fm, .invf fd fa fm, .mrround fd fa fm],
      roles i = ⟨some fa, none, some fm, none, none, none⟩ := by simp [roles]
  have hrrr : ∀ i ∈ [Instr.gcd fd fa fb, .xgcd fd fa fb], roles i = ⟨some fa, some fb, none, none, none, none⟩ := by
    simp [roles]
  simp only [State.readOperands, State.operandsWritten]
  refine ⟨fun i hi => ?_, fun i hi => ?_, ?_, fun i hi => ?_, ?_, ?_, ?_, ?_, rfl, fun r => ⟨rfl, rfl⟩⟩
  · simp [hrrrm i hi]
  · simp [hrrm i hi]
  · simp [roles]
  · simp [hrrr i hi]
  · simp [roles]
  · simp [roles]
  · simp [roles]
  · simp [roles]

end Sys2Proof.Machine

/-! PROOF. The host's turn, statement by statement (30_encoding.md R90), and the note of the run's end (70_reset_and_hazards.md
R222). -/

namespace Sys2Proof.Machine

/-! ## The host's turn -/

theorem hostTurn_idle {s : State} (h : s.host.halted = true ∨ s.host.script[s.host.pos]? = none) : hostTurn s = .next s := by
  unfold hostTurn
  split
  next => rfl
  next hrun => rw [h.resolve_left hrun]

theorem hostTurn_stmt {s : State} {lab : Option Label} {st : Stmt} (hrun : s.host.halted = false)
    (hst : s.host.script[s.host.pos]? = some ⟨lab, st⟩) : takeTurn .host s = runStmt st s := by
  rw [takeTurn, hostTurn, hrun, hst]
  rfl

theorem branch_of_label {s : State} {l : Label} {n : Nat} (h : labelPos s.host.script l = some n) :
    s.branch l = .next { s with host := { s.host with pos := n } } := by
  rw [State.branch, h]

theorem branch_of_no_label {s : State} {l : Label} (h : labelPos s.host.script l = none) :
    s.branch l = .refused .unknownLabel := by
  rw [State.branch, h]

/-- BEQ branches where the values are equal, and goes on where they are not. -/
theorem runStmt_beq (a b : Expr) (l : Label) (s : State) :
    runStmt (.beq a b l) s = if a.eval s.host.vars = b.eval s.host.vars then s.branch l else .next s.advance := rfl

theorem runStmt_bne (a b : Expr) (l : Label) (s : State) :
    runStmt (.bne a b l) s = if a.eval s.host.vars = b.eval s.host.vars then .next s.advance else s.branch l := rfl

/-! ## The end of the run -/

theorem noteEnd_of_end {s : State} (hhalt : s.host.halted = true) (hb : s.busy = false) (he : s.ended = none) :
    s.noteEnd = { s with ended := some s.observation } := by
  simp [State.noteEnd, hhalt, hb, he]

theorem noteEnd_of_no_end {s : State} (h : s.host.halted = false ∨ s.busy = true ∨ s.ended ≠ none) : s.noteEnd = s := by
  obtain hsame | ⟨hhalt, hb, he, -⟩ := noteEnd_cases s
  · exact hsame
  · simp [hhalt, hb, he] at h

theorem observation_slot (s : State) (k : Slot) : s.observation.slots[k.toNat]? = some (s.observe k) := by
  simp [State.observation, k.isLt]

/-! ## The obligation -/

/-- Settles O33: the host's turn is its next statement, and a branch by whether it is taken and whether its label is there. -/
theorem hostStatements : Obligations.HostStatements := by
  refine ⟨fun s => hostTurn_idle, fun s lab st hrun hst => ?_, fun s => ⟨noteEnd_of_end, noteEnd_of_no_end⟩,
    fun s => ⟨rfl, by simp [State.observation], observation_slot s⟩⟩
  rw [hostTurn_stmt hrun hst]
  refine ⟨?_, ?_, ?_, ?_, ?_, ?_, ?_, ?_, ?_, ?_, ?_⟩
  · rintro k e rfl; rfl
  · rintro h k rfl; rfl
  · rintro i rfl; rfl
  · rintro h e rfl; rfl
  · rintro a b l n rfl hn
    rw [runStmt_beq, branch_of_label hn, apply_ite Host.Outcome.next]
  · rintro a b l n rfl hn
    rw [runStmt_bne, branch_of_label hn, apply_ite Host.Outcome.next]
  · rintro a b l rfl hn
    rw [runStmt_beq, branch_of_no_label hn]
  · rintro a b l rfl hn
    rw [runStmt_bne, branch_of_no_label hn]
  · rintro h a n rfl; rfl
  · rintro a n e rfl; rfl
  · rintro rfl; rfl

end Sys2Proof.Machine

/-! PROOF. The modular adder and subtractor (40_safe_modular_arithmetic.md R101 to R104): what ADDMOD and SUBMOD write, and that
on reduced operands one conditional correction gives the residue. -/

namespace Sys2Proof.Machine

/-! ## How a command with a modulus and a data result completes -/

theorem completeData_ok (fd : Field) (v : Nat) (s : State) :
    s.completeData fd (.ok v) = (s.setData fd (word s.width v)).finish okCode := complete_ok v _ s

theorem completeData_error (fd : Field) (c : ErrorCode) (s : State) : s.completeData fd (.error c) = s.finish c.code :=
  complete_error c _ s

/-- Modulus 0 completes with code 2 and writes no result, whatever the command would compute. -/
theorem completeData_withModulus_zero {m : Nat} (hm : m = 0) (fd : Field) (r : Except ErrorCode Nat) (s : State) :
    s.completeData fd (withModulus m r) = s.finish 2 := by
  rw [hm, withModulus_zero, completeData_error]
  rfl

theorem completeData_withModulus_pos {m : Nat} (hm : m ≠ 0) (fd : Field) (v : Nat) (s : State) :
    s.completeData fd (withModulus m (.ok v)) = (s.setData fd (word s.width v)).finish okCode := by
  rw [withModulus_pos hm, completeData_ok]

/-! ## ADDMOD and SUBMOD -/

theorem exec_addmod_zero {s : State} {l : Latch} (hl : s.latch = some l) (hm : l.m = 0) (fd fa fb fm : Field) :
    exec (.addmod fd fa fb fm) s = .next (s.finish 2) := by
  simp only [exec, execAddmod, onLatch_some hl, addmodResult, completeData_withModulus_zero hm]

theorem exec_submod_zero {s : State} {l : Latch} (hl : s.latch = some l) (hm : l.m = 0) (fd fa fb fm : Field) :
    exec (.submod fd fa fb fm) s = .next (s.finish 2) := by
  simp only [exec, execSubmod, onLatch_some hl, submodResult, completeData_withModulus_zero hm]

theorem exec_submod {s : State} {l : Latch} (hl : s.latch = some l) (hm : l.m ≠ 0) (fd fa fb fm : Field) :
    exec (.submod fd fa fb fm) s = .next ((s.setData fd (word s.width (subModF l.a l.b l.m : Nat))).finish okCode) := by
  simp only [exec, execSubmod, onLatch_some hl, submodResult, completeData_withModulus_pos hm]

/-! ## The residues -/

/-- For a modulus above 0, `modN` is the floor residue over the integers (00_scope.md R9). -/
theorem coe_modN {m : Nat} (hm : m ≠ 0) (z : Int) : (modN z m : Int) = z % m :=
  Int.toNat_of_nonneg (Int.emod_nonneg z (Int.ofNat_ne_zero.mpr hm))

theorem coe_subModF {m : Nat} (hm : m ≠ 0) (a b : Nat) : (subModF a b m : Int) = ((a : Int) - b) % m := coe_modN hm _

theorem addModF_of_reduced {a b m : Nat} (ha : a < m) (hb : b < m) :
    addModF a b m = if a + b < m then a + b else a + b - m := by
  split
  next hlt => exact Nat.mod_eq_of_lt hlt
  next hge => exact (Nat.mod_eq_sub_mod (by omega)).trans (Nat.mod_eq_of_lt (by omega))

theorem subModF_of_reduced {a b m : Nat} (ha : a < m) (hb : b < m) :
    subModF a b m = if b ≤ a then a - b else a + m - b := by
  have hres : (subModF a b m : Int) = ((a : Int) - b) % m := coe_subModF (by omega) a b
  split
  next hle =>
    have hself : ((a : Int) - b) % m = a - b := Int.emod_eq_of_lt (by omega) (by omega)
    omega
  next hgt =>
    have hself : ((a : Int) - b) % m = a - b + m := by
      rw [← Int.add_emod_right, Int.emod_eq_of_lt (by omega) (by omega)]
    omega

/-- `SubModF(0, b, m)` is an additive inverse of b modulo m (40_safe_modular_arithmetic.md R104). -/
theorem addModF_subModF_zero {m : Nat} (hm : m ≠ 0) (b : Nat) : addModF b (subModF 0 b m) m = 0 := by
  have hsum : ((addModF b (subModF 0 b m) m : Nat) : Int) = 0 := calc
    _ = ((b : Int) + ((0 : Nat) - b) % m) % m := by rw [addModF, Int.natCast_mod, Int.natCast_add, coe_subModF hm]
    _ = 0 := by simp
  exact_mod_cast hsum

end Sys2Proof.Machine

namespace Sys2Proof

open Machine

/-! ## The obligations, outside the namespace in which `addmodResult` and `submodResult` are the model's functions -/

/-- Settles O36: the check of the modulus first, then the exact sum's residue. -/
theorem addmodResult : Obligations.AddmodResult := fun _ _ fd fa fb fm hl =>
  ⟨fun hm => exec_addmod_zero hl hm fd fa fb fm, fun hm => exec_addmod hl hm fd fa fb fm⟩

/-- Settles O37: the check of the modulus first, then the floor residue of the difference. -/
theorem submodResult : Obligations.SubmodResult := by
  intro s l fd fa fb fm hl
  refine ⟨fun hm => exec_submod_zero hl hm fd fa fb fm, fun hm => ?_⟩
  rw [exec_submod hl hm, coe_subModF hm]
  rfl

/-- Settles O38: a sum of two reduced operands passes the modulus at most once, and a difference falls below 0 at most once. -/
theorem modularLaws : Obligations.ModularLaws := by
  refine ⟨fun s l fd fa fb fm hl ha hb => ?_, fun a b m ha hb => ?_, fun b m hm => addModF_subModF_zero hm.ne' b⟩
  · have hm : l.m ≠ 0 := Nat.ne_zero_of_lt ha
    refine ⟨exec_addmod hl hm fd fa fb fm, ?_⟩
    rw [Int.add_emod_right, Int.emod_emod, exec_submod hl hm, coe_subModF hm]
    rfl
  · have hm : m ≠ 0 := Nat.ne_zero_of_lt ha
    exact ⟨rfl, by rw [Int.add_emod_right, Int.emod_emod, coe_subModF hm], addModF_of_reduced ha hb,
      subModF_of_reduced ha hb⟩

end Sys2Proof

/-! PROOF. The binary exponentiation engine (41_modular_exponentiation.md R110 to R113): one induction over the passes of
`BinaryCombine`, read once for repeated doubling (MULMOD) and once for repeated squaring (POWMOD). -/

namespace Sys2Proof.Machine

/-! ## BinaryCombine in a monoid -/

/-- The loop's invariant: `acc * base ^ e` is the same on every pass, read through any `f` that takes the combination to a
monoid's product. It is stated over a monoid so that the doubling loop (the additive one) and the squaring loop share it. -/
theorem map_combineLoop {M : Type*} [Monoid M] (f : Nat → M) {comb : Nat → Nat → Nat → Nat} {m : Nat}
    (hcomb : ∀ x y, f (comb x y m) = f x * f y) (acc base e : Nat) :
    f (combineLoop comb m (bitLength e) acc base e) = f acc * f base ^ e := by
  induction e using Nat.strong_induction_on generalizing acc base with
  | _ e ih =>
    obtain rfl | he := eq_or_ne e 0
    · rw [combineLoop_done, pow_zero, mul_one]
    · rw [combineLoop_pass comb m acc base he, ih (e / 2) (by omega), hcomb, ← pow_two, ← pow_mul]
      obtain heven | hodd := Nat.mod_two_eq_zero_or_one e
      · rw [if_neg (by omega), Nat.mul_div_cancel' (Nat.dvd_of_mod_eq_zero heven)]
      · have hsplit : 2 * (e / 2) + 1 = e := by omega
        rw [if_pos hodd, hcomb, mul_assoc, ← pow_succ', hsplit]

/-! ## MulModF and PowModF, for every modulus: `z % 0` is z, and `ZMod 0` the integers -/

theorem cast_addModF (m x y : Nat) : (addModF x y m : ZMod m) = x + y := by
  rw [addModF, ZMod.natCast_mod, Nat.cast_add]

/-- Repeated doubling gives the exact product's residue (41_modular_exponentiation.md R111). -/
theorem mulModF_eq (a b m : Nat) : mulModF a b m = a * b % m := by
  refine (ZMod.natCast_eq_natCast_iff' _ _ m).mp ?_
  have hloop := map_combineLoop (fun x : Nat => Multiplicative.ofAdd (x : ZMod m)) (cast_addModF m) 0 a b
  rw [← ofAdd_nsmul, ← ofAdd_add] at hloop
  simpa [mul_comm] using Multiplicative.ofAdd.injective hloop

theorem cast_mulModF (m x y : Nat) : (mulModF x y m : ZMod m) = x * y := by
  rw [mulModF_eq, ZMod.natCast_mod, Nat.cast_mul]

/-- Repeated squaring gives the exact power's residue, with `a ^ 0 = 1` (41_modular_exponentiation.md R111). -/
theorem powModF_eq (a b m : Nat) : powModF a b m = a ^ b % m := by
  refine (ZMod.natCast_eq_natCast_iff' _ _ m).mp ?_
  simpa using map_combineLoop (Nat.cast : Nat → ZMod m) (cast_mulModF m) 1 a b

/-! ## MULMOD and POWMOD -/

theorem exec_mulmod_latched {s : State} {l : Latch} (hl : s.latch = some l) (fd fa fb fm : Field) :
    exec (.mulmod fd fa fb fm) s = .next (s.completeData fd (mulmodResult l.a l.b l.m)) := onLatch_some hl _

theorem exec_powmod_latched {s : State} {l : Latch} (hl : s.latch = some l) (fd fa fb fm : Field) :
    exec (.powmod fd fa fb fm) s = .next (s.completeData fd (powmodResult l.a l.b l.m)) := onLatch_some hl _

end Sys2Proof.Machine

namespace Sys2Proof

open Machine

/-! ## The obligations, outside the namespace in which `mulmodResult` and `powmodResult` are the model's functions -/

/-- Settles O39: the check of the modulus first, then the residue that repeated doubling gives. -/
theorem mulmodResult : Obligations.MulmodResult := by
  intro s l fd fa fb fm hl
  rw [exec_mulmod_latched hl, Machine.mulmodResult, mulModF_eq]
  exact ⟨fun hm => by rw [completeData_withModulus_zero hm], fun hm => by rw [completeData_withModulus_pos hm]; rfl⟩

/-- Settles O40: the check of the modulus first, then the residue that repeated squaring gives. -/
theorem powmodResult : Obligations.PowmodResult := by
  intro s l fd fa fb fm hl
  rw [exec_powmod_latched hl, Machine.powmodResult, powModF_eq]
  exact ⟨fun hm => by rw [completeData_withModulus_zero hm], fun hm => by rw [completeData_withModulus_pos hm]; rfl⟩

end Sys2Proof

/-! PROOF. The modular inverses (42_modular_inverse.md R120 to R124): an inverse in [0, n) is unique, the extended Euclid and the
binary algorithm each answer it or that there is none, and for a prime n Fermat's power is that inverse. -/

namespace Sys2Proof.Machine

/-! ## The inverse modulo n -/

/-- `r` is an inverse of a modulo n in [0, n). At n = 1 it is 0. -/
structure IsInverse (a n r : Nat) : Prop where
  lt : r < n
  mul_mod : a * r % n = 1 % n

theorem IsInverse.coprime {a n r : Nat} (h : IsInverse a n r) : Nat.Coprime a n :=
  Nat.Coprime.coprime_mul_right ((Nat.ModEq.gcd_eq h.mul_mod).trans (Nat.gcd_one_left n))

/-- Two inverses in [0, n) are equal: `r = r * (a * t) = t` modulo n. -/
theorem IsInverse.unique {a n r t : Nat} (hr : IsInverse a n r) (ht : IsInverse a n t) : r = t := by
  have hmul : a * r ≡ a * t [MOD n] := hr.mul_mod.trans ht.mul_mod.symm
  exact (Nat.ModEq.cancel_left_of_coprime hr.coprime.symm hmul).eq_of_lt_of_lt hr.lt ht.lt

/-- The residue of an integer that inverts a modulo n is the inverse. -/
theorem isInverse_modN {a n : Nat} (hn : n ≠ 0) {z : Int} (h : (a : ZMod n) * z = 1) : IsInverse a n (modN z n) where
  lt := by
    have hlt := Int.emod_lt_of_pos z (Int.natCast_pos.mpr (Nat.pos_of_ne_zero hn))
    rw [← coe_modN hn] at hlt
    exact_mod_cast hlt
  mul_mod := by
    have hcast : ((modN z n : Nat) : ZMod n) = z := by
      rw [← Int.cast_natCast, coe_modN hn, ZMod.intCast_mod]
    refine (ZMod.natCast_eq_natCast_iff' _ _ n).mp ?_
    rw [Nat.cast_mul, hcast, h, Nat.cast_one]

/-- What an inverse algorithm may answer on a and n: the inverse, or that a and n share a factor. -/
inductive InverseAnswer (a n : Nat) : Except ErrorCode Nat → Prop where
  | inverse {r : Nat} (h : IsInverse a n r) : InverseAnswer a n (.ok r)
  | notInvertible (h : Nat.gcd a n ≠ 1) : InverseAnswer a n (.error .notInvertible)

theorem InverseAnswer.of_coprime {a n : Nat} {e : Except ErrorCode Nat} (h : InverseAnswer a n e) (hg : Nat.gcd a n = 1) :
    ∃ r, IsInverse a n r ∧ e = .ok r := by
  cases h with
  | inverse hr => exact ⟨_, hr, rfl⟩
  | notInvertible hne => exact absurd hg hne

theorem InverseAnswer.of_not_coprime {a n : Nat} {e : Except ErrorCode Nat} (h : InverseAnswer a n e)
    (hg : Nat.gcd a n ≠ 1) : e = .error .notInvertible := by
  cases h with
  | inverse hr => exact absurd hr.coprime hg
  | notInvertible => rfl

/-! ## Extended Euclid (44_number_theory.md R141, 42_modular_inverse.md R120) -/

theorem xgcdF_g (a b : Nat) : (xgcdF a b).g = Nat.gcd a b := by
  induction b, a using Nat.gcd.induction with
  | H0 a => rw [xgcdF_zero, Nat.gcd_zero_right]
  | H1 b a hb ih => rw [xgcdF_pos a hb.ne', ih, Nat.gcd_comm b, ← Nat.gcd_rec, Nat.gcd_comm]

theorem xgcdF_bezout (a b : Nat) : (a : Int) * (xgcdF a b).x + b * (xgcdF a b).y = (xgcdF a b).g := by
  induction b, a using Nat.gcd.induction with
  | H0 a => simp [xgcdF_zero]
  | H1 b a hb ih =>
    have hdiv : (b : Int) * (a / b : Nat) + (a % b : Nat) = a := by exact_mod_cast Nat.div_add_mod a b
    rw [xgcdF_pos a hb.ne', ← ih]
    linear_combination -(xgcdF b (a % b)).y * hdiv

/-- `n * x + a * y = gcd(n, a)` makes y an inverse of a modulo n where the gcd is 1. -/
theorem inverseAnswer_invEF (a : Nat) {n : Nat} (hn : n ≠ 0) : InverseAnswer a n (invEF a n) := by
  have hg : (xgcdF n a).g = Nat.gcd a n := (xgcdF_g n a).trans (Nat.gcd_comm n a)
  simp only [invEF]
  split
  next hne => exact .notInvertible (hg ▸ hne)
  next hone =>
    have hbezout := congrArg (Int.cast : Int → ZMod n) (xgcdF_bezout n a)
    rw [not_not.mp hone] at hbezout
    exact .inverse (isInverse_modN hn (by simpa using hbezout))

/-! ## The binary algorithm (42_modular_inverse.md R121) -/

/-- For odd n, `Half` halves modulo n: an odd x becomes even with n added. -/
theorem two_mul_half {n : Nat} (hn : n % 2 = 1) (x : Int) : 2 * half x n = x ∨ 2 * half x n = x + n := by
  unfold half
  split <;> omega

theorem two_mul_half_cast {n : Nat} (hn : n % 2 = 1) (x : Int) : (2 : ZMod n) * (half x n : Int) = x := by
  have hcast : ((2 * half x n : Int) : ZMod n) = x := by
    obtain h | h := two_mul_half hn x
    · rw [h]
    · rw [h, Int.cast_add, Int.cast_natCast, ZMod.natCast_self, add_zero]
  simpa using hcast

theorem isUnit_two_of_odd {n : Nat} (hn : n % 2 = 1) : IsUnit (2 : ZMod n) := by
  have hcop : Nat.Coprime 2 n := Nat.coprime_two_left.mpr (Nat.odd_iff.mpr hn)
  exact_mod_cast (ZMod.isUnit_iff_coprime 2 n).mpr hcop

/-- The loop's invariant: u and v keep the gcd of a and n, `x1` tracks u and `x2` tracks v as multiples of a modulo n. -/
structure BinInvState (a n u v : Nat) (x1 x2 : Int) : Prop where
  gcd_eq : Nat.gcd u v = Nat.gcd a n
  left : (a : ZMod n) * x1 = u
  right : (a : ZMod n) * x2 = v

section

variable {a n u v : Nat} {x1 x2 : Int}

theorem binInvState_start (a n : Nat) : BinInvState a n a n 1 0 where
  gcd_eq := rfl
  left := by simp
  right := by simp

theorem BinInvState.swap (h : BinInvState a n u v x1 x2) : BinInvState a n v u x2 x1 :=
  ⟨(Nat.gcd_comm v u).trans h.gcd_eq, h.right, h.left⟩

/-- The gcd is odd with n, so where u is even v is odd and the factor 2 of u is none of the gcd. -/
theorem BinInvState.half (h : BinInvState a n u v x1 x2) (hn : n % 2 = 1) (hu : u % 2 = 0) :
    BinInvState a n (u / 2) v (half x1 n) x2 where
  gcd_eq := by
    have hv : Nat.Coprime 2 v := by
      refine Nat.coprime_two_left.mpr (Nat.odd_iff.mpr (by_contra fun hodd => ?_))
      have hdvd : 2 ∣ n := ((Nat.dvd_gcd (by omega) (by omega)).trans h.gcd_eq.dvd).trans (Nat.gcd_dvd_right a n)
      omega
    rw [← h.gcd_eq, ← hv.gcd_mul_left_cancel (u / 2), Nat.mul_div_cancel' (Nat.dvd_of_mod_eq_zero hu)]
  left := by
    have hu2 : (2 : ZMod n) * (u / 2 : Nat) = u := by
      exact_mod_cast congrArg (Nat.cast : Nat → ZMod n) (Nat.mul_div_cancel' (Nat.dvd_of_mod_eq_zero hu))
    refine (isUnit_two_of_odd hn).mul_left_cancel ?_
    rw [mul_left_comm, two_mul_half_cast hn, hu2, h.left]
  right := h.right

theorem BinInvState.halveLeft (h : BinInvState a n u v x1 x2) (hn : n % 2 = 1) :
    BinInvState a n (halve n u x1).1 v (halve n u x1).2 x2 := by
  unfold halve
  generalize bitLength u = fuel
  induction fuel generalizing u x1 with
  | zero => exact h
  | succ fuel ih =>
    rw [halveLoop]
    split
    next heven => exact ih (h.half hn heven)
    next => exact h

theorem BinInvState.halveBoth (h : BinInvState a n u v x1 x2) (hn : n % 2 = 1) :
    BinInvState a n (halve n u x1).1 (halve n v x2).1 (halve n u x1).2 (halve n v x2).2 :=
  ((h.halveLeft hn).swap.halveLeft hn).swap

theorem BinInvState.subLeft (h : BinInvState a n u v x1 x2) (hle : v ≤ u) : BinInvState a n (u - v) v (x1 - x2) x2 where
  gcd_eq := (Nat.gcd_sub_self_left hle).trans h.gcd_eq
  left := by rw [Int.cast_sub, mul_sub, h.left, h.right, Nat.cast_sub hle]
  right := h.right

theorem BinInvState.subRight (h : BinInvState a n u v x1 x2) (hle : u ≤ v) : BinInvState a n u (v - u) x1 (x2 - x1) :=
  (h.swap.subLeft hle).swap

/-- Where u is 1, `x1` is an inverse of a modulo n. -/
theorem BinInvState.isInverse (h : BinInvState a n 1 v x1 x2) (hn : n ≠ 0) : IsInverse a n (modN x1 n) :=
  isInverse_modN hn (h.left.trans Nat.cast_one)

theorem inverseAnswer_binInvLoop (hn : n % 2 = 1) {fuel : Nat} (hfuel : u + v < fuel) (h : BinInvState a n u v x1 x2) :
    InverseAnswer a n (binInvLoop n fuel u v x1 x2) := by
  induction fuel generalizing u v x1 x2 with
  | zero => omega
  | succ fuel ih =>
    rw [binInvLoop]
    split_ifs with hu1 hv1 h0
    · subst hu1
      exact .inverse (h.isInverse (by omega))
    · subst hv1
      exact .inverse (h.swap.isInverse (by omega))
    · refine .notInvertible (h.gcd_eq ▸ ?_)
      obtain rfl | rfl := h0
      · rwa [Nat.gcd_zero_left]
      · rwa [Nat.gcd_zero_right]
    · obtain ⟨hu0, hv0⟩ := not_or.mp h0
      have hhalved := h.halveBoth hn
      have hule := halve_le n u x1
      have hvle := halve_le n v x2
      have hupos := halve_pos n hu0 x1
      have hvpos := halve_pos n hv0 x2
      dsimp only
      split
      next hle => exact ih (by omega) (hhalved.subLeft hle)
      next hgt => exact ih (by omega) (hhalved.subRight (by omega))

end

theorem inverseAnswer_binInvF (a : Nat) {n : Nat} (hn : n % 2 = 1) : InverseAnswer a n (binInvF a n) :=
  inverseAnswer_binInvLoop hn (Nat.lt_succ_self _) (binInvState_start a n)

/-! ## Fermat's power (42_modular_inverse.md R123) -/

/-- For a prime n and a not divisible by n, `a * a ^ (n - 2) = a ^ (n - 1) = 1` modulo n. -/
theorem isInverse_fermat {a n : Nat} (hp : n.Prime) (hg : Nat.gcd a n = 1) : IsInverse a n (a ^ (n - 2) % n) where
  lt := Nat.mod_lt _ hp.pos
  mul_mod := by
    have hexp : n - 2 + 1 = n - 1 := by have := hp.two_le; omega
    rw [Nat.mul_mod_mod, ← pow_succ', hexp, ← Nat.totient_prime hp]
    exact Nat.ModEq.pow_totient hg

/-! ## INVE, INVB and INVF -/

theorem completeData_withModulus_error {m : Nat} (hm : m ≠ 0) (fd : Field) (c : ErrorCode) (s : State) :
    s.completeData fd (withModulus m (.error c)) = s.finish c.code := by
  rw [withModulus_pos hm, completeData_error]

theorem exec_inve_latched {s : State} {l : Latch} (hl : s.latch = some l) (fd fa fm : Field) :
    exec (.inve fd fa fm) s = .next (s.completeData fd (inveResult l.a l.m)) := onLatch_some hl _

theorem exec_invb_latched {s : State} {l : Latch} (hl : s.latch = some l) (fd fa fm : Field) :
    exec (.invb fd fa fm) s = .next (s.completeData fd (invbResult l.a l.m)) := onLatch_some hl _

theorem exec_invf_latched {s : State} {l : Latch} (hl : s.latch = some l) (fd fa fm : Field) :
    exec (.invf fd fa fm) s = .next (s.completeData fd (invfResult l.a l.m)) := onLatch_some hl _

end Sys2Proof.Machine

namespace Sys2Proof

open Machine

/-! ## The obligations, outside the namespace in which `inveResult`, `invbResult` and `invfResult` are the model's functions -/

/-- Settles O41: the check of the modulus first, then what extended Euclid answers. -/
theorem inveResult : Obligations.InveResult := by
  intro s l fd fa fm hl
  rw [exec_inve_latched hl, Machine.inveResult]
  refine ⟨fun hm => by rw [completeData_withModulus_zero hm], fun hm hg => ?_, fun hm hg => ?_⟩
  · rw [(inverseAnswer_invEF l.a hm).of_not_coprime (by rwa [Nat.gcd_comm]), completeData_withModulus_error hm]
    rfl
  · obtain ⟨r, ⟨hlt, hmul⟩, hr⟩ := (inverseAnswer_invEF l.a hm).of_coprime ((Nat.gcd_comm _ _).trans hg)
    refine ⟨r, hlt, hmul, ?_⟩
    rw [hr, completeData_withModulus_pos hm]
    rfl

/-- Settles O42: the checks of the modulus and of the operands first, then what the binary algorithm answers. -/
theorem invbResult : Obligations.InvbResult := by
  intro s l fd fa fm hl
  rw [exec_invb_latched hl, Machine.invbResult]
  refine ⟨fun hm => by rw [completeData_withModulus_zero hm], fun hm hpre => ?_, fun h3 hodd ha1 ha hg => ?_,
    fun h3 hodd ha1 ha hg => ?_⟩
  · rw [if_pos hpre, completeData_withModulus_error hm]
    rfl
  · rw [if_neg (by omega), (inverseAnswer_binInvF l.a hodd).of_not_coprime hg, completeData_withModulus_error (by omega)]
    rfl
  · obtain ⟨r, ⟨hlt, hmul⟩, hr⟩ := (inverseAnswer_binInvF l.a hodd).of_coprime hg
    refine ⟨r, hlt, hmul.trans (Nat.mod_eq_of_lt (by omega)), ?_⟩
    rw [if_neg (by omega), hr, completeData_withModulus_pos (by omega)]
    rfl

/-- Settles O43: the checks of the modulus and of a first, then the residue that repeated squaring gives. -/
theorem invfResult : Obligations.InvfResult := by
  intro s l fd fa fm hl
  rw [exec_invf_latched hl, Machine.invfResult, powModF_eq]
  refine ⟨fun hm => by rw [completeData_withModulus_zero hm], fun hm => ?_, fun hm ha => ?_, fun hm ha => ?_⟩
  · rw [if_pos hm, completeData_withModulus_error (by omega)]
    rfl
  · rw [if_neg (by omega), if_pos ha, completeData_withModulus_error (by omega)]
    rfl
  · rw [if_neg (by omega), if_neg ha, completeData_withModulus_pos (by omega)]
    rfl

/-- Settles O44: each of the three results is an inverse of a in [0, n), and there is only one. -/
theorem inversesAgree : Obligations.InversesAgree := by
  intro s l fd fa fm hl hp h2 ha1 ha
  have hodd : l.m % 2 = 1 := Nat.odd_iff.mp (hp.odd_of_ne_two h2.ne')
  have hlt : l.a < l.m := by omega
  have hg : Nat.gcd l.a l.m = 1 := (Nat.coprime_of_lt_prime (by omega) hlt hp).symm
  obtain ⟨-, -, hinve⟩ := inveResult s l fd fa fm hl
  obtain ⟨-, -, -, hinvb⟩ := invbResult s l fd fa fm hl
  obtain ⟨-, -, -, hinvf⟩ := invfResult s l fd fa fm hl
  obtain ⟨r, hr, hmul, hexec⟩ := hinve hp.ne_zero ((Nat.gcd_comm _ _).trans hg)
  obtain ⟨rb, hrb, hmulb, hexecb⟩ := hinvb h2 hodd ha1 ha hg
  have hone : 1 % l.m = 1 := Nat.mod_eq_of_lt (by omega)
  have hinv : IsInverse l.a l.m r := ⟨hr, hmul⟩
  obtain rfl : r = rb := hinv.unique ⟨hrb, hmulb.trans hone.symm⟩
  have hfermat : r = l.a ^ (l.m - 2) % l.m := hinv.unique (isInverse_fermat hp hg)
  refine ⟨r, hr, hmul.trans hone, hexec, hexecb, ?_⟩
  rw [hfermat]
  exact hinvf hp.two_le (by rw [Nat.mod_eq_of_lt hlt]; omega)

end Sys2Proof

/-! PROOF. The Miller-Rabin tester (43_primality.md R130 to R134): the round function is the closed form of R130, a prime
passes it for every witness, and an MRPRIME served with one answer per round runs rounds until one fails. -/

namespace Sys2Proof.Machine

/-! ## The round function (43_primality.md R130) -/

/-- A round on a passes for `n - 1 = 2^k * d`: `a^d` is 1, or one of its first k squarings from the 0th on is `n - 1`. -/
def RoundPasses (a n k d : Nat) : Prop := a ^ d % n = 1 ∨ ∃ j < k, a ^ (2 ^ j * d) % n = n - 1

theorem splitTwos_two_pow_mul {d : Nat} (hd : d % 2 = 1) (k s : Nat) :
    splitTwos (bitLength (2 ^ k * d)) (2 ^ k * d) s = (d, s + k) := by
  induction k generalizing s with
  | zero => rw [pow_zero, one_mul, splitTwos_odd hd, add_zero]
  | succ k ih =>
    have hdouble : 2 ^ (k + 1) * d = 2 * (2 ^ k * d) := by ring
    have hne : 2 * (2 ^ k * d) ≠ 0 := by positivity [show d ≠ 0 by omega]
    rw [hdouble, splitTwos_even (Nat.mul_mod_right 2 _) hne, Nat.mul_div_cancel_left _ (by decide), ih, add_assoc,
      add_comm 1]

theorem mrSquares_bit (n k x : Nat) : mrSquares n k x = 0 ∨ mrSquares n k x = 1 := by
  induction k generalizing x with
  | zero => exact .inl rfl
  | succ k ih =>
    rw [mrSquares]
    split
    next => exact .inr rfl
    next => exact ih _

theorem mrSquares_eq_one_iff (n k x : Nat) : mrSquares n k x = 1 ↔ ∃ j < k, x ^ 2 ^ (j + 1) % n = n - 1 := by
  induction k generalizing x with
  | zero => simp [mrSquares]
  | succ k ih =>
    have hpow (j : Nat) : (x * x % n) ^ 2 ^ (j + 1) % n = x ^ 2 ^ (j + 1 + 1) % n := by
      rw [← Nat.pow_mod, ← pow_two, ← pow_mul, ← pow_succ']
    rw [mrSquares, Nat.exists_lt_succ_left, mulModF_eq]
    simp only [zero_add, pow_one, pow_two]
    split
    next h => simp [h]
    next h => simp [h, ih, hpow]

theorem mrRoundF_bit (a n : Nat) : mrRoundF a n = 0 ∨ mrRoundF a n = 1 := by
  rw [mrRoundF]
  split
  next => exact .inr rfl
  next => exact mrSquares_bit _ _ _

theorem mrRoundF_eq_one_iff {n k d : Nat} (hn : n - 1 = 2 ^ k * d) (hd : d % 2 = 1) (hk : k ≠ 0) (a : Nat) :
    mrRoundF a n = 1 ↔ RoundPasses a n k d := by
  obtain ⟨k, rfl⟩ := Nat.exists_eq_succ_of_ne_zero hk
  have hpow (j : Nat) : (a ^ d % n) ^ 2 ^ (j + 1) % n = a ^ (2 ^ (j + 1) * d) % n := by
    rw [← Nat.pow_mod, ← pow_mul, mul_comm]
  rw [mrRoundF, RoundPasses, Nat.exists_lt_succ_left, hn, splitTwos_two_pow_mul hd, ← hn, powModF_eq]
  simp only [pow_zero, one_mul, zero_add, Nat.succ_eq_add_one, Nat.add_sub_cancel]
  split
  next h => simp only [true_iff]; tauto
  next h => rw [mrSquares_eq_one_iff]; simp only [hpow]; tauto

/-! ## A prime has no witness against it (43_primality.md R134) -/

/-- Where `y^(2^k) = 1` in a domain, y is 1 or the squarings reach 1 through -1: 1 has no other square root. -/
theorem eq_one_or_neg_one_of_two_pow {R : Type*} [CommRing R] [IsDomain R] {y : R} {k : Nat} (h : y ^ 2 ^ k = 1) :
    y = 1 ∨ ∃ j < k, y ^ 2 ^ j = -1 := by
  induction k with
  | zero => exact .inl (by simpa using h)
  | succ k ih =>
    rw [pow_succ, pow_mul, sq_eq_one_iff] at h
    obtain hone | hneg := h
    · obtain hy | ⟨j, hj, hy⟩ := ih hone
      · exact .inl hy
      · exact .inr ⟨j, hj.trans (Nat.lt_succ_self k), hy⟩
    · exact .inr ⟨k, Nat.lt_succ_self k, hneg⟩

theorem pow_mod_eq_pred_of_cast {a n e : Nat} (hn : 1 ≤ n) (h : (a : ZMod n) ^ e = -1) : a ^ e % n = n - 1 := by
  have hpred : ((n - 1 : Nat) : ZMod n) = -1 := by rw [Nat.cast_sub hn, ZMod.natCast_self, Nat.cast_one, zero_sub]
  have hmod := (ZMod.natCast_eq_natCast_iff' (a ^ e) (n - 1) n).mp (by rw [Nat.cast_pow, h, hpred])
  rwa [Nat.mod_eq_of_lt (show n - 1 < n by omega)] at hmod

theorem roundPasses_of_prime {a n k d : Nat} (hp : n.Prime) (ha : ¬ n ∣ a) (hn : n - 1 = 2 ^ k * d) :
    RoundPasses a n k d := by
  have := Fact.mk hp
  have hfermat : ((a : ZMod n) ^ d) ^ 2 ^ k = 1 := by
    rw [← pow_mul, mul_comm, ← hn]
    exact ZMod.pow_card_sub_one_eq_one (by rwa [Ne, ZMod.natCast_eq_zero_iff])
  obtain hone | ⟨j, hj, hneg⟩ := eq_one_or_neg_one_of_two_pow hfermat
  · have hmod := (ZMod.natCast_eq_natCast_iff' (a ^ d) 1 n).mp (by rw [Nat.cast_pow, hone, Nat.cast_one])
    exact .inl (hmod.trans (Nat.mod_eq_of_lt hp.one_lt))
  · rw [← pow_mul, mul_comm] at hneg
    exact .inr ⟨j, hj, pow_mod_eq_pred_of_cast hp.pos hneg⟩

theorem mrRoundF_eq_one_of_prime {a n : Nat} (hp : n.Prime) (h3 : 3 ≤ n) (ha : ¬ n ∣ a) : mrRoundF a n = 1 := by
  obtain ⟨k, d, hd, hn⟩ := Nat.exists_eq_two_pow_mul_odd (show n - 1 ≠ 0 by omega)
  have hodd : n % 2 = 1 := Nat.odd_iff.mp (hp.odd_of_ne_two (by omega))
  have hk : k ≠ 0 := by
    rintro rfl
    have := Nat.odd_iff.mp hd
    omega
  exact (mrRoundF_eq_one_iff hn (Nat.odd_iff.mp hd) hk a).mpr (roundPasses_of_prime hp ha hn)

/-- Every witness lies in [1, n - 2] (43_primality.md R133), so n does not divide it. -/
theorem not_dvd_witness {n : Nat} (h3 : 3 ≤ n) (r : Nat) : ¬ n ∣ witness r n := by
  have hlt := Nat.mod_lt r (show 0 < n - 2 by omega)
  exact Nat.not_dvd_of_pos_of_lt (by unfold witness; omega) (by unfold witness; omega)

/-! ## The core's steps on an MRROUND and on an MRPRIME -/

theorem exec_mrround_latched {s : State} {l : Latch} (hl : s.latch = some l) (fd fa fm : Field) :
    exec (.mrround fd fa fm) s = .next (s.completeData fd (mrroundResult l.a l.m)) := onLatch_some hl _

theorem word_of_le_one (w : Width) {v : Nat} (h : v ≤ 1) : word w v = v :=
  word_of_fits (h.trans_lt (Nat.one_lt_two_pow (by simp [Width.bits, Width.bytes])))

/-- A result of 0 or 1 is its own word. -/
theorem completeData_bit {v : Nat} (hv : v ≤ 1) (fd : Field) (s : State) :
    s.completeData fd (.ok v) = (s.setData fd v).finish okCode := by
  rw [completeData_ok, word_of_le_one s.width hv]

theorem mrroundResult_ok {n : Nat} (h3 : 3 ≤ n) (hodd : n % 2 = 1) (a : Nat) : mrroundResult a n = .ok (mrRoundF a n) := by
  rw [mrroundResult, withModulus_pos (by omega), if_neg (by omega)]

theorem odd_of_pred_eq_two_pow_mul {n k d : Nat} (h3 : 3 ≤ n) (hn : n - 1 = 2 ^ k * d) (hk : k ≠ 0) : n % 2 = 1 := by
  have heven : 2 ∣ n - 1 := hn ▸ (dvd_pow_self 2 hk).mul_right d
  omega

theorem exec_mrround_bit {s : State} {l : Latch} (hl : s.latch = some l) (h3 : 3 ≤ l.m) (hodd : l.m % 2 = 1)
    (fd fa fm : Field) : exec (.mrround fd fa fm) s = .next ((s.setData fd (mrRoundF l.a l.m)).finish okCode) := by
  have hbit : mrRoundF l.a l.m ≤ 1 := by have := mrRoundF_bit l.a l.m; omega
  rw [exec_mrround_latched hl, mrroundResult_ok h3 hodd, completeData_bit hbit]

theorem mrprimeStep_settled {n : Nat} (h2 : n ≠ 2) (h : n < 2 ∨ n % 2 = 0) (rounds passed : Nat) (answer : Option Nat) :
    mrprimeStep n rounds passed answer = .result 0 := by
  simp only [mrprimeStep, if_neg h2, if_pos h]

/-- On an odd n of 3 or more the core stands at the loop head, or runs a round on the answer it has. -/
theorem mrprimeStep_odd {n : Nat} (h3 : 3 ≤ n) (hodd : n % 2 = 1) (rounds passed : Nat) :
    mrprimeStep n rounds passed none = mrNext rounds passed ∧
    ∀ r, mrprimeStep n rounds passed (some r) =
      if mrRoundF (witness r n) n = 0 then .result 0 else mrNext rounds (passed + 1) := by
  have h2 : n ≠ 2 := by omega
  have hsettled : ¬ (n < 2 ∨ n % 2 = 0) := by omega
  simp only [mrprimeStep, if_neg h2, if_neg hsettled, implies_true, and_self]

section

variable {s : State} {l : Latch} (hl : s.latch = some l) (fd fm : Field)

include hl

theorem exec_mrprime_result {v : Nat} (hstep : mrprimeStep l.m l.rounds.toNat l.passed l.draw = .result v) :
    exec (.mrprime fd fm) s = .next (s.completeData fd (.ok v)) := by
  simp only [exec, execMrprime, onLatch_some hl, hstep]

theorem exec_mrprime_bit {v : Nat} (hv : v ≤ 1) (hstep : mrprimeStep l.m l.rounds.toNat l.passed l.draw = .result v) :
    exec (.mrprime fd fm) s = .next ((s.setData fd v).finish okCode) := by
  rw [exec_mrprime_result hl fd fm hstep, completeData_bit hv]

theorem exec_mrprime_draw {k : Nat} (hstep : mrprimeStep l.m l.rounds.toNat l.passed l.draw = .draw k) :
    exec (.mrprime fd fm) s = if s.rng.pending.isSome then .next s else .next (s.requestDraw k l) := by
  simp only [exec, execMrprime, onLatch_some hl, hstep]

end

/-! ## A run served with answers (43_primality.md R132, 10_state.md R36) -/

theorem serve_done {i : Instr} {s t : State} (h : exec i s = .next t) (hp : t.rng.pending = none) (ws : List Nat) :
    serve i ws s = .next t := by
  cases ws with
  | nil => exact h
  | cons w ws => simp [serve, h, hp]

theorem serve_asked {i : Instr} {s t u : State} {id w : Nat} (h : exec i s = .next t) (hp : t.rng.pending = some id)
    (ha : t.answer id w = .next u) (ws : List Nat) : serve i (w :: ws) s = serve i ws u := by
  simp [serve, h, hp, ha]

theorem serve_congr {i : Instr} {s t : State} (h : exec i s = exec i t) (ws : List Nat) : serve i ws s = serve i ws t := by
  cases ws <;> simp [serve, h]

/-- The state once the core, with l in LATCH, has asked for a witness and the RNG has answered with the word of w. -/
def State.drawn (w : Nat) (l : Latch) (s : State) : State :=
  { s with
    latch := some { l with draw := some (word s.width w) }
    rng := { s.rng with asked := s.rng.asked + 1, pending := none } }

/-- The state at the loop head after one more passed round. -/
def State.roundPassed (l : Latch) (s : State) : State :=
  { s with latch := some { l with passed := l.passed + 1, draw := none } }

/-- The state at the end of an MRPRIME with result v that made k requests, all of them answered. -/
def State.mrprimeEnd (fd : Field) (v k : Nat) (s : State) : State :=
  State.finish okCode { s.setData fd v with rng := { s.rng with asked := s.rng.asked + k, pending := none } }

/-- The round on the RNG's answer r passes for n, on a core of width w (43_primality.md R133). -/
def answerPasses (w : Width) (n r : Nat) : Bool := mrRoundF (witness (word w r) n) n == 1

/-- How many requests a run makes whose answers are `answers`: one per round up to the first that fails. -/
def requestsMade (pass : Nat → Bool) (answers : List Nat) : Nat := min answers.length ((answers.takeWhile pass).length + 1)

theorem requestsMade_cons_pass {pass : Nat → Bool} {r : Nat} (h : pass r = true) (rs : List Nat) :
    requestsMade pass (r :: rs) = requestsMade pass rs + 1 := by
  rw [requestsMade, List.takeWhile_cons_of_pos h, List.length_cons, List.length_cons, Nat.succ_min_succ, requestsMade]

theorem requestsMade_cons_fail {pass : Nat → Bool} {r : Nat} (h : ¬ pass r = true) (rs : List Nat) :
    requestsMade pass (r :: rs) = 1 := by
  simp [requestsMade, List.takeWhile_cons_of_neg h]

theorem requestsMade_of_all_pass {pass : Nat → Bool} {rs : List Nat} (h : ∀ r ∈ rs, pass r = true) :
    requestsMade pass rs = rs.length := by
  rw [requestsMade, List.takeWhile_eq_self_iff.mpr h, Nat.min_eq_left (Nat.le_succ _)]

theorem mrRoundF_ne_zero_of_answerPasses {w : Width} {n r : Nat} (h : answerPasses w n r = true) :
    mrRoundF (witness (word w r) n) n ≠ 0 := by
  rw [eq_of_beq h]
  exact one_ne_zero

theorem mrRoundF_eq_zero_of_not_answerPasses {w : Width} {n r : Nat} (h : ¬ answerPasses w n r = true) :
    mrRoundF (witness (word w r) n) n = 0 :=
  (mrRoundF_bit _ _).resolve_right (by simpa [answerPasses] using h)

theorem mrprimeEnd_zero {s : State} (hp : s.rng.pending = none) (fd : Field) (v : Nat) :
    s.mrprimeEnd fd v 0 = (s.setData fd v).finish okCode := by
  simp [State.mrprimeEnd, State.setData, ← hp]

theorem mrprimeEnd_roundPassed_drawn (w : Nat) (l l' : Latch) (fd : Field) (v k : Nat) (s : State) :
    ((s.drawn w l).roundPassed l').mrprimeEnd fd v k = s.mrprimeEnd fd v (k + 1) := by
  rw [Nat.add_comm k 1]
  simp only [State.mrprimeEnd, State.roundPassed, State.drawn, State.setData, State.finish, Nat.add_assoc]

section

variable {s : State} {l : Latch} (hl : s.latch = some l) (h3 : 3 ≤ l.m) (hodd : l.m % 2 = 1)

include hl h3 hodd

theorem exec_mrprime_asks (hd : l.draw = none) (hmore : l.passed < l.rounds.toNat) (fd fm : Field) :
    exec (.mrprime fd fm) s = if s.rng.pending.isSome then .next s else .next (s.requestDraw l.passed l) :=
  exec_mrprime_draw hl fd fm (mrprimeStep_of_drawDue ⟨h3, hodd, hmore⟩ hd)

theorem exec_mrprime_all_passed (hd : l.draw = none) (hover : l.rounds.toNat ≤ l.passed) (fd fm : Field) :
    exec (.mrprime fd fm) s = .next ((s.setData fd 1).finish okCode) := by
  refine exec_mrprime_bit hl fd fm (le_refl 1) ?_
  rw [hd, (mrprimeStep_odd h3 hodd _ _).1, mrNext, if_pos hover]

theorem exec_mrprime_round_fails {r : Nat} (hd : l.draw = some r) (hr : mrRoundF (witness r l.m) l.m = 0) (fd fm : Field) :
    exec (.mrprime fd fm) s = .next ((s.setData fd 0).finish okCode) := by
  refine exec_mrprime_bit hl fd fm (Nat.zero_le 1) ?_
  rw [hd, (mrprimeStep_odd h3 hodd _ _).2, if_pos hr]

/-- A round that passes leads back to the loop head within the same step of the core. -/
theorem exec_mrprime_round_passes (hp : s.rng.pending = none) {r : Nat} (hd : l.draw = some r)
    (hr : mrRoundF (witness r l.m) l.m ≠ 0) (fd fm : Field) :
    exec (.mrprime fd fm) s = exec (.mrprime fd fm) (s.roundPassed l) := by
  have hstep := (mrprimeStep_odd h3 hodd l.rounds.toNat l.passed).2 r
  rw [if_neg hr, ← hd] at hstep
  have hhead : (s.roundPassed l).latch = some { l with passed := l.passed + 1, draw := none } := rfl
  have hheadStep := (mrprimeStep_odd h3 hodd l.rounds.toNat (l.passed + 1)).1
  cases hnext : mrNext l.rounds.toNat (l.passed + 1) with
  | result v =>
    rw [exec_mrprime_result hl fd fm (hstep.trans hnext), exec_mrprime_result hhead fd fm (hheadStep.trans hnext)]
    rfl
  | draw k =>
    rw [exec_mrprime_draw hl fd fm (hstep.trans hnext), exec_mrprime_draw hhead fd fm (hheadStep.trans hnext)]
    simp [hp, State.roundPassed, State.requestDraw]

theorem serve_mrprime_draws (hp : s.rng.pending = none) (hd : l.draw = none) (hmore : l.passed < l.rounds.toNat)
    (fd fm : Field) (w : Nat) (ws : List Nat) :
    serve (.mrprime fd fm) (w :: ws) s = serve (.mrprime fd fm) ws (s.drawn w l) := by
  have hask := exec_mrprime_asks hl h3 hodd hd hmore fd fm
  rw [hp] at hask
  exact serve_asked hask rfl (answer_pending rfl w) ws

end

/-- A whole run, from the loop head with one answer for every round left: by induction on the answers, one round each. -/
theorem serve_mrprime {s : State} {l : Latch} {answers : List Nat} (hl : s.latch = some l) (h3 : 3 ≤ l.m)
    (hodd : l.m % 2 = 1) (hd : l.draw = none) (hp : s.rng.pending = none)
    (hlen : l.passed + answers.length = l.rounds.toNat) (fd fm : Field) :
    serve (.mrprime fd fm) answers s =
      .next (s.mrprimeEnd fd (answers.all (answerPasses s.width l.m)).toNat
        (requestsMade (answerPasses s.width l.m) answers)) := by
  induction answers generalizing s l with
  | nil =>
    have hover : l.rounds.toNat ≤ l.passed := by simpa using hlen.ge
    exact (exec_mrprime_all_passed hl h3 hodd hd hover fd fm).trans (congrArg _ (mrprimeEnd_zero hp fd 1).symm)
  | cons w ws ih =>
    rw [List.length_cons] at hlen
    have hdrawn : (s.drawn w l).latch = some { l with draw := some (word s.width w) } := rfl
    rw [serve_mrprime_draws hl h3 hodd hp hd (by omega)]
    by_cases hpass : answerPasses s.width l.m w = true
    · have hround := exec_mrprime_round_passes hdrawn h3 hodd rfl rfl (mrRoundF_ne_zero_of_answerPasses hpass) fd fm
      have hrest : l.passed + 1 + ws.length = l.rounds.toNat := by omega
      rw [serve_congr hround, ih (l := { l with passed := l.passed + 1, draw := none }) rfl h3 hodd rfl rfl hrest,
        mrprimeEnd_roundPassed_drawn,
        requestsMade_cons_pass hpass, List.all_cons, hpass, Bool.true_and]
      rfl
    · have hround := exec_mrprime_round_fails hdrawn h3 hodd rfl (mrRoundF_eq_zero_of_not_answerPasses hpass) fd fm
      rw [serve_done hround rfl, requestsMade_cons_fail hpass, List.all_cons, Bool.eq_false_of_not_eq_true hpass]
      rfl

end Sys2Proof.Machine

namespace Sys2Proof

open Machine

/-! ## The obligations, outside the namespace in which `mrroundResult` is the model's function -/

/-- Settles O45: the checks of n first, then the round function by its closed form. -/
theorem mrroundResult : Obligations.MrroundResult := by
  intro s l fd fa fm hl
  refine ⟨fun hm => ?_, fun hm hpre => ?_, fun k d h3 hn hd hk hpass => ?_, fun k d h3 hn hd hk hfail => ?_⟩
  · rw [exec_mrround_latched hl, Machine.mrroundResult, completeData_withModulus_zero hm]
  · rw [exec_mrround_latched hl, Machine.mrroundResult, if_pos hpre, completeData_withModulus_error hm]
    rfl
  · rw [exec_mrround_bit hl h3 (odd_of_pred_eq_two_pow_mul h3 hn hk), (mrRoundF_eq_one_iff hn hd hk l.a).mpr hpass]
    rfl
  · have hzero : mrRoundF l.a l.m = 0 :=
      (mrRoundF_bit _ _).resolve_right fun hone => hfail ((mrRoundF_eq_one_iff hn hd hk l.a).mp hone)
    rw [exec_mrround_bit hl h3 (odd_of_pred_eq_two_pow_mul h3 hn hk), hzero]
    rfl

/-- Settles O46: the two cases before the loop of R132. -/
theorem mrprimeSettled : Obligations.MrprimeSettled := fun _ l fd fm hl =>
  ⟨fun hm => exec_mrprime_bit hl fd fm (le_refl 1) (by rw [hm]; rfl),
    fun h2 h => exec_mrprime_bit hl fd fm (Nat.zero_le 1) (mrprimeStep_settled h2 h _ _ _)⟩

/-- Settles O47: at the loop head with rounds left the core asks, and the request leaves LATCH as it was. -/
theorem mrprimeAsks : Obligations.MrprimeAsks := by
  intro s l fd fm hl h3 hodd hd hmore
  rw [exec_mrprime_asks hl h3 hodd hd hmore]
  refine ⟨fun hp => ?_, fun id hp => by simp [hp]⟩
  have hlatch : s.latch = some { l with passed := l.passed, draw := none } := by rw [← hd, hl]
  simp [hp, State.requestDraw, Rng.request, ← hlatch]

/-- Settles O48: the run's end state by `serve_mrprime`, with the verdict and the count of requests read off the answers. -/
theorem mrprimeRun : Obligations.MrprimeRun := by
  intro s l fd fm answers hl h3 hodd hd hpassed hp hlen
  refine ⟨_, serve_mrprime hl h3 hodd hd hp (by omega) fd fm, rfl, rfl, rfl, ?_, ?_⟩
  · have hall : answers.all (answerPasses s.width l.m) = true ↔
        ∀ r ∈ answers, mrRoundF (1 + word s.width r % (l.m - 2)) l.m = 1 := by
      simp [answerPasses, witness]
    simp only [← hall]
    cases answers.all (answerPasses s.width l.m) <;> rfl
  · rw [← hlen]
    simp only [List.bind_eq_flatMap, List.pure_def, ← List.map_eq_flatMap, List.takeWhile_map, List.length_map]
    rfl

/-- Settles O49: by R134 every answer passes, so the run of O48 ends with 1 after a request per round. -/
theorem mrprimeOnPrimes : Obligations.MrprimeOnPrimes := by
  intro s l fd fm answers hl hprime h3 hd hpassed hp hlen
  have hodd : l.m % 2 = 1 := Nat.odd_iff.mp (hprime.odd_of_ne_two (by omega))
  have hall : ∀ r ∈ answers, answerPasses s.width l.m r = true := fun r _ =>
    beq_iff_eq.mpr (mrRoundF_eq_one_of_prime hprime h3 (not_dvd_witness h3 _))
  have hrun := serve_mrprime (answers := answers) hl h3 hodd hd hp (by omega) fd fm
  rw [List.all_eq_true.mpr hall, requestsMade_of_all_pass hall, hlen] at hrun
  exact ⟨_, hrun, rfl, rfl, rfl, rfl⟩

end Sys2Proof

/-! PROOF. The number-theory unit (44_number_theory.md R140 to R145): Euclid's loop gives the greatest common divisor, the
extended gcd's pair is at most half the operands and so fits a word, and trial division leaves Euler's totient. -/

namespace Sys2Proof.Machine

/-! ## GCD -/

theorem gcdF_eq_gcd (a b : Nat) : gcdF a b = Nat.gcd a b := by
  induction b, a using Nat.gcd.induction with
  | H0 a => rw [gcdF_eq, if_pos rfl, Nat.gcd_zero_right]
  | H1 b a hb ih => rw [gcdF_eq, if_neg hb.ne', ih, Nat.gcd_comm b, ← Nat.gcd_rec, Nat.gcd_comm]

theorem exec_gcd_latched {s : State} {l : Latch} (hl : s.latch = some l) (fd fa fb : Field) :
    exec (.gcd fd fa fb) s = .next (s.completeData fd (gcdResult l.a l.b)) := onLatch_some hl _

/-! ## The pair of the extended gcd (44_number_theory.md R141) -/

theorem extendedGcd_xgcdF (a b : Nat) : ExtendedGcd a b (Nat.gcd a b) (xgcdF a b).x (xgcdF a b).y := by
  rw [← xgcdF_g]
  induction b, a using Nat.gcd.induction with
  | H0 a => exact .base a
  | H1 b a hb ih =>
    rw [xgcdF_pos a hb.ne']
    exact .recurse a b _ _ _ hb.ne' ih

/-- The pair is at most half the operands, but for the coefficient 1 of an operand below 2. Where b divides a the pair is
(0, 1); otherwise the recursive call's second operand is not 0, and `|y| ≤ (a mod b) / 2 + (a div b) * (b / 2) = a / 2`. -/
theorem two_mul_abs_xgcdF_le (a : Nat) {b : Nat} (hb : b ≠ 0) :
    2 * |(xgcdF a b).x| ≤ b ∧ 2 * |(xgcdF a b).y| ≤ (max a 2 : Nat) := by
  induction b, a using Nat.gcd.induction with
  | H0 a => exact absurd rfl hb
  | H1 b a _ ih =>
    rw [xgcdF_pos a hb]
    obtain hr | hr := eq_or_ne (a % b) 0
    · simp [hr, xgcdF_zero]
    · obtain ⟨hx, hy⟩ := ih hr
      have hlt : a % b < b := Nat.mod_lt a (Nat.pos_of_ne_zero hb)
      rw [max_eq_left (by omega)] at hy
      have hdiv : ((a % b : Nat) : Int) + (a / b : Nat) * b = a := by exact_mod_cast Nat.mod_add_div' a b
      refine ⟨hy, ?_⟩
      calc 2 * |(xgcdF b (a % b)).x - (a / b : Nat) * (xgcdF b (a % b)).y|
          ≤ 2 * (|(xgcdF b (a % b)).x| + |(a / b : Nat) * (xgcdF b (a % b)).y|) := by gcongr; exact abs_sub _ _
        _ = 2 * |(xgcdF b (a % b)).x| + (a / b : Nat) * (2 * |(xgcdF b (a % b)).y|) := by
          rw [abs_mul, Nat.abs_cast]; ring
        _ ≤ (a % b : Nat) + (a / b : Nat) * b := by gcongr
        _ = a := hdiv
        _ ≤ (max a 2 : Nat) := by exact_mod_cast le_max_left a 2

/-! ## Signed words (00_scope.md R8) -/

theorem Width.span_eq_two_mul (w : Width) : w.span = 2 * 2 ^ (w.bits - 1) := by
  have hbits : w.bits = w.bits - 1 + 1 := by simp only [Width.bits, Width.bytes]; omega
  rw [← pow_succ', ← hbits]
  rfl

theorem abs_lt_half_span {w : Width} {z : Int} (h : 2 * |z| < w.span) : |z| < 2 ^ (w.bits - 1) := by
  rw [Width.span_eq_two_mul] at h
  push_cast at h
  omega

/-- The W-bit word of a value that fits in two's complement is read back as that value. -/
theorem sint_word {w : Width} {z : Int} (h : FitsSigned w z) : sint w (word w z) = z := by
  have hspan : (w.span : Int) = 2 * 2 ^ (w.bits - 1) := by exact_mod_cast Width.span_eq_two_mul w
  have hhalf : ((2 ^ (w.bits - 1) : Nat) : Int) = 2 ^ (w.bits - 1) := Nat.cast_pow 2 _
  obtain ⟨hlo, hhi⟩ := h
  unfold sint word
  obtain hz | hz := lt_or_ge z 0
  · have hmod : z % w.span = z + w.span := by
      rw [← Int.add_emod_right, Int.emod_eq_of_lt (by omega) (by omega)]
    rw [hmod, if_pos (by omega)]
    omega
  · rw [Int.emod_eq_of_lt hz (by omega), if_neg (by omega)]
    omega

/-! ## XGCD -/

theorem abs_xgcdF_lt {w : Width} {a b : Nat} (ha : a < w.span) (hb : b < w.span) :
    |(xgcdF a b).x| < 2 ^ (w.bits - 1) ∧ |(xgcdF a b).y| < 2 ^ (w.bits - 1) := by
  have hspan := Width.two_pow_32_le_span w
  refine And.imp abs_lt_half_span abs_lt_half_span ?_
  obtain rfl | hb0 := eq_or_ne b 0
  · rw [xgcdF_zero, abs_one, abs_zero]
    omega
  · obtain ⟨hx, hy⟩ := two_mul_abs_xgcdF_le a hb0
    omega

theorem exec_xgcd_fits {s : State} {l : Latch} (hl : s.latch = some l) (hx : FitsSigned s.width (xgcdF l.a l.b).x)
    (hy : FitsSigned s.width (xgcdF l.a l.b).y) (fd fa fb : Field) :
    exec (.xgcd fd fa fb) s = .next ((commitBezout fd (xgcdF l.a l.b) s).finish okCode) := by
  have hok : xgcdResult s.width l.a l.b = .ok (xgcdF l.a l.b) := if_pos ⟨hx, hy⟩
  simp only [exec, execXgcd, onLatch_some hl, hok, complete_ok]

/-! ## Trial division (44_number_theory.md R142) -/

/-- The loop's invariant at candidate p: the cofactor m divides n and has no prime factor below p, and phi is the totient of
what was divided off, so that phi times the totient of m is the totient of n. -/
structure TotientState (n p phi m : Nat) : Prop where
  dvd : m ∣ n
  rough : ∀ q : Nat, q.Prime → q ∣ m → p ≤ q
  totient_eq : phi * m.totient = n.totient

section

variable {n p phi m : Nat}

theorem totientState_start (n : Nat) : TotientState n 2 1 n where
  dvd := dvd_rfl
  rough _ hq _ := hq.two_le
  totient_eq := one_mul _

theorem TotientState.next_of_not_dvd (h : TotientState n p phi m) (hp : ¬ p ∣ m) : TotientState n (p + 1) phi m where
  dvd := h.dvd
  rough q hq hqm := (h.rough q hq hqm).lt_of_ne fun heq => hp (heq ▸ hqm)
  totient_eq := h.totient_eq

/-- A candidate that divides the cofactor is prime: its least prime factor divides the cofactor too. -/
theorem TotientState.prime (h : TotientState n p phi m) (h2 : 2 ≤ p) (hp : p ∣ m) : p.Prime :=
  Nat.prime_def_minFac.mpr ⟨h2, (Nat.minFac_le (by omega)).antisymm
    (h.rough _ (Nat.minFac_prime (by omega)) ((Nat.minFac_dvd p).trans hp))⟩

/-- A further factor p of the cofactor: `φ(p * m) = p * φ(m)` where p divides m. -/
theorem TotientState.divide_repeated (h : TotientState n p phi (p * m)) (hp : p.Prime) (hm : p ∣ m) :
    TotientState n p (phi * p) m where
  dvd := (Nat.dvd_mul_left m p).trans h.dvd
  rough q hq hqm := h.rough q hq (hqm.mul_left p)
  totient_eq := by rw [← h.totient_eq, Nat.totient_mul_of_prime_of_dvd hp hm, mul_assoc]

/-- The last factor p of the cofactor: `φ(p * m) = (p - 1) * φ(m)` where p does not divide m. -/
theorem TotientState.divide_last (h : TotientState n p phi (p * m)) (hp : p.Prime) (hm : ¬ p ∣ m) :
    TotientState n p (phi * (p - 1)) m where
  dvd := (Nat.dvd_mul_left m p).trans h.dvd
  rough q hq hqm := h.rough q hq (hqm.mul_left p)
  totient_eq := by rw [← h.totient_eq, Nat.totient_mul_of_prime_of_not_dvd hp hm, mul_assoc]

/-- The inner loop enters with `p - 1` already multiplied in, so the invariant it starts from is that of one factor p more. -/
theorem TotientState.after_strip (hn : n ≠ 0) (hp : p.Prime) (h : TotientState n p phi (p * m)) :
    TotientState n (p + 1) (stripLoop p (bitLength m) (phi * (p - 1)) m).1
      (stripLoop p (bitLength m) (phi * (p - 1)) m).2 := by
  induction m using Nat.strong_induction_on generalizing phi with
  | _ m ih =>
    have hm : m ≠ 0 := right_ne_zero_of_mul (ne_zero_of_dvd_ne_zero hn h.dvd)
    rw [stripLoop_pass hp.two_le _ hm]
    split
    next hmod =>
      have hdvd : p ∣ m := Nat.dvd_of_mod_eq_zero hmod
      have hrep := h.divide_repeated hp hdvd
      rw [← Nat.mul_div_cancel' hdvd] at hrep
      rw [mul_right_comm]
      exact ih (m / p) (Nat.div_lt_self (Nat.pos_of_ne_zero hm) hp.one_lt) hrep
    next hmod =>
      have hdvd : ¬ p ∣ m := fun hd => hmod (Nat.mod_eq_zero_of_dvd hd)
      exact (h.divide_last hp hdvd).next_of_not_dvd hdvd

theorem TotientState.after_pass (hn : n ≠ 0) (h2 : 2 ≤ p) (h : TotientState n p phi m) :
    TotientState n (p + 1) (totientPass p phi m).1 (totientPass p phi m).2 := by
  unfold totientPass
  split
  next hmod =>
    have hm : m ≠ 0 := ne_zero_of_dvd_ne_zero hn h.dvd
    have hdvd : p ∣ m := Nat.dvd_of_mod_eq_zero hmod
    have hquot : m / p ≠ 0 := (Nat.div_pos (Nat.le_of_dvd (Nat.pos_of_ne_zero hm) hdvd) (by omega)).ne'
    rw [stripLoop_fuel h2 _ _ _ _ hquot (bitLength_mono_div hm h2).le le_rfl]
    exact TotientState.after_strip hn (h.prime h2 hdvd) (by rwa [Nat.mul_div_cancel' hdvd])
  next hmod => exact h.next_of_not_dvd fun hd => hmod (Nat.mod_eq_zero_of_dvd hd)

/-- The loop leaves at a candidate whose square is above n. -/
theorem TotientState.after_loop (hn : n ≠ 0) (h2 : 2 ≤ p) {fuel : Nat} (hfuel : n < (p + fuel) * (p + fuel))
    (h : TotientState n p phi m) :
    ∃ r, n < r * r ∧ TotientState n r (totientLoop n fuel phi m p).1 (totientLoop n fuel phi m p).2 := by
  induction fuel generalizing p phi m with
  | zero => exact ⟨p, hfuel, h⟩
  | succ fuel ih =>
    rw [totientLoop]
    split
    next => exact ih (by omega) (by rwa [Nat.add_right_comm]) (h.after_pass hn h2)
    next hgt => exact ⟨p, Nat.lt_of_not_le hgt, h⟩

/-- What is left where the candidate's square is above n is 1 or a prime: a product of two primes would be above n. -/
theorem TotientState.cofactor (hn : n ≠ 0) (h : TotientState n p phi m) (hsq : n < p * p) : m = 1 ∨ m.Prime := by
  refine or_iff_not_imp_left.mpr fun hone => by_contra fun hm => ?_
  have hpos : 0 < n := Nat.pos_of_ne_zero hn
  have hp : p ≤ m.minFac := h.rough _ (Nat.minFac_prime hone) (Nat.minFac_dvd m)
  refine hsq.not_ge ?_
  calc p * p ≤ m.minFac * m.minFac := Nat.mul_le_mul hp hp
    _ = m.minFac ^ 2 := (pow_two _).symm
    _ ≤ m := Nat.minFac_sq_le_self (Nat.pos_of_dvd_of_pos h.dvd hpos) hm
    _ ≤ n := Nat.le_of_dvd hpos h.dvd

end

theorem totientF_eq_totient {n : Nat} (hn : n ≠ 0) : totientF n = n.totient := by
  obtain ⟨r, hsq, hend⟩ := (totientState_start n).after_loop hn le_rfl (fuel := n) (by nlinarith)
  rw [totientF, ← hend.totient_eq]
  obtain hone | hprime := hend.cofactor hn hsq
  · simp [hone]
  · simp only [if_pos hprime.one_lt, Nat.totient_prime hprime]

/-! ## TOTIENT -/

theorem exec_totient_latched {s : State} {l : Latch} (hl : s.latch = some l) (fd fa : Field) :
    exec (.totient fd fa) s = .next (s.completeData fd (totientResult l.a)) := onLatch_some hl _

end Sys2Proof.Machine

namespace Sys2Proof

open Machine

/-! ## The obligations, outside the namespace in which `gcdResult`, `xgcdResult` and `totientResult` are the model's functions -/

/-- Settles O50: the loop keeps the greatest common divisor of its pair. -/
theorem gcdResult : Obligations.GcdResult := by
  intro s l fd fa fb hl
  rw [exec_gcd_latched hl, Machine.gcdResult, completeData_ok, gcdF_eq_gcd]
  rfl

/-- Settles O51: the recursion's pair is at most half the operands, so it fits and OVERFLOW is never reached. -/
theorem xgcdResult : Obligations.XgcdResult := by
  intro s l fd fa fb hl ha hb
  obtain ⟨hx, hy⟩ := abs_xgcdF_lt ha hb
  obtain ⟨hxlo, hxhi⟩ := abs_lt.mp hx
  obtain ⟨hylo, hyhi⟩ := abs_lt.mp hy
  have hxfits : FitsSigned s.width (xgcdF l.a l.b).x := ⟨hxlo.le, hxhi⟩
  have hyfits : FitsSigned s.width (xgcdF l.a l.b).y := ⟨hylo.le, hyhi⟩
  refine ⟨(xgcdF l.a l.b).x, (xgcdF l.a l.b).y, extendedGcd_xgcdF l.a l.b, ?_, hxlo, hxhi, hylo, hyhi,
    sint_word hxfits, sint_word hyfits, ?_⟩
  · rw [xgcdF_bezout, xgcdF_g]
  · rw [exec_xgcd_fits hl hxfits hyfits, commitBezout, xgcdF_g]
    rfl

/-- Settles O52: the check of n first, then the totient that trial division leaves. -/
theorem totientResult : Obligations.TotientResult := by
  intro s l fd fa hl
  rw [exec_totient_latched hl, Machine.totientResult]
  refine ⟨fun hn => ?_, fun hn => ?_⟩
  · rw [if_pos hn, completeData_error]
    rfl
  · have hn0 : l.a ≠ 0 := by omega
    rw [if_neg hn0, completeData_ok, totientF_eq_totient hn0]
    rfl

end Sys2Proof

/-! PROOF. The elliptic-curve unit (45_elliptic_curve.md R150 to R161): each branch of the point addition as a residue over the
integers, its symmetry for every modulus, and over a prime field the addition and the multiples of the curve's group. -/

namespace Sys2Proof.Machine

/-! ## How a command with a point result completes -/

theorem completePoint_ok (fd : Field) (r : Pt) (s : State) : s.completePoint fd (.ok r) = (s.setPoint fd r).finish 0 :=
  complete_ok r _ s

theorem completePoint_error (fd : Field) (c : ErrorCode) (s : State) : s.completePoint fd (.error c) = s.finish c.code :=
  complete_error c _ s

/-- Completion empties LATCH, so it does not matter what stood there. -/
theorem completePoint_of_latch (fd : Field) (r : Except ErrorCode Pt) (s : State) (x : Option Latch) :
    { s with latch := x }.completePoint fd r = s.completePoint fd r := by
  cases r with
  | error c => rfl
  | ok r => rfl

theorem exec_padd_latched {s : State} {l : Latch} (hl : s.latch = some l) (fd fa fb fm fc : Field) (g : Bool) :
    exec (.padd fd fa fb fm fc g) s = .next (s.completePoint fd (paddResult g l.p l.q l.c l.m)) := onLatch_some hl _

theorem exec_pdbl_latched {s : State} {l : Latch} (hl : s.latch = some l) (fd fa fm fc : Field) (g : Bool) :
    exec (.pdbl fd fa fm fc g) s = .next (s.completePoint fd (pdblResult g l.p l.c l.m)) := onLatch_some hl _

theorem exec_pmul_latched {s : State} {l : Latch} (hl : s.latch = some l) (fd fa fb fm fc : Field) (g : Bool) :
    exec (.pmul fd fa fb fm fc g) s = .next (s.completePoint fd (pmulResult g l.p l.b l.c l.m)) := onLatch_some hl _

/-! ## The two modes (45_elliptic_curve.md R153, R154) -/

theorem paddResult_zero {m : Nat} (hm : m = 0) (g : Bool) (P Q : Pt) (A : Nat) :
    paddResult g P Q A m = .error .invalidModulus := by
  rw [paddResult, hm, withModulus_zero]

theorem paddResult_default {m : Nat} (hm : m ≠ 0) (P Q : Pt) (A : Nat) : paddResult false P Q A m = pointAddF P Q A m :=
  withModulus_pos hm _

theorem paddResult_legacy {m : Nat} (hm : m ≠ 0) (P Q : Pt) (A : Nat) : paddResult true P Q A m = pointAddLF P Q A m :=
  withModulus_pos hm _

/-- On affine points the modes differ in what a degenerate case gives, and in nothing else. -/
theorem paddResult_affine {m : Nat} (hm : m ≠ 0) (g : Bool) (px py qx qy A : Nat) :
    paddResult g (.affine px py) (.affine qx qy) A m =
      affineAdd (if g then .affine (qx % m) (qy % m) else .infinity) px py qx qy A m := by
  cases g with
  | false => exact paddResult_default hm _ _ _
  | true => exact paddResult_legacy hm _ _ _

/-- Doubling is the addition of a point to itself (45_elliptic_curve.md R156). -/
theorem pdblResult_eq_paddResult (g : Bool) (P : Pt) (A m : Nat) : pdblResult g P A m = paddResult g P P A m := rfl

theorem pointAddF_infinity_left (Q : Pt) (A m : Nat) : pointAddF .infinity Q A m = .ok (normPt m Q) := rfl

theorem pointAddF_infinity_right (P : Pt) (A m : Nat) : pointAddF P .infinity A m = .ok (normPt m P) := by
  cases P with
  | infinity => rfl
  | affine x y => rfl

theorem pointAddF_affine (px py qx qy A m : Nat) :
    pointAddF (.affine px py) (.affine qx qy) A m = affineAdd .infinity px py qx qy A m := rfl

theorem pointAddLF_infinity {P Q : Pt} (h : P = .infinity ∨ Q = .infinity) (A m : Nat) :
    pointAddLF P Q A m = .error .precondition := by
  obtain rfl | rfl := h
  · rfl
  · cases P with
    | infinity => rfl
    | affine x y => rfl

/-! ## The branches on affine points -/

section
variable {px py qx qy m : Nat} (A : Nat) (O : Pt)

theorem affineAdd_chord (hdx : subModF qx px m ≠ 0) :
    affineAdd O px py qx qy A m = pointOfSlope (slope (subModF qy py m) (subModF qx px m) m) px py qx m := if_pos hdx

theorem affineAdd_tangent (hdx : subModF qx px m = 0) (hdy : subModF qy py m = 0) (hden : 2 * py % m ≠ 0) :
    affineAdd O px py qx qy A m = pointOfSlope (slope (3 * px * px + A) (2 * py % m) m) px py qx m := by
  simp only [affineAdd, hdx, hdy, ne_eq, not_true_eq_false, if_true, if_false, if_neg hden]

theorem affineAdd_degenerate (hdx : subModF qx px m = 0) (h : subModF qy py m ≠ 0 ∨ 2 * py % m = 0) :
    affineAdd O px py qx qy A m = .ok O := by
  simp only [affineAdd, hdx, ne_eq, not_true_eq_false, if_false]
  split
  next hdy => exact if_pos (h.resolve_left (absurd hdy))
  next => rfl

end

/-! ## Residues as integers and in `ZMod m` -/

theorem subModF_self (a m : Nat) : subModF a a m = 0 := by simp [subModF, modN]

theorem cast_modN {m : Nat} (hm : m ≠ 0) (z : Int) : (modN z m : ZMod m) = z := by
  rw [← Int.cast_natCast, coe_modN hm, ZMod.intCast_mod]

theorem cast_subModF {m : Nat} (hm : m ≠ 0) (a b : Nat) : (subModF a b m : ZMod m) = a - b := by
  rw [subModF, cast_modN hm, Int.cast_sub, Int.cast_natCast, Int.cast_natCast]

theorem modN_eq_modN {m : Nat} {z w : Int} (h : (z : ZMod m) = w) : modN z m = modN w m :=
  congrArg Int.toNat ((ZMod.intCast_eq_intCast_iff' z w m).mp h)

theorem modN_lt {m : Nat} (hm : m ≠ 0) (z : Int) : modN z m < m := by
  have hlt := Int.emod_lt_of_pos z (Int.natCast_pos.mpr (Nat.pos_of_ne_zero hm))
  rw [← coe_modN hm] at hlt
  exact_mod_cast hlt

theorem subModF_eq_zero_iff {m : Nat} (hm : m ≠ 0) {a b : Nat} : subModF a b m = 0 ↔ ((a : Int) - b) % m = 0 := by
  rw [← coe_subModF hm, Int.natCast_eq_zero]

theorem subModF_eq_zero_iff_cast {m : Nat} (hm : m ≠ 0) {a b : Nat} : subModF a b m = 0 ↔ (a : ZMod m) = b := by
  rw [subModF_eq_zero_iff hm, ← Int.dvd_iff_emod_eq_zero, ← ZMod.intCast_zmod_eq_zero_iff_dvd, Int.cast_sub, sub_eq_zero,
    Int.cast_natCast, Int.cast_natCast]

theorem two_mul_mod_eq_zero_iff_cast (y m : Nat) : 2 * y % m = 0 ↔ 2 * (y : ZMod m) = 0 := by
  rw [← Nat.dvd_iff_mod_eq_zero, ← ZMod.natCast_eq_zero_iff, Nat.cast_mul, Nat.cast_ofNat]

/-! ## The slope (45_elliptic_curve.md R152) -/

theorem IsInverse.cast_mul {a n r : Nat} (h : IsInverse a n r) : (a : ZMod n) * r = 1 := by
  have hmod := (ZMod.natCast_eq_natCast_iff' _ _ n).mpr h.mul_mod
  rwa [Nat.cast_mul, Nat.cast_one] at hmod

theorem slope_of_coprime {den m : Nat} (hm : m ≠ 0) (hg : Nat.gcd den m = 1) (num : Nat) :
    ∃ i, IsInverse den m i ∧ slope num den m = .ok (num * i % m) := by
  obtain ⟨i, hi, heq⟩ := (inverseAnswer_invEF den hm).of_coprime hg
  exact ⟨i, hi, by rw [slope, heq]⟩

theorem slope_of_not_coprime {den m : Nat} (hm : m ≠ 0) (hg : Nat.gcd den m ≠ 1) (num : Nat) :
    slope num den m = .error .notInvertible := by
  rw [slope, (inverseAnswer_invEF den hm).of_not_coprime hg]

/-- A slope is a quotient modulo m. -/
theorem slope_mul_den {num den m s : Nat} (hm : m ≠ 0) (h : slope num den m = .ok s) : (s : ZMod m) * den = num := by
  by_cases hg : Nat.gcd den m = 1
  · obtain ⟨i, hi, heq⟩ := slope_of_coprime hm hg num
    obtain rfl : num * i % m = s := Except.ok.inj (heq.symm.trans h)
    rw [ZMod.natCast_mod, Nat.cast_mul]
    linear_combination (num : ZMod m) * hi.cast_mul
  · rw [slope_of_not_coprime hm hg] at h
    cases h

/-- Equal quotients with denominators that are units together have one slope, or one error. -/
theorem slope_congr {num num' den den' m : Nat} (hm : m ≠ 0) (hden : IsUnit (den : ZMod m) ↔ IsUnit (den' : ZMod m))
    (hquot : (num : ZMod m) * den' = num' * den) : slope num den m = slope num' den' m := by
  rw [ZMod.isUnit_iff_coprime, ZMod.isUnit_iff_coprime] at hden
  by_cases hg : Nat.gcd den m = 1
  · obtain ⟨i, hi, heq⟩ := slope_of_coprime hm hg num
    obtain ⟨j, hj, heq'⟩ := slope_of_coprime hm (hden.mp hg) num'
    rw [heq, heq']
    refine congrArg Except.ok ((ZMod.natCast_eq_natCast_iff' _ _ m).mp ?_)
    rw [Nat.cast_mul, Nat.cast_mul]
    linear_combination (i * j : ZMod m) * hquot - (num * i : ZMod m) * hj.cast_mul + (num' * j : ZMod m) * hi.cast_mul
  · rw [slope_of_not_coprime hm hg, slope_of_not_coprime hm (hden.not.mp hg)]

/-! ## How a command completes that needs a slope -/

/-- A denominator that shares a factor with m: the command completes with code 1. -/
theorem completePoint_slope_of_not_coprime {den m : Nat} (hm : m ≠ 0) (hg : Nat.gcd den m ≠ 1) (num px py qx : Nat)
    (fd : Field) (s : State) :
    (.next (s.completePoint fd (pointOfSlope (slope num den m) px py qx m)) : Result) = .next (s.finish 1) := by
  rw [slope_of_not_coprime hm hg, pointOfSlope, completePoint_error]
  rfl

/-- The coordinates as the obligations write them, over the integers. -/
theorem linePoint_eq {m : Nat} (hm : m ≠ 0) {s px py qx : Nat} {rx ry : Int} (hrx : rx = ((s : Int) * s - px - qx) % m)
    (hry : ry = ((s : Int) * (px - rx) - py) % m) : linePoint s px py qx m = .affine rx.toNat ry.toNat := by
  rw [← coe_modN hm] at hrx
  subst hrx hry
  rfl

/-- A denominator that is invertible modulo m: the command writes the point that the slope gives. -/
theorem completePoint_slope_of_coprime {den m : Nat} (hm : m ≠ 0) (hg : Nat.gcd den m = 1) (num px py qx : Nat) (fd : Field)
    (s : State) :
    ∃ i sl rx ry : Int, (den : Int) * i % m = 1 % m ∧ sl = num * i % m ∧ rx = (sl * sl - px - qx) % m ∧
      ry = (sl * (px - rx) - py) % m ∧
      (.next (s.completePoint fd (pointOfSlope (slope num den m) px py qx m)) : Result) =
        .next ((s.setPoint fd (.affine rx.toNat ry.toNat)).finish 0) := by
  obtain ⟨i, hi, heq⟩ := slope_of_coprime hm hg num
  refine ⟨i, (num * i % m : Nat), _, _, by exact_mod_cast hi.mul_mod, by push_cast; rfl, rfl, rfl, ?_⟩
  rw [heq, pointOfSlope, linePoint_eq hm rfl rfl, completePoint_ok]

/-! ## The order of the operands (45_elliptic_curve.md R161) -/

theorem subModF_eq_zero_comm {m : Nat} (hm : m ≠ 0) {a b : Nat} : subModF a b m = 0 ↔ subModF b a m = 0 := by
  rw [subModF_eq_zero_iff_cast hm, subModF_eq_zero_iff_cast hm, eq_comm]

/-- A line through both points meets the curve in the same third point, from whichever of the two it is drawn. -/
theorem linePoint_comm {s px py qx qy m : Nat} (hline : (s : ZMod m) * (qx - px) = qy - py) :
    linePoint s px py qx m = linePoint s qx qy px m := by
  have hx : modN ((s : Int) * s - px - qx) m = modN ((s : Int) * s - qx - px) m := by rw [sub_right_comm]
  rw [linePoint, linePoint, hx]
  refine congrArg (Pt.affine _) (modN_eq_modN ?_)
  push_cast
  linear_combination -hline

theorem pointOfSlope_comm {sl : Except ErrorCode Nat} {px py qx qy m : Nat}
    (hline : ∀ s, sl = .ok s → (s : ZMod m) * (qx - px) = qy - py) :
    pointOfSlope sl px py qx m = pointOfSlope sl qx qy px m := by
  cases sl with
  | error c => rfl
  | ok s => exact congrArg Except.ok (linePoint_comm (hline s rfl))

/-- Both differences of a chord change sign, so its slope stays. -/
theorem affineAdd_chord_comm {px qx m : Nat} (hm : m ≠ 0) (hdx : subModF qx px m ≠ 0) (py qy A : Nat) :
    affineAdd .infinity px py qx qy A m = affineAdd .infinity qx qy px py A m := by
  have hslope : slope (subModF qy py m) (subModF qx px m) m = slope (subModF py qy m) (subModF px qx m) m := by
    apply slope_congr hm
    · rw [cast_subModF hm, cast_subModF hm, ← neg_sub, IsUnit.neg_iff]
    · simp only [cast_subModF hm]
      ring
  rw [affineAdd_chord _ _ hdx, affineAdd_chord _ _ ((subModF_eq_zero_comm hm).not.mp hdx), ← hslope]
  refine pointOfSlope_comm fun s hs => ?_
  rw [← cast_subModF hm, ← cast_subModF hm]
  exact slope_mul_den hm hs

/-- Where the points are equal modulo m, so are the tangents there. -/
theorem affineAdd_self_comm {px py qx qy m : Nat} (hm : m ≠ 0) (hdx : subModF qx px m = 0) (hdy : subModF qy py m = 0)
    (A : Nat) : affineAdd .infinity px py qx qy A m = affineAdd .infinity qx qy px py A m := by
  have hdx' := (subModF_eq_zero_comm hm).mp hdx
  have hdy' := (subModF_eq_zero_comm hm).mp hdy
  have hx : (qx : ZMod m) = px := (subModF_eq_zero_iff_cast hm).mp hdx
  have hy : (qy : ZMod m) = py := (subModF_eq_zero_iff_cast hm).mp hdy
  have hden : 2 * py % m = 2 * qy % m := (ZMod.natCast_eq_natCast_iff' _ _ m).mp (by push_cast; rw [hy])
  by_cases h : 2 * py % m = 0
  · rw [affineAdd_degenerate _ _ hdx (.inr h), affineAdd_degenerate _ _ hdx' (.inr (hden ▸ h))]
  · have hslope : slope (3 * px * px + A) (2 * py % m) m = slope (3 * qx * qx + A) (2 * py % m) m :=
      slope_congr hm Iff.rfl (by push_cast; rw [hx])
    rw [affineAdd_tangent _ _ hdx hdy h, affineAdd_tangent _ _ hdx' hdy' (hden ▸ h), ← hden, ← hslope]
    exact pointOfSlope_comm fun s _ => by rw [hx, hy, sub_self, sub_self, mul_zero]

theorem affineAdd_infinity_comm {m : Nat} (hm : m ≠ 0) (px py qx qy A : Nat) :
    affineAdd .infinity px py qx qy A m = affineAdd .infinity qx qy px py A m := by
  by_cases hdx : subModF qx px m = 0
  · by_cases hdy : subModF qy py m = 0
    · exact affineAdd_self_comm hm hdx hdy A
    · rw [affineAdd_degenerate _ _ hdx (.inl hdy),
        affineAdd_degenerate _ _ ((subModF_eq_zero_comm hm).mp hdx) (.inl ((subModF_eq_zero_comm hm).not.mp hdy))]
  · exact affineAdd_chord_comm hm hdx py qy A

theorem pointAddF_comm {m : Nat} (hm : m ≠ 0) (P Q : Pt) (A : Nat) : pointAddF P Q A m = pointAddF Q P A m := by
  cases P with
  | infinity => rw [pointAddF_infinity_left, pointAddF_infinity_right]
  | affine px py =>
    cases Q with
    | infinity => rw [pointAddF_infinity_left, pointAddF_infinity_right]
    | affine qx qy => rw [pointAddF_affine, pointAddF_affine, affineAdd_infinity_comm hm]

theorem paddResult_default_comm (P Q : Pt) (A m : Nat) : paddResult false P Q A m = paddResult false Q P A m := by
  by_cases hm : m = 0
  · rw [paddResult_zero hm, paddResult_zero hm]
  · rw [paddResult_default hm, paddResult_default hm, pointAddF_comm hm]

/-! ## Double-and-add (45_elliptic_curve.md R157 to R159) -/

/-- The bounded loop is the loop of R157 and R158, whatever the addition. -/
theorem doubleAndAdd_pointMulLoop (add : Pt → Pt → Except ErrorCode Pt) (acc run : Pt) (e : Nat) :
    DoubleAndAdd add acc run e (pointMulLoop add (bitLength e) acc run e) := by
  induction e using Nat.strong_induction_on generalizing acc run with
  | _ e ih =>
    obtain rfl | he := eq_or_ne e 0
    · exact .done acc run
    · rw [pointMulLoop_pass add acc run he]
      obtain hclear | hset := Nat.mod_two_eq_zero_or_one e
      · rw [if_neg (by omega)]
        cases hdouble : add run run with
        | error c => exact .doubleFails acc run e c he (fun h => absurd h (by omega)) hdouble
        | ok run' => exact .clearBit acc run run' e _ he hclear hdouble (ih (e / 2) (by omega) acc run')
      · rw [if_pos hset]
        cases hfold : add acc run with
        | error c => exact .foldFails acc run e c hset hfold
        | ok acc' =>
          cases hdouble : add run run with
          | error c => exact .doubleFails acc run e c he (fun _ => ⟨acc', hfold⟩) hdouble
          | ok run' => exact .setBit acc acc' run run' e _ hset hfold hdouble (ih (e / 2) (by omega) acc' run')

theorem pmulResult_default {m : Nat} (hm : m ≠ 0) (P : Pt) (k A : Nat) : pmulResult false P k A m = pointMulF P k A m :=
  withModulus_pos hm _

theorem pmulResult_legacy {m : Nat} (hm : m ≠ 0) (P : Pt) (k A : Nat) : pmulResult true P k A m = pointMulLF P k A m :=
  withModulus_pos hm _

theorem pointMulF_eq_normResult (P : Pt) (k A m : Nat) :
    ∃ r, DoubleAndAdd (fun p q => pointAddF p q A m) .infinity P k r ∧ pointMulF P k A m = normResult m r :=
  ⟨_, doubleAndAdd_pointMulLoop _ _ _ _, rfl⟩

theorem pointMulLF_eq_normResult (x y : Nat) {k : Nat} (hk : k ≠ 0) (A m : Nat) :
    ∃ r, DoubleAndAdd (fun p q => pointAddLF p q A m) (.affine x y) (.affine x y) (k - 1) r ∧
      pointMulLF (.affine x y) k A m = normResult m r :=
  ⟨_, doubleAndAdd_pointMulLoop _ _ _ _, if_neg hk⟩

theorem pointMulLF_one (x y A m : Nat) : pointMulLF (.affine x y) 1 A m = .ok (.affine (x % m) (y % m)) := rfl

/-- Every fold and every doubling of O is O. -/
theorem pointMulLoop_infinity (A m fuel e : Nat) :
    pointMulLoop (fun p q => pointAddF p q A m) fuel .infinity .infinity e = .ok .infinity := by
  induction fuel generalizing e with
  | zero => rfl
  | succ fuel ih => simp only [pointMulLoop, pointAddF_infinity_left, normPt, ite_self, ih]

theorem pointMulF_identity {P : Pt} {k : Nat} (h : k = 0 ∨ P = .infinity) (A m : Nat) :
    pointMulF P k A m = .ok .infinity := by
  obtain rfl | rfl := h
  · rfl
  · rw [pointMulF, pointMulLoop_infinity]
    rfl

/-! ## The curve's group over a prime field (45_elliptic_curve.md R160, R161) -/

theorem reduced_normPt {m : Nat} (hm : m ≠ 0) (r : Pt) : (normPt m r).Reduced m := by
  cases r with
  | infinity => trivial
  | affine x y => exact ⟨Nat.mod_lt _ (Nat.pos_of_ne_zero hm), Nat.mod_lt _ (Nat.pos_of_ne_zero hm)⟩

section
open WeierstrassCurve

variable {m A : Nat} [hprime : Fact m.Prime] {B : ZMod m}

theorem StandsFor.zero (A B : ZMod m) : StandsFor .infinity (0 : (shortCurve A B).Point) := rfl

theorem standsFor_some {A B x y : ZMod m} (h : (shortCurve A B).Nonsingular x y) {a b : Nat} (ha : (a : ZMod m) = x)
    (hb : (b : ZMod m) = y) : StandsFor (.affine a b) (Affine.Point.some x y h) := by
  subst ha hb
  exact ⟨h, rfl⟩

theorem StandsFor.norm {A B : ZMod m} {r : Pt} {P : (shortCurve A B).Point} (h : StandsFor r P) :
    StandsFor (normPt m r) P := by
  cases r with
  | infinity => exact h
  | affine x y =>
    obtain ⟨h, rfl⟩ := h
    exact standsFor_some h (ZMod.natCast_mod x m) (ZMod.natCast_mod y m)

theorem shortCurve_negY (A B x y : ZMod m) : (shortCurve A B).negY x y = -y := by simp

/-- The computation comes to a point, with coordinates in [0, m), that stands for P (45_elliptic_curve.md R160). -/
def Represents {A B : ZMod m} (e : Except ErrorCode Pt) (P : (shortCurve A B).Point) : Prop :=
  ∃ r, e = .ok r ∧ StandsFor r P ∧ r.Reduced m

theorem represents_normPt {A B : ZMod m} {r : Pt} {P : (shortCurve A B).Point} (h : StandsFor r P) :
    Represents (.ok (normPt m r)) P :=
  ⟨_, rfl, h.norm, reduced_normPt hprime.out.ne_zero r⟩

section
variable {px py qx qy : Nat} (hP : (shortCurve (A : ZMod m) B).Nonsingular (px : ZMod m) (py : ZMod m))
  (hQ : (shortCurve (A : ZMod m) B).Nonsingular (qx : ZMod m) (qy : ZMod m))

/-- Over a prime field a slope is the field's quotient; with the slope of Mathlib's line, the point on it is Mathlib's sum. -/
theorem represents_pointOfSlope {num den : Nat} (hden : (den : ZMod m) ≠ 0)
    (hopp : ¬((px : ZMod m) = qx ∧ (py : ZMod m) = (shortCurve (A : ZMod m) B).negY qx qy))
    (hquot : (num : ZMod m) / den = (shortCurve (A : ZMod m) B).slope px qx py qy) :
    Represents (pointOfSlope (slope num den m) px py qx m) (Affine.Point.some _ _ hP + Affine.Point.some _ _ hQ) := by
  have hm : m ≠ 0 := hprime.out.ne_zero
  obtain ⟨i, -, heq⟩ := slope_of_coprime hm ((ZMod.isUnit_iff_coprime den m).mp hden.isUnit) num
  have hs : ((num * i % m : Nat) : ZMod m) = (shortCurve (A : ZMod m) B).slope px qx py qy := by
    rw [← hquot, eq_div_iff hden, slope_mul_den hm heq]
  rw [heq, Affine.Point.add_some hopp]
  refine ⟨_, rfl, standsFor_some _ ?_ ?_, modN_lt hm _, modN_lt hm _⟩
  all_goals
    rw [← hs]
    simp only [cast_modN hm, Int.cast_sub, Int.cast_mul, Int.cast_natCast, Affine.addX, Affine.addY,
      Affine.negAddY, Affine.negY]
    ring

/-- On affine points the branches are the group law's: opposite points (a vertical tangent among them), a tangent, a chord. -/
theorem represents_affineAdd :
    Represents (affineAdd .infinity px py qx qy A m) (Affine.Point.some _ _ hP + Affine.Point.some _ _ hQ) := by
  have hm : m ≠ 0 := hprime.out.ne_zero
  by_cases hx : (px : ZMod m) = qx
  · have hdx : subModF qx px m = 0 := (subModF_eq_zero_iff_cast hm).mpr hx.symm
    have hdy : subModF qy py m = 0 ↔ (qy : ZMod m) = py := subModF_eq_zero_iff_cast hm
    have hden : 2 * py % m = 0 ↔ 2 * (py : ZMod m) = 0 := two_mul_mod_eq_zero_iff_cast py m
    by_cases hy : (py : ZMod m) = (shortCurve (A : ZMod m) B).negY qx qy
    · have hdeg : subModF qy py m ≠ 0 ∨ 2 * py % m = 0 := by
        rw [or_iff_not_imp_left, not_not, hdy, hden]
        intro heq
        rw [shortCurve_negY] at hy
        linear_combination hy - heq
      rw [affineAdd_degenerate _ _ hdx hdeg, Affine.Point.add_of_Y_eq hx hy]
      exact ⟨_, rfl, .zero _ _, trivial⟩
    · have heq : (py : ZMod m) = qy := Affine.Y_eq_of_Y_ne hP.1 hQ.1 hx hy
      have hne : (2 * (py : ZMod m)) ≠ 0 := fun h => hy (by rw [shortCurve_negY]; linear_combination h - heq)
      rw [affineAdd_tangent _ _ hdx (hdy.mpr heq.symm) (hden.not.mpr hne)]
      refine represents_pointOfSlope hP hQ (by simpa using hne) (fun h => hy h.2) ?_
      rw [Affine.slope_of_Y_ne hx hy, shortCurve_negY, ZMod.natCast_mod]
      push_cast
      ring
  · rw [affineAdd_chord _ _ (fun h => hx ((subModF_eq_zero_iff_cast hm).mp h).symm)]
    refine represents_pointOfSlope hP hQ ?_ (fun h => hx h.1) ?_
    · rw [cast_subModF hm, sub_ne_zero]
      exact Ne.symm hx
    · rw [Affine.slope_of_X_ne hx, cast_subModF hm, cast_subModF hm, ← neg_sub, ← neg_sub (px : ZMod m),
        neg_div_neg_eq]

end

/-- Over a prime field the addition of R153 is the group's. -/
theorem pointAddF_represents {p q : Pt} {P Q : (shortCurve (A : ZMod m) B).Point} (hP : StandsFor p P)
    (hQ : StandsFor q Q) : Represents (pointAddF p q A m) (P + Q) := by
  cases p with
  | infinity =>
    obtain rfl : P = 0 := hP
    rw [pointAddF_infinity_left, zero_add]
    exact represents_normPt hQ
  | affine px py =>
    cases q with
    | infinity =>
      obtain rfl : Q = 0 := hQ
      rw [pointAddF_infinity_right, add_zero]
      exact represents_normPt hP
    | affine qx qy =>
      obtain ⟨hP, rfl⟩ := hP
      obtain ⟨hQ, rfl⟩ := hQ
      rw [pointAddF_affine]
      exact represents_affineAdd hP hQ

/-- Over a prime field no addition of the loop fails, and it keeps `acc + e * run`. -/
theorem DoubleAndAdd.standsFor {acc run : Pt} {e : Nat} {r : Except ErrorCode Pt}
    (h : DoubleAndAdd (fun p q => pointAddF p q A m) acc run e r) {S R : (shortCurve (A : ZMod m) B).Point}
    (hacc : StandsFor acc S) (hrun : StandsFor run R) : ∃ t, r = .ok t ∧ StandsFor t (S + e • R) := by
  induction h generalizing S R with
  | done acc run => exact ⟨acc, rfl, by rwa [zero_nsmul, add_zero]⟩
  | foldFails acc run e c hbit hfold =>
    obtain ⟨t, ht, -⟩ := pointAddF_represents hacc hrun
    cases hfold.symm.trans ht
  | doubleFails acc run e c he hfold hdouble =>
    obtain ⟨t, ht, -⟩ := pointAddF_represents hrun hrun
    cases hdouble.symm.trans ht
  | clearBit acc run run' e r he hbit hdouble h ih =>
    obtain ⟨t, ht, hrun', -⟩ := pointAddF_represents hrun hrun
    cases hdouble.symm.trans ht
    have hsplit : (e / 2) • (R + R) = e • R := by
      rw [← two_nsmul, ← mul_nsmul, Nat.mul_div_cancel' (Nat.dvd_of_mod_eq_zero hbit)]
    rw [← hsplit]
    exact ih hacc hrun'
  | setBit acc acc' run run' e r hbit hfold hdouble h ih =>
    obtain ⟨t, ht, hacc', -⟩ := pointAddF_represents hacc hrun
    obtain ⟨u, hu, hrun', -⟩ := pointAddF_represents hrun hrun
    cases hfold.symm.trans ht
    cases hdouble.symm.trans hu
    have hsplit : S + R + (e / 2) • (R + R) = S + e • R := by
      have he : 2 * (e / 2) + 1 = e := by omega
      rw [← two_nsmul, ← mul_nsmul, add_assoc, ← succ_nsmul', he]
    rw [← hsplit]
    exact ih hacc' hrun'

end

end Sys2Proof.Machine

namespace Sys2Proof

open Machine

/-! ## The obligations, outside the namespace in which `pdblResult` is the model's function -/

/-- Settles O53: the check of the modulus, then the mode's clauses on O. -/
theorem paddIdentity : Obligations.PaddIdentity := by
  intro s l fd fa fb fm fc g hl
  rw [exec_padd_latched hl]
  refine ⟨fun hm => ?_, fun hm hg hO => ?_, fun hm hg hp hq => ?_, fun x y hm hg hp hq => ?_, fun x y hm hg hp hq => ?_⟩
  · rw [paddResult_zero hm, completePoint_error]
    rfl
  · rw [hg, paddResult_legacy hm, pointAddLF_infinity hO, completePoint_error]
    rfl
  · rw [hg, paddResult_default hm, hp, hq, pointAddF_infinity_left, completePoint_ok, normPt]
  · rw [hg, paddResult_default hm, hp, hq, pointAddF_infinity_left, completePoint_ok, normPt]
  · rw [hg, paddResult_default hm, hp, hq, pointAddF_infinity_right, completePoint_ok, normPt]

/-- Settles O54: the chord branch, by whether dx has an inverse. -/
theorem paddChord : Obligations.PaddChord := by
  intro s l fd fa fb fm fc g px py qx qy dx dy hl hm hp hq hdx hdy hne
  rw [← coe_subModF hm] at hdx hdy
  subst hdx hdy
  rw [exec_padd_latched hl, hp, hq, paddResult_affine hm, affineAdd_chord _ _ (Int.natCast_ne_zero.mp hne),
    Int.gcd_natCast_natCast]
  exact ⟨fun hg => completePoint_slope_of_not_coprime hm hg _ _ _ _ fd s,
    fun hg => completePoint_slope_of_coprime hm hg _ px py qx fd s⟩

/-- Settles O55: the tangent branch, by whether den has an inverse, and the degenerate one. -/
theorem paddTangentAndDegenerate : Obligations.PaddTangentAndDegenerate := by
  intro s l fd fa fb fm fc g px py qx qy den hl hm hp hq hdx hden
  obtain rfl : den = (2 * py % l.m : Nat) := hden.trans (by push_cast; rfl)
  simp only [← subModF_eq_zero_iff hm, ne_eq, Int.natCast_eq_zero, Int.gcd_natCast_natCast] at hdx ⊢
  rw [exec_padd_latched hl, hp, hq, paddResult_affine hm]
  refine ⟨fun hdy hne hg => ?_, fun hdy hne hg => ?_, fun h hmode => ?_, fun h hmode => ?_⟩
  · rw [affineAdd_tangent _ _ hdx hdy hne]
    exact completePoint_slope_of_not_coprime hm hg _ _ _ _ fd s
  · rw [affineAdd_tangent _ _ hdx hdy hne]
    exact_mod_cast completePoint_slope_of_coprime hm hg (3 * px * px + l.c) px py qx fd s
  · rw [affineAdd_degenerate _ _ hdx h, completePoint_ok, hmode]
    rfl
  · rw [affineAdd_degenerate _ _ hdx h, completePoint_ok, hmode]
    rfl

/-- Settles O56: PDBL is PADD on P and P, so dx and dy are 0. -/
theorem pdblResult : Obligations.PdblResult := by
  intro s l fd fa fm fc g hl
  rw [exec_pdbl_latched hl, pdblResult_eq_paddResult]
  refine ⟨fun hm => ?_, fun hm hp hg => ?_, fun hm hp hg => ?_, fun px py hm hp hden hg => ?_,
    fun px py hm hp hden hg => ?_, fun px py hm hp hden hg => ?_, fun px py hm hp hden hg => ?_⟩
  · rw [paddResult_zero hm, completePoint_error]
    rfl
  · rw [hg, paddResult_legacy hm, pointAddLF_infinity (.inl hp), completePoint_error]
    rfl
  · rw [hg, paddResult_default hm, hp, pointAddF_infinity_left, completePoint_ok, normPt]
  all_goals rw [hp, paddResult_affine hm]
  · rw [affineAdd_degenerate _ _ (subModF_self _ _) (.inr hden), completePoint_ok, hg]
    rfl
  · rw [affineAdd_degenerate _ _ (subModF_self _ _) (.inr hden), completePoint_ok, hg]
    rfl
  all_goals rw [affineAdd_tangent _ _ (subModF_self _ _) (subModF_self _ _) hden]
  · exact completePoint_slope_of_not_coprime hm hg _ _ _ _ fd s
  · obtain ⟨i, sl, rx, ry, hi, hsl, hrx, hry, hnext⟩ :=
      completePoint_slope_of_coprime hm hg (3 * px * px + l.c) px py px fd s
    refine ⟨i, sl, rx, ry, ?_, by exact_mod_cast hsl, hrx, hry, hnext⟩
    exact ((Int.mod_modEq (2 * py) l.m).mul_right i).symm.trans (by exact_mod_cast hi)

/-- Settles O57: exchanging P and Q exchanges the ends of the line and keeps its slope. -/
theorem paddCommutes : Obligations.PaddCommutes := by
  intro s l fd fa fb fm fc hl
  refine ⟨_, _, exec_padd_latched hl fd fa fb fm fc false, exec_padd_latched rfl fd fb fa fm fc false, ?_⟩
  rw [completePoint_of_latch]
  exact congrArg (s.completePoint fd) (paddResult_default_comm l.p l.q l.c l.m)

/-- Settles O58: the checks first, then what the loop comes to. -/
theorem pmulBaseCases : Obligations.PmulBaseCases := by
  intro s l fd fa fb fm fc g hl
  rw [exec_pmul_latched hl]
  refine ⟨fun hm => ?_, fun hm hg hp => ?_, fun x y hm hg hp hk => ?_, fun x y hm hg hp hk => ?_, fun hm hg h => ?_,
    fun hm hg => ?_, fun x y hm hg hp hk => ?_⟩
  · rw [pmulResult, hm, withModulus_zero, completePoint_error]
    rfl
  all_goals subst hg
  · rw [pmulResult_legacy hm, hp, pointMulLF, completePoint_error]
    rfl
  · rw [pmulResult_legacy hm, hp, hk, pointMulLF, if_pos rfl, completePoint_error]
    rfl
  · rw [pmulResult_legacy hm, hp, hk, pointMulLF_one, completePoint_ok]
  · rw [pmulResult_default hm, pointMulF_identity h, completePoint_ok]
  · obtain ⟨r, hloop, heq⟩ := pointMulF_eq_normResult l.p l.b l.c l.m
    refine ⟨r, hloop, ?_⟩
    rw [pmulResult_default hm, heq]
    cases r with
    | error c => rfl
    | ok R => rfl
  · obtain ⟨r, hloop, heq⟩ := pointMulLF_eq_normResult x y hk l.c l.m
    refine ⟨r, by rwa [hp], ?_⟩
    rw [pmulResult_legacy hm, hp, heq]
    cases r with
    | error c => rfl
    | ok R => rfl

/-- Settles O59: each branch of the addition is the group's, and a prime modulus leaves no slope undefined. -/
theorem paddIsGroupLaw : Obligations.PaddIsGroupLaw := by
  intro s l fd fa fb fm fc hprime B P Q hl hP hQ
  obtain ⟨r, heq, hr, hred⟩ := pointAddF_represents hP hQ
  refine ⟨r, hr, hred, ?_⟩
  rw [exec_padd_latched hl, paddResult_default hprime.out.ne_zero, heq, completePoint_ok]

/-- Settles O60: the double-and-add of PMUL (O58) adds in the group (O59). -/
theorem pmulIsScalarMultiplication : Obligations.PmulIsScalarMultiplication := by
  intro s l fd fa fb fm fc hprime B P hl hP
  obtain ⟨-, -, -, -, -, hloop, -⟩ := pmulBaseCases s l fd fa fb fm fc false hl
  obtain ⟨r, hrun, hexec⟩ := hloop hprime.out.ne_zero rfl
  obtain ⟨t, rfl, ht⟩ := hrun.standsFor (StandsFor.zero _ _) hP
  rw [zero_add] at ht
  exact ⟨normPt l.m t, ht.norm, reduced_normPt hprime.out.ne_zero t, hexec⟩

end Sys2Proof

/-! PROOF. The latched NOP and a completion with code 0 (46_control.md R170, 60_exceptions.md R186). -/

namespace Sys2Proof.Machine

theorem exec_nop_latched {s : State} {l : Latch} (hl : s.latch = some l) : exec .nop s = .next (s.finish okCode) :=
  onLatch_some hl _

/-- Only an error code touches ERR, so a completion with code 0 leaves it as it was. -/
theorem finish_okCode (s : State) : s.finish okCode = { s with latch := none, done := true, ecode := 0 } := by
  simp [State.finish, okCode]

/-- Settles O35: NOP completes at once with code 0, which leaves ERR as it was. -/
theorem nopResult : Obligations.NopResult := by
  intro s l hl
  rw [exec_nop_latched hl, finish_okCode]

end Sys2Proof.Machine

/-! PROOF. Completion and the status flags (60_exceptions.md R185 to R189): a step of the core that empties LATCH is a finish, an
error's finish has written nothing, and neither the core's step nor an acceptance clears a sticky flag. -/

namespace Sys2Proof.Machine

/-! ## What a completion leaves alone -/

/-- Writing the results of a command touches neither the sticky flags nor the record of model faults. -/
theorem Committed.keeps_flags {i : Instr} {s u : State} (h : Committed i s u) :
    u.err = s.err ∧ u.haz = s.haz ∧ u.modelFault = s.modelFault := by
  cases h with
  | nop => exact ⟨rfl, rfl, rfl⟩
  | data => exact ⟨rfl, rfl, rfl⟩
  | bezout => exact ⟨rfl, rfl, rfl⟩
  | point => exact ⟨rfl, rfl, rfl⟩

/-- A core's step that leaves LATCH empty was the finish of an error, with nothing written, or of a success (10_state.md R41). -/
theorem exec_completed {i : Instr} {s t : State} (h : exec i s = .next t) (ht : t.latch = none) :
    (∃ c : ErrorCode, t = s.finish c.code) ∨ ∃ u, Committed i s u ∧ t = u.finish okCode := by
  obtain ⟨c, -, hc⟩ | hok | ⟨-, rfl | ⟨n, l, -, rfl⟩⟩ := exec_next_cases h
  · exact .inl ⟨c, hc⟩
  · exact .inr hok
  · cases (exec_no_command i ht).symm.trans h
  · cases ht

/-- The core's step never clears ERR, and leaves HAZ and the record of model faults alone (60_exceptions.md R187, R188). -/
theorem exec_keeps_flags {i : Instr} {s t : State} (h : exec i s = .next t) :
    (s.err = true → t.err = true) ∧ t.haz = s.haz ∧ t.modelFault = s.modelFault := by
  obtain ⟨c, -, rfl⟩ | ⟨u, hu, rfl⟩ | ⟨-, rfl | ⟨n, l, -, rfl⟩⟩ := exec_next_cases h
  · exact ⟨fun herr => by simp [herr], rfl, rfl⟩
  · obtain ⟨herr, hhaz, hfault⟩ := hu.keeps_flags
    exact ⟨fun hs => by simp [herr, hs], hhaz, hfault⟩
  · exact ⟨id, rfl, rfl⟩
  · exact ⟨id, rfl, rfl⟩

/-- An acceptance never clears ERR or the record of model faults, and leaves HAZ alone (10_state.md R40, 60_exceptions.md R187,
R188). -/
theorem accept_keeps_flags (v : Nat) (s : State) :
    (s.err = true → (s.accept v).err = true) ∧ (s.accept v).haz = s.haz ∧
      (s.modelFault = true → (s.accept v).modelFault = true) := by
  cases hd : decode v with
  | illegal why =>
    rw [accept_illegal hd]
    exact ⟨fun _ => rfl, rfl, id⟩
  | cmd i =>
    rw [accept_legal hd]
    exact ⟨id, rfl, fun h => by simp [h]⟩

/-- Acceptance of an illegal word is a finish with code 6 (60_exceptions.md R186). -/
theorem accept_illegal_finish {v : Nat} {why : Illegal} (h : decode v = .illegal why) (s : State) :
    s.accept v = { s with cmd := v, done := false }.finish 6 := by
  simp [accept_illegal h, State.finish]

theorem finish_irq (e : BitVec 4) (s : State) : (s.finish e).irq = s.ie := Bool.and_true s.ie

/-! ## The obligations -/

/-- Settles O16: the core's step empties LATCH by a finish only, and each result goes to one register. -/
theorem finishAndResultWrites : Obligations.FinishAndResultWrites := by
  refine ⟨fun s e => ?_, fun i s t h ht => ?_, fun s v why hb hd => ?_, fun s f g v => ⟨?_, fun hgf => ?_, rfl⟩,
    fun s f i x y => ⟨?_, ?_, fun r hif => ?_, fun _ => rfl⟩⟩
  · exact ⟨rfl, rfl, rfl, by simp, rfl, rfl, rfl, rfl, rfl, rfl, rfl, rfl, rfl, rfl, rfl, rfl⟩
  · obtain ⟨c, hc⟩ | ⟨u, hu, hok⟩ := exec_completed h ht
    · exact ⟨s, c.code, hc, rfl⟩
    · obtain ⟨-, hhaz, -⟩ := hu.keeps_flags
      exact ⟨u, okCode, hok, hhaz⟩
  · exact (slotWrite_cmd hb v).trans (accept_illegal_finish hd s)
  · exact (setData_get s f v _).trans (if_pos rfl)
  · exact getElem_set_other s.d (mt dIdx_inj.mp hgf) _
  · exact (setPoint_get s f _ _).trans (if_pos rfl)
  · exact (setPoint_get s f _ _).trans (if_pos rfl)
  · exact getElem_set_other s.p hif _

/-- Settles O17: a completion that wrote results finished with code 0. -/
theorem errorsArePrecise : Obligations.ErrorsArePrecise := by
  intro i s t h ht hcode
  obtain ⟨c, rfl⟩ | ⟨u, -, rfl⟩ := exec_completed h ht
  · exact ⟨rfl, rfl⟩
  · exact absurd rfl hcode

/-- Settles O18: a finish can only set ERR, and neither a completion nor an acceptance writes HAZ. -/
theorem stickyStatus : Obligations.StickyStatus := by
  refine ⟨fun i s t h => ?_, fun s v => ?_⟩
  · obtain ⟨herr, hhaz, -⟩ := exec_keeps_flags h
    exact ⟨herr, hhaz⟩
  · obtain ⟨herr, hhaz, -⟩ := accept_keeps_flags v s
    exact ⟨herr, hhaz⟩

/-- Settles O22: a finish sets DONE, and the write to CTRL sets IE and leaves DONE. -/
theorem interruptLevel : Obligations.InterruptLevel := by
  refine ⟨fun s => ⟨rfl, statusWord_testBit s 8⟩, fun s e hie => (finish_irq e s).trans hie, fun s v hdone hie hack hsrst => ?_⟩
  have hwrite : s.slotWrite 0x1B v = s.writeCtrl v := slotWrite_ctrl slotKind_ctrl v s
  rw [hwrite, writeCtrl_fields hsrst]
  simp [State.irq, hdone, hie, hack]

end Sys2Proof.Machine

/-! PROOF. Model faults and resets (60_exceptions.md R200, 70_reset_and_hazards.md R210 to R213): the host's turn by what it does
to the core, no turn of any agent clears the record of model faults, and the states that the two resets leave. -/

namespace Sys2Proof.Machine

/-! ## What the host's turn can do to the core -/

/-- A host's turn moves the host alone, accesses one slot, or executes HALT (30_encoding.md R90, 20_memory.md R63). -/
inductive HostStep (s : State) : State → Prop
  | own (host : HostAgent) : HostStep s { s with host := host }
  | write (k : Slot) (v : Nat) : HostStep s (s.slotWrite k v).advance
  | read (h : Nat) (k : Slot) (z : Int) : HostStep s ((s.afterRead k).setHostVar h z).advance
  | halt : HostStep s (State.noteEnd { s with host := { s.host with halted := true } })

theorem hostStep_branch {l : Label} {s t : State} (h : s.branch l = .next t) : HostStep s t := by
  cases hl : labelPos s.host.script l with
  | none => rw [branch_of_no_label hl] at h; cases h
  | some n => rw [branch_of_label hl] at h; cases h; exact .own _

theorem hostStep_memRead {x : Nat} {addr : Int} {n : Nat} {s t : State} (h : s.memRead x addr n = .next t) :
    HostStep s t := by
  unfold State.memRead at h
  split at h
  next k _ => cases h; exact .read x k _
  all_goals cases h

theorem hostStep_memWrite {addr : Int} {n : Nat} {v : Int} {s t : State} (h : s.memWrite addr n v = .next t) :
    HostStep s t := by
  unfold State.memWrite at h
  split at h
  next k _ => cases h; exact .write k _
  all_goals cases h

theorem hostStep_runStmt {st : Stmt} {s t : State} (h : runStmt st s = .next t) : HostStep s t := by
  cases st with
  | wr k e => cases h; exact .write k _
  | rd x k => cases h; exact .read x k _
  | issue i => cases h; exact .write cmdSlot _
  | set x e => cases h; exact .own _
  | beq a b l =>
    rw [runStmt_beq] at h
    split at h
    next => exact hostStep_branch h
    next => cases h; exact .own _
  | bne a b l =>
    rw [runStmt_bne] at h
    split at h
    next => cases h; exact .own _
    next => exact hostStep_branch h
  | halt => cases h; exact .halt
  | memRead x a n => exact hostStep_memRead h
  | memWrite a n e => exact hostStep_memWrite h

theorem hostStep_of_hostTurn {s t : State} (h : hostTurn s = .next t) : HostStep s t := by
  unfold hostTurn at h
  split at h
  next => cases h; exact .own s.host
  next =>
    split at h
    next => cases h; exact .own s.host
    next => exact hostStep_runStmt h

/-! ## The record of model faults through each agent's turn -/

theorem writeCtrl_modelFault (v : Nat) (s : State) : (s.writeCtrl v).modelFault = s.modelFault := by
  cases hv : v.testBit 3 with
  | true => rw [writeCtrl_reset hv]; rfl
  | false => rw [writeCtrl_fields hv]

theorem slotWrite_keeps_modelFault {s : State} (hs : s.modelFault = true) (k : Slot) (v : Nat) :
    (s.slotWrite k v).modelFault = true := by
  obtain h | ⟨-, h⟩ | ⟨-, h⟩ | ⟨-, h⟩ := slotWrite_cases k v s
  · rw [h]
    exact (writeCtrl_modelFault v s).trans hs
  · rw [h]
    exact hs
  · rw [h]
    obtain ⟨-, -, hfault⟩ := accept_keeps_flags v s
    exact hfault hs
  · exact h.modelFault.trans hs

theorem HostStep.keeps_modelFault {s t : State} (h : HostStep s t) (hs : s.modelFault = true) : t.modelFault = true := by
  cases h with
  | own => exact hs
  | write k v => exact slotWrite_keeps_modelFault hs k v
  | read x k z => simp [hs]
  | halt => simp [hs]

theorem answer_modelFault {id n : Nat} {s t : State} (h : s.answer id n = .next t) : t.modelFault = s.modelFault := by
  by_cases hp : s.rng.pending = some id
  · rw [answer_pending hp] at h
    cases h; rfl
  · by_cases hw : id ∈ s.rng.withdrawn
    · rw [answer_withdrawn hp hw] at h
      cases h; rfl
    · rw [answer_unasked hp hw] at h
      cases h

theorem onNext_eq_next {r : Result} {f : State → State} {t : State} (h : onNext r f = .next t) :
    ∃ u, r = .next u ∧ t = f u := by
  cases r with
  | next u => cases h; exact ⟨u, rfl, rfl⟩
  | fault _ => cases h
  | refused _ => cases h

theorem coreTurn_modelFault {s t : State} (h : coreTurn s = .next t) : t.modelFault = s.modelFault := by
  cases hl : s.latch with
  | none => rw [coreTurn_idle hl] at h; cases h; rfl
  | some l =>
    rw [coreTurn_latched hl] at h
    obtain ⟨u, hu, rfl⟩ := onNext_eq_next h
    obtain ⟨-, -, hfault⟩ := exec_keeps_flags hu
    exact (noteEnd_modelFault u).trans hfault

theorem takeTurn_keeps_modelFault {turn : Turn} {s t : State} (h : takeTurn turn s = .next t) (hs : s.modelFault = true) :
    t.modelFault = true := by
  cases turn with
  | host => exact (hostStep_of_hostTurn h).keeps_modelFault hs
  | core => exact (coreTurn_modelFault h).trans hs
  | rng id w => exact (answer_modelFault h).trans hs
  | powerOn => cases h; exact hs

/-! ## The resets -/

theorem mem_withdraw (r : Rng) (id : Nat) : id ∈ r.withdraw.withdrawn ↔ id ∈ r.withdrawn ∨ r.pending = some id := by
  unfold Rng.withdraw
  split
  next h => simp [h]
  next pending h => simp [h, eq_comm]

theorem resetOf_d_unwritten (w : Width) (i : Fin 16) : (State.resetOf w).d[i] = Held.unwritten 0 := by
  simp [State.resetOf]

theorem resetOf_p_unwritten (w : Width) (i : Fin 4) : (State.resetOf w).p[i] = PointReg.unwritten := by
  simp [State.resetOf]

/-! ## The obligations -/

/-- Settles O4: reads and acceptances record by an OR, and nothing else in any agent's turn writes the record. -/
theorem modelFaultNeverCleared : Obligations.ModelFaultNeverCleared :=
  fun s _ hs h => takeTurn_keeps_modelFault h ((popTurn_modelFault s).trans hs)

/-- Settles O1: every register is built unwritten, and ID reads by the word of its bytes. -/
theorem resetState : Obligations.ResetState := by
  intro w
  refine ⟨fun i => ?_, fun i => ?_, rfl, rfl, rfl, rfl, rfl, rfl, rfl, rfl, rfl, rfl, rfl, fun hw => ?_⟩
  · rw [resetOf_d_unwritten]
    rfl
  · rw [resetOf_p_unwritten]
    exact ⟨rfl, rfl, rfl⟩
  · exact (slotWord_id _).trans (idWord_eq hw)

/-- Settles O24: the pending request, if there is one, joins the withdrawn ones. -/
theorem softResetRule : Obligations.SoftResetRule :=
  fun s => ⟨rfl, rfl, withdraw_pending s.rng, withdraw_asked s.rng, mem_withdraw s.rng⟩

/-- Settles O25: power-on is a soft reset of the exchange and the control registers, with the registers of `State.resetOf`. -/
theorem powerOnRule : Obligations.PowerOnRule := fun _ => rfl

end Sys2Proof.Machine
